-- ==== Sys2Proof/Word.lean ====
section
/-! DEFINITION. The data units of the hardware (spec/00_scope.md R1, R4): the byte, the word, their halves. -/

namespace Sys2Proof

/-- A byte, 8 bits, one memory location (R1). -/
abbrev Byte := BitVec 8

/-- A word, 16 bits, two bytes (R1). -/
abbrev Word := BitVec 16

/-- The low-order byte of a word, bits 7..0 (R4). -/
def loByte (w : Word) : Byte := w.extractLsb' 0 8

/-- The high-order byte of a word, bits 15..8 (R4). -/
def hiByte (w : Word) : Byte := w.extractLsb' 8 8

/-- `hi ++ lo`: the word whose high byte is `hi` (R4). -/
def joinBytes (hi lo : Byte) : Word := hi ++ lo

/-- The size of an operand, which the one bit `W` specifies (spec/30_encoding.md R52). -/
inductive Width
  | byte
  | word
  deriving DecidableEq, Repr

/-- The number of bits of an operand of that size (R1). -/
abbrev Width.bits : Width → Nat
  | .byte => 8
  | .word => 16

/-- The number of bytes of an operand of that size (R1, spec/20_memory.md R39). -/
abbrev Width.bytes : Width → Nat
  | .byte => 1
  | .word => 2

end Sys2Proof
end

