-- ==== Sys2Proof/Syntax.lean ====
section
/-! DEFINITION. The instructions: one constructor per row of spec/opcode_table.json (spec/30_encoding.md R64, R65), over
operands in the manual's own shapes. Nothing here has a raw encoding in it but the byte that carries a bit number, of
which the execution uses the low bits (R60). -/

namespace Sys2Proof

/-- The eight word registers (spec/10_state.md R10). -/
inductive WReg
  | aw | bw | cw | dw | sp | bp | ix | iy
  deriving DecidableEq, Repr

/-- The eight byte registers (R11). -/
inductive BReg
  | al | ah | bl | bh | cl | ch | dl | dh
  deriving DecidableEq, Repr

/-- The four segment registers (R21). -/
inductive SReg
  | ps | ss | ds0 | ds1
  deriving DecidableEq, Repr

/-- A register operand `reg`: a word or a byte register (spec/30_encoding.md R52). -/
inductive Reg
  | byte (r : BReg)
  | word (r : WReg)
  deriving DecidableEq, Repr

abbrev Reg.width : Reg → Width
  | .byte _ => .byte
  | .word _ => .word

/-- The two operands of `MOV reg, reg'`: two registers of the same size, `dst` the first of them
(spec/41_operand_register_immediate_direct.md R119). -/
inductive RegPair
  | byte (dst src : BReg)
  | word (dst src : WReg)
  deriving DecidableEq, Repr

/-- A register and an immediate of its size, `MOV reg, imm` (R114, R120). -/
inductive RegImm
  | byte (r : BReg) (imm : Byte)
  | word (r : WReg) (imm : Word)
  deriving DecidableEq, Repr

/-- `imm`: 8-bit or 16-bit immediate data, as `W` says (spec/30_encoding.md R57). -/
inductive Imm
  | byte (v : Byte)
  | word (v : Word)
  deriving DecidableEq, Repr

abbrev Imm.width : Imm → Width
  | .byte _ => .byte
  | .word _ => .word

abbrev Imm.val : (i : Imm) → BitVec i.width.bits
  | .byte v => v
  | .word v => v

/-- The registers that can address memory alone (spec/10_state.md R13(c)). -/
inductive IndReg
  | ix | iy | bw
  deriving DecidableEq, Repr

/-- The index registers (R13(a)). -/
inductive IndexReg
  | ix | iy
  deriving DecidableEq, Repr

/-- The base registers (R13(b)). -/
inductive BaseReg
  | bp | bw
  deriving DecidableEq, Repr

/-- A displacement of one byte or of two (spec/30_encoding.md R56). -/
inductive Disp
  | byte (d : Byte)
  | word (d : Word)
  deriving DecidableEq, Repr

/-- A memory operand: the five shapes of spec/42_memory_operand_modes.md R130. Based index addressing also has codes
without a displacement (spec/30_encoding.md R55). -/
inductive MemOp
  | direct (addr : Word)
  | indirect (r : IndReg)
  | index (r : IndexReg) (d : Disp)
  | based (r : BaseReg) (d : Disp)
  | basedIndex (b : BaseReg) (i : IndexReg) (d : Option Disp)
  deriving DecidableEq, Repr

/-- The operand that holds a bit: a register or a byte or word of memory (spec/43_bit_and_sfr.md R152). -/
inductive BitOp
  | reg (r : Reg)
  | mem (w : Width) (m : MemOp)
  deriving DecidableEq, Repr

abbrev BitOp.width : BitOp → Width
  | .reg r => r.width
  | .mem w _ => w

/-- The instructions, one constructor per row of spec/opcode_table.json, in the table's order. -/
inductive Instr
  /-- CALL near-proc (R93). -/
  | callNear (d : Word)
  /-- CALL regptr16 (R94). -/
  | callReg (r : WReg)
  /-- CALL memptr16 (R95). -/
  | callMem16 (m : MemOp)
  /-- CALL far-proc (R96). -/
  | callFar (off seg : Word)
  /-- CALL memptr32 (R97). -/
  | callMem32 (m : MemOp)
  /-- BR near-label (R98). -/
  | brNear (d : Word)
  /-- BR short-label (R99). -/
  | brShort (d : Byte)
  /-- BR regptr16 (R100). -/
  | brReg (r : WReg)
  /-- BR memptr16 (R101). -/
  | brMem16 (m : MemOp)
  /-- BR far-label (R102). -/
  | brFar (off seg : Word)
  /-- BR memptr32 (R103). -/
  | brMem32 (m : MemOp)
  /-- The conditional branches (R65, R104). -/
  | bv (d : Byte)
  | bnv (d : Byte)
  | bc (d : Byte)
  | bnc (d : Byte)
  | be (d : Byte)
  | bne (d : Byte)
  | bnh (d : Byte)
  | bh (d : Byte)
  | bn (d : Byte)
  | bp (d : Byte)
  | bpe (d : Byte)
  | bpo (d : Byte)
  | blt (d : Byte)
  | bge (d : Byte)
  | ble (d : Byte)
  | bgt (d : Byte)
  | dbnzne (d : Byte)
  | dbnze (d : Byte)
  | dbnz (d : Byte)
  | bcwz (d : Byte)
  /-- MOV reg, reg' (R119). -/
  | movRegReg (p : RegPair)
  /-- MOV reg, imm (R120). -/
  | movRegImm (p : RegImm)
  /-- MUL reg16, reg16', imm16 (R121). -/
  | mul (dst src : WReg) (imm : Word)
  /-- MOV mem, imm (R122). -/
  | movMemImm (m : MemOp) (imm : Imm)
  /-- MOV acc, dmem (R123). -/
  | movAccDmem (w : Width) (addr : Word)
  /-- SUB mem, reg (R138). -/
  | subMemReg (m : MemOp) (r : Reg)
  /-- TEST mem, imm (R139). -/
  | testMemImm (m : MemOp) (imm : Imm)
  /-- SHL mem, 1 (R140). -/
  | shlMem (w : Width) (m : MemOp)
  /-- PUSH mem16 (R141). -/
  | pushMem (m : MemOp)
  /-- MOVBK dst-block, src-block (R142). -/
  | movbk (w : Width)
  /-- CMPBK src-block, dst-block (R145). -/
  | cmpbk (w : Width)
  /-- STM dst-block (R144). -/
  | stm (w : Width)
  /-- LDM src-block (R143). -/
  | ldm (w : Width)
  /-- CMPM dst-block (R146). -/
  | cmpm (w : Width)
  /-- TEST1 reg/mem, CL (R153). -/
  | test1Cl (o : BitOp)
  /-- TEST1 reg/mem, imm3 or imm4 (R153); `n` is the byte that carries the bit number. -/
  | test1Imm (o : BitOp) (n : Byte)
  /-- CLR1 reg/mem, CL (R155). -/
  | clr1Cl (o : BitOp)
  /-- CLR1 reg/mem, imm3 or imm4 (R155). -/
  | clr1Imm (o : BitOp) (n : Byte)
  /-- SET1 reg/mem, CL (R156). -/
  | set1Cl (o : BitOp)
  /-- SET1 reg/mem, imm3 or imm4 (R156). -/
  | set1Imm (o : BitOp) (n : Byte)
  /-- NOT1 reg/mem, CL (R154). -/
  | not1Cl (o : BitOp)
  /-- NOT1 reg/mem, imm3 or imm4 (R154). -/
  | not1Imm (o : BitOp) (n : Byte)
  /-- BTCLR sfr, imm3, short-label (R158). -/
  | btclr (sfr n d : Byte)
  deriving DecidableEq, Repr

end Sys2Proof
end

