-- ==== Sys2Proof/WellFormed.lean ====
section
/-! DEFINITION. Which terms of `Instr` are instructions of the hardware. The operand types of Sys2Proof/Syntax.lean shut out
everything else an encoding cannot say (registers of two sizes, an address register the manual does not allow), so one check
is left, the `constraint` of the table's row CALL regptr16. -/

namespace Sys2Proof

/-- `CALL SP` is refused (spec/40_instruction_address.md R94, D24); every other term encodes. -/
def Instr.wf : Instr → Bool
  | .callReg r => r != .sp
  | _ => true

end Sys2Proof
end

