-- ==== Sys2Proof/Decode.lean ====
section
/-! DEFINITION. From bytes to an instruction, total and rejecting by name, and back (spec/30_encoding.md). All numbers are
[from general knowledge, not in source], as the spec says of them (D26; log 16). An instruction is its opcode byte or bytes,
the memory specification byte, the displacement, the immediate, each two-byte part low byte first (R62). -/

namespace Sys2Proof

/-! ## Fields -/

/-- `W` of the opcode bytes that carry it in bit 0 (R52, R64). -/
def widthBit0 (op : Byte) : Width := if op.getLsbD 0 then .word else .byte

/-- `W` of `MOV reg, imm`, bit 3 of the opcode byte (R64). -/
def widthBit3 (op : Byte) : Width := if op.getLsbD 3 then .word else .byte

/-- `mod`: bits 7..6 of the memory specification byte (R55). -/
def modField (b : Byte) : Nat := (b.extractLsb' 6 2).toNat

/-- The middle field: bits 5..3, a `reg` code or an opcode extension (R55). -/
def midField (b : Byte) : Nat := (b.extractLsb' 3 3).toNat

/-- `mem`: bits 2..0 (R55). -/
def memField (b : Byte) : Nat := (b.extractLsb' 0 3).toNat

/-- The word column of the `reg` codes (R53). -/
def wregOfCode : Nat → WReg
  | 0 => .aw
  | 1 => .cw
  | 2 => .dw
  | 3 => .bw
  | 4 => .sp
  | 5 => .bp
  | 6 => .ix
  | _ => .iy

/-- The byte column of the `reg` codes (R53). -/
def bregOfCode : Nat → BReg
  | 0 => .al
  | 1 => .cl
  | 2 => .dl
  | 3 => .bl
  | 4 => .ah
  | 5 => .ch
  | 6 => .dh
  | _ => .bh

/-- `reg` and `W` together (R52). -/
def regOfCode (w : Width) (c : Nat) : Reg :=
  match w with
  | .byte => .byte (bregOfCode c)
  | .word => .word (wregOfCode c)

/-- The `sreg` codes (R54). No row of the table has an `sreg` field. -/
def sregOfCode : Nat → SReg
  | 0 => .ds1
  | 1 => .ps
  | 2 => .ss
  | _ => .ds0

/-! ## Reading parts of an instruction -/

/-- Why bytes are given no meaning (R66, R67, R94). -/
inductive DecodeRefusal
  | unknownEncoding
  | prefixNotModelled
  | callSp
  deriving DecidableEq, Repr

/-- What reading a part from a list of bytes gives: the part and the bytes after it, a refusal by name, or that the list ends
before the part does. -/
inductive Decoded (α : Type)
  | ok (a : α) (rest : List Byte)
  | refused (r : DecodeRefusal)
  | truncated
  deriving DecidableEq, Repr

def Decoded.andThen {α β : Type} (d : Decoded α) (f : α → List Byte → Decoded β) : Decoded β :=
  match d with
  | .ok a rest => f a rest
  | .refused r => .refused r
  | .truncated => .truncated

def Decoded.map {α β : Type} (d : Decoded α) (f : α → β) : Decoded β :=
  d.andThen fun a rest => .ok (f a) rest

def takeByte : List Byte → Decoded Byte
  | b :: bs => .ok b bs
  | [] => .truncated

/-- Two bytes, the low one first (R62). -/
def takeWord (bs : List Byte) : Decoded Word :=
  (takeByte bs).andThen fun lo bs => (takeByte bs).andThen fun hi bs => .ok (joinBytes hi lo) bs

/-- `imm`: one byte or two, as `W` says (R57). -/
def takeImm (w : Width) (bs : List Byte) : Decoded Imm :=
  match w with
  | .byte => (takeByte bs).map .byte
  | .word => (takeWord bs).map .word

/-- The column `mod` = 00 of R55's table. -/
def memNoDisp (mem : Nat) (bs : List Byte) : Decoded MemOp :=
  match mem with
  | 0 => .ok (.basedIndex .bw .ix none) bs
  | 1 => .ok (.basedIndex .bw .iy none) bs
  | 2 => .ok (.basedIndex .bp .ix none) bs
  | 3 => .ok (.basedIndex .bp .iy none) bs
  | 4 => .ok (.indirect .ix) bs
  | 5 => .ok (.indirect .iy) bs
  | 6 => (takeWord bs).map .direct
  | _ => .ok (.indirect .bw) bs

/-- The columns `mod` = 01 and 10 of R55's table. -/
def memWithDisp (mem : Nat) (d : Disp) : MemOp :=
  match mem with
  | 0 => .basedIndex .bw .ix (some d)
  | 1 => .basedIndex .bw .iy (some d)
  | 2 => .basedIndex .bp .ix (some d)
  | 3 => .basedIndex .bp .iy (some d)
  | 4 => .index .ix d
  | 5 => .index .iy d
  | 6 => .based .bp d
  | _ => .based .bw d

/-- A memory operand from its memory specification byte `b` and the bytes after it; `mod` = 11 is no memory operand (R66). -/
def decodeMem (b : Byte) (bs : List Byte) : Decoded MemOp :=
  match modField b with
  | 0 => memNoDisp (memField b) bs
  | 1 => (takeByte bs).map fun d => memWithDisp (memField b) (.byte d)
  | 2 => (takeWord bs).map fun d => memWithDisp (memField b) (.word d)
  | _ => .refused .unknownEncoding

/-- The operand of a bit instruction: `mod` = 11 names a register (R55, R153), the middle field is 000. -/
def decodeBitOp (w : Width) (bs : List Byte) : Decoded BitOp :=
  (takeByte bs).andThen fun b bs =>
    if midField b = 0 then
      if modField b = 3 then .ok (.reg (regOfCode w (memField b))) bs else (decodeMem b bs).map (.mem w)
    else .refused .unknownEncoding

/-- `mod n mem` where the middle field extends the opcode and only memory will do. -/
def decodeMemExt (n : Nat) (bs : List Byte) : Decoded MemOp :=
  (takeByte bs).andThen fun b bs => if midField b = n then decodeMem b bs else .refused .unknownEncoding

/-! ## The opcode map (R64, R65) -/

/-- The prefix bytes, all refused (R67). -/
def isPrefixByte (op : Byte) : Bool :=
  [0x26, 0x2E, 0x36, 0x3E, 0xF2, 0xF3, 0x64, 0x65, 0xF0].contains op.toNat

/-- What follows FF. -/
def decodeFF (bs : List Byte) : Decoded Instr :=
  (takeByte bs).andThen fun b bs =>
    match midField b with
    | 2 =>
      if modField b = 3 then
        if wregOfCode (memField b) = .sp then .refused .callSp else .ok (.callReg (wregOfCode (memField b))) bs
      else (decodeMem b bs).map .callMem16
    | 3 => (decodeMem b bs).map .callMem32
    | 4 =>
      if modField b = 3 then .ok (.brReg (wregOfCode (memField b))) bs
      else (decodeMem b bs).map .brMem16
    | 5 => (decodeMem b bs).map .brMem32
    | 6 => (decodeMem b bs).map .pushMem
    | _ => .refused .unknownEncoding

/-- What follows 0F. -/
def decode0F (bs : List Byte) : Decoded Instr :=
  (takeByte bs).andThen fun op bs =>
    let w := widthBit0 op
    match op.toNat with
    | 0x10 | 0x11 => (decodeBitOp w bs).map .test1Cl
    | 0x12 | 0x13 => (decodeBitOp w bs).map .clr1Cl
    | 0x14 | 0x15 => (decodeBitOp w bs).map .set1Cl
    | 0x16 | 0x17 => (decodeBitOp w bs).map .not1Cl
    | 0x18 | 0x19 => (decodeBitOp w bs).andThen fun o bs => (takeByte bs).map (.test1Imm o)
    | 0x1A | 0x1B => (decodeBitOp w bs).andThen fun o bs => (takeByte bs).map (.clr1Imm o)
    | 0x1C | 0x1D => (decodeBitOp w bs).andThen fun o bs => (takeByte bs).map (.set1Imm o)
    | 0x1E | 0x1F => (decodeBitOp w bs).andThen fun o bs => (takeByte bs).map (.not1Imm o)
    | 0x9C =>
      (takeByte bs).andThen fun sfr bs => (takeByte bs).andThen fun n bs => (takeByte bs).map (.btclr sfr n)
    | _ => .refused .unknownEncoding

/-- The conditional branches of R65's table. -/
def condBranchOfOpcode : Nat → Option (Byte → Instr)
  | 0x70 => some .bv
  | 0x71 => some .bnv
  | 0x72 => some .bc
  | 0x73 => some .bnc
  | 0x74 => some .be
  | 0x75 => some .bne
  | 0x76 => some .bnh
  | 0x77 => some .bh
  | 0x78 => some .bn
  | 0x79 => some .bp
  | 0x7A => some .bpe
  | 0x7B => some .bpo
  | 0x7C => some .blt
  | 0x7D => some .bge
  | 0x7E => some .ble
  | 0x7F => some .bgt
  | 0xE0 => some .dbnzne
  | 0xE1 => some .dbnze
  | 0xE2 => some .dbnz
  | 0xE3 => some .bcwz
  | _ => none

/-- A far pointer: offset word, then segment word (R59). -/
def takeFar (f : Word → Word → Instr) (bs : List Byte) : Decoded Instr :=
  (takeWord bs).andThen fun off bs => (takeWord bs).map (f off)

/-- `MOV reg, reg'`: the byte after 8A+W is `11 reg reg'` (R119). -/
def decodeMovRegReg (w : Width) (bs : List Byte) : Decoded Instr :=
  (takeByte bs).andThen fun b bs =>
    if modField b = 3 then
      match w with
      | .byte => .ok (.movRegReg (.byte (bregOfCode (midField b)) (bregOfCode (memField b)))) bs
      | .word => .ok (.movRegReg (.word (wregOfCode (midField b)) (wregOfCode (memField b)))) bs
    else .refused .unknownEncoding

/-- `MOV reg, imm`: the register is in the opcode byte's low three bits (R120). -/
def decodeMovRegImm (op : Byte) (bs : List Byte) : Decoded Instr :=
  match widthBit3 op with
  | .byte => (takeByte bs).map fun v => .movRegImm (.byte (bregOfCode (memField op)) v)
  | .word => (takeWord bs).map fun v => .movRegImm (.word (wregOfCode (memField op)) v)

/-- `MUL reg16, reg16', imm16`: `11 reg reg'`, then the immediate (R121). -/
def decodeMul (bs : List Byte) : Decoded Instr :=
  (takeByte bs).andThen fun b bs =>
    if modField b = 3 then (takeWord bs).map (.mul (wregOfCode (midField b)) (wregOfCode (memField b)))
    else .refused .unknownEncoding

/-- `SUB mem, reg`: `mod reg mem` (R138). -/
def decodeSub (w : Width) (bs : List Byte) : Decoded Instr :=
  (takeByte bs).andThen fun b bs => (decodeMem b bs).map fun m => .subMemReg m (regOfCode w (midField b))

/-- The bytes after the first opcode byte `op`. -/
def decodeOp (op : Byte) (bs : List Byte) : Decoded Instr :=
  let w := widthBit0 op
  if isPrefixByte op then .refused .prefixNotModelled
  else if op = 0xFF then decodeFF bs
  else if op = 0x0F then decode0F bs
  else if op &&& 0xF0 = 0xB0 then decodeMovRegImm op bs
  else
    match condBranchOfOpcode op.toNat with
    | some f => (takeByte bs).map f
    | none =>
      match op.toNat with
      | 0xE8 => (takeWord bs).map .callNear
      | 0x9A => takeFar .callFar bs
      | 0xE9 => (takeWord bs).map .brNear
      | 0xEB => (takeByte bs).map .brShort
      | 0xEA => takeFar .brFar bs
      | 0x8A | 0x8B => decodeMovRegReg w bs
      | 0x69 => decodeMul bs
      | 0xC6 | 0xC7 => (decodeMemExt 0 bs).andThen fun m bs => (takeImm w bs).map (.movMemImm m)
      | 0xA0 | 0xA1 => (takeWord bs).map (.movAccDmem w)
      | 0x28 | 0x29 => decodeSub w bs
      | 0xF6 | 0xF7 => (decodeMemExt 0 bs).andThen fun m bs => (takeImm w bs).map (.testMemImm m)
      | 0xD0 | 0xD1 => (decodeMemExt 4 bs).map (.shlMem w)
      | 0xA4 | 0xA5 => .ok (.movbk w) bs
      | 0xA6 | 0xA7 => .ok (.cmpbk w) bs
      | 0xAA | 0xAB => .ok (.stm w) bs
      | 0xAC | 0xAD => .ok (.ldm w) bs
      | 0xAE | 0xAF => .ok (.cmpm w) bs
      | _ => .refused .unknownEncoding

/-- The instruction that a list of bytes starts with, and the bytes after it. -/
def decode (bs : List Byte) : Decoded Instr :=
  (takeByte bs).andThen decodeOp

/-- The length of the longest instruction (R63): opcode, memory specification byte, two displacement bytes, two immediate
bytes, or two opcode bytes and a bit-number byte. -/
def maxLength : Nat := 6

/-! ## The opcode table's own numbering -/

/-- The leading bytes of a row as spec/opcode_table.json numbers them: `match`, `mask` and the bit positions of `fixed` and
`fields` read the leading bytes as one number whose LAST byte holds bit 0, "first byte leftmost" (R64; log 24). -/
def tableBytes (n w : Nat) : List Byte :=
  (List.range n).map fun k => BitVec.ofNat 8 (w >>> (8 * (n - 1 - k)))

/-- The instruction's bytes: the row's, then operand bytes of zero up to the longest instruction. -/
def tableWordBytes (nbits w : Nat) : List Byte :=
  let n := (nbits + 7) / 8
  tableBytes n w ++ List.replicate (maxLength - n) 0

/-- The instruction the decoder reads from the bits `w` of an opcode-table row. -/
def decodeTableWord (nbits w : Nat) : Option Instr :=
  match decode (tableWordBytes nbits w) with
  | .ok i _ => some i
  | _ => none

/-! ## The encoder -/

def wregCode : WReg → BitVec 3
  | .aw => 0
  | .cw => 1
  | .dw => 2
  | .bw => 3
  | .sp => 4
  | .bp => 5
  | .ix => 6
  | .iy => 7

def bregCode : BReg → BitVec 3
  | .al => 0
  | .cl => 1
  | .dl => 2
  | .bl => 3
  | .ah => 4
  | .ch => 5
  | .dh => 6
  | .bh => 7

def sregCode : SReg → BitVec 2
  | .ds1 => 0
  | .ps => 1
  | .ss => 2
  | .ds0 => 3

def regCode : Reg → BitVec 3
  | .byte r => bregCode r
  | .word r => wregCode r

/-- `W` as a bit: 1 word, 0 byte (R52). -/
def widthCode : Width → BitVec 1
  | .byte => 0
  | .word => 1

/-- `mod mid mem` as one byte (R55). -/
def specByte (mod : BitVec 2) (mid mem : BitVec 3) : Byte := mod ++ mid ++ mem

/-- A seven-bit opcode and its `W` bit. -/
def opW (op : BitVec 7) (w : Width) : Byte := op ++ widthCode w

/-- A word's two bytes, low byte first (R62). -/
def wordBytes (w : Word) : List Byte := [loByte w, hiByte w]

def immBytes : Imm → List Byte
  | .byte v => [v]
  | .word v => wordBytes v

def dispBytes : Disp → List Byte
  | .byte d => [d]
  | .word d => wordBytes d

/-- `mod` of a displacement's size (R55). -/
def dispMod : Disp → BitVec 2
  | .byte _ => 1
  | .word _ => 2

/-- `mem` of a base and an index register (R55). -/
def baseIndexCode : BaseReg → IndexReg → BitVec 3
  | .bw, .ix => 0
  | .bw, .iy => 1
  | .bp, .ix => 2
  | .bp, .iy => 3

/-- The memory specification byte of an operand and its displacement or address bytes, `mid` in the middle field. -/
def encodeMem (mid : BitVec 3) : MemOp → List Byte
  | .direct a => specByte 0 mid 6 :: wordBytes a
  | .indirect .ix => [specByte 0 mid 4]
  | .indirect .iy => [specByte 0 mid 5]
  | .indirect .bw => [specByte 0 mid 7]
  | .index .ix d => specByte (dispMod d) mid 4 :: dispBytes d
  | .index .iy d => specByte (dispMod d) mid 5 :: dispBytes d
  | .based .bp d => specByte (dispMod d) mid 6 :: dispBytes d
  | .based .bw d => specByte (dispMod d) mid 7 :: dispBytes d
  | .basedIndex b i none => [specByte 0 mid (baseIndexCode b i)]
  | .basedIndex b i (some d) => specByte (dispMod d) mid (baseIndexCode b i) :: dispBytes d

def encodeBitOp : BitOp → List Byte
  | .reg r => [specByte 3 0 (regCode r)]
  | .mem _ m => encodeMem 0 m

/-- The bytes of an instruction, first byte first (R64, R65). -/
def encode : Instr → List Byte
  | .callNear d => 0xE8 :: wordBytes d
  | .callReg r => [0xFF, specByte 3 2 (wregCode r)]
  | .callMem16 m => 0xFF :: encodeMem 2 m
  | .callFar off seg => 0x9A :: (wordBytes off ++ wordBytes seg)
  | .callMem32 m => 0xFF :: encodeMem 3 m
  | .brNear d => 0xE9 :: wordBytes d
  | .brShort d => [0xEB, d]
  | .brReg r => [0xFF, specByte 3 4 (wregCode r)]
  | .brMem16 m => 0xFF :: encodeMem 4 m
  | .brFar off seg => 0xEA :: (wordBytes off ++ wordBytes seg)
  | .brMem32 m => 0xFF :: encodeMem 5 m
  | .bv d => [0x70, d]
  | .bnv d => [0x71, d]
  | .bc d => [0x72, d]
  | .bnc d => [0x73, d]
  | .be d => [0x74, d]
  | .bne d => [0x75, d]
  | .bnh d => [0x76, d]
  | .bh d => [0x77, d]
  | .bn d => [0x78, d]
  | .bp d => [0x79, d]
  | .bpe d => [0x7A, d]
  | .bpo d => [0x7B, d]
  | .blt d => [0x7C, d]
  | .bge d => [0x7D, d]
  | .ble d => [0x7E, d]
  | .bgt d => [0x7F, d]
  | .dbnzne d => [0xE0, d]
  | .dbnze d => [0xE1, d]
  | .dbnz d => [0xE2, d]
  | .bcwz d => [0xE3, d]
  | .movRegReg (.byte dst src) => [0x8A, specByte 3 (bregCode dst) (bregCode src)]
  | .movRegReg (.word dst src) => [0x8B, specByte 3 (wregCode dst) (wregCode src)]
  | .movRegImm (.byte r v) => [0xB0 + (bregCode r).setWidth 8, v]
  | .movRegImm (.word r v) => (0xB8 + (wregCode r).setWidth 8) :: wordBytes v
  | .mul dst src imm => 0x69 :: specByte 3 (wregCode dst) (wregCode src) :: wordBytes imm
  | .movMemImm m imm => opW 0x63 imm.width :: (encodeMem 0 m ++ immBytes imm)
  | .movAccDmem w addr => opW 0x50 w :: wordBytes addr
  | .subMemReg m r => opW 0x14 r.width :: encodeMem (regCode r) m
  | .testMemImm m imm => opW 0x7B imm.width :: (encodeMem 0 m ++ immBytes imm)
  | .shlMem w m => opW 0x68 w :: encodeMem 4 m
  | .pushMem m => 0xFF :: encodeMem 6 m
  | .movbk w => [opW 0x52 w]
  | .cmpbk w => [opW 0x53 w]
  | .stm w => [opW 0x55 w]
  | .ldm w => [opW 0x56 w]
  | .cmpm w => [opW 0x57 w]
  | .test1Cl o => 0x0F :: opW 0x08 o.width :: encodeBitOp o
  | .test1Imm o n => 0x0F :: opW 0x0C o.width :: (encodeBitOp o ++ [n])
  | .clr1Cl o => 0x0F :: opW 0x09 o.width :: encodeBitOp o
  | .clr1Imm o n => 0x0F :: opW 0x0D o.width :: (encodeBitOp o ++ [n])
  | .set1Cl o => 0x0F :: opW 0x0A o.width :: encodeBitOp o
  | .set1Imm o n => 0x0F :: opW 0x0E o.width :: (encodeBitOp o ++ [n])
  | .not1Cl o => 0x0F :: opW 0x0B o.width :: encodeBitOp o
  | .not1Imm o n => 0x0F :: opW 0x0F o.width :: (encodeBitOp o ++ [n])
  | .btclr sfr n d => [0x0F, 0x9C, sfr, n, d]

/-! ## Lengths (R63) -/

/-- `dispbytes`: 2 for a direct address, else what the displacement takes. -/
def memDispLength : MemOp → Nat
  | .direct _ => 2
  | .indirect _ => 0
  | .index _ (.byte _) => 1
  | .index _ (.word _) => 2
  | .based _ (.byte _) => 1
  | .based _ (.word _) => 2
  | .basedIndex _ _ none => 0
  | .basedIndex _ _ (some (.byte _)) => 1
  | .basedIndex _ _ (some (.word _)) => 2

def bitOpDispLength : BitOp → Nat
  | .reg _ => 0
  | .mem _ m => memDispLength m

/-- The length of an instruction by R63's formula: opcode bytes, memory specification byte, displacement, immediate. -/
def instrLength : Instr → Nat
  | .callNear _ | .brNear _ => 1 + 2
  | .callReg _ | .brReg _ => 1 + 1
  | .callMem16 m | .callMem32 m | .brMem16 m | .brMem32 m | .pushMem m => 1 + 1 + memDispLength m
  | .callFar _ _ | .brFar _ _ => 1 + 4
  | .brShort _ | .bv _ | .bnv _ | .bc _ | .bnc _ | .be _ | .bne _ | .bnh _ | .bh _ | .bn _ | .bp _ | .bpe _ | .bpo _
  | .blt _ | .bge _ | .ble _ | .bgt _ | .dbnzne _ | .dbnze _ | .dbnz _ | .bcwz _ => 1 + 1
  | .movRegReg _ => 1 + 1
  | .movRegImm (.byte _ _) => 1 + 1
  | .movRegImm (.word _ _) => 1 + 2
  | .mul _ _ _ => 1 + 1 + 2
  | .movMemImm m imm | .testMemImm m imm => 1 + 1 + memDispLength m + imm.width.bytes
  | .movAccDmem _ _ => 1 + 2
  | .subMemReg m _ | .shlMem _ m => 1 + 1 + memDispLength m
  | .movbk _ | .cmpbk _ | .stm _ | .ldm _ | .cmpm _ => 1
  | .test1Cl o | .clr1Cl o | .set1Cl o | .not1Cl o => 2 + 1 + bitOpDispLength o
  | .test1Imm o _ | .clr1Imm o _ | .set1Imm o _ | .not1Imm o _ => 2 + 1 + bitOpDispLength o + 1
  | .btclr _ _ _ => 2 + 1 + 1 + 1

end Sys2Proof
end

