-- ==== Sys2Proof/Config.lean ====
section
/-! DEFINITION. What the spec leaves to the implementation: the reset parameters (spec/10_state.md R23,
spec/70_reset_and_hazards.md R180), the oracle behind the special function registers (spec/20_memory.md R42), the
offset the symbol EXIC stands for (spec/00_scope.md section 4), and the flags an instruction leaves undefined
(spec/93_implementation_defined.md U8). An `opaque` constant has no body: nothing can be proved of its value. -/

namespace Sys2Proof

/-- One access of the running program to the special function register area (spec/20_memory.md R42: the `history`
of `SfrRead(history, a)`): the 20-bit address and, for a write, the byte stored. -/
inductive SfrEvent
  | read (addr : Nat)
  | write (addr : Nat) (value : Byte)
  deriving DecidableEq, Repr

/-- The flags of general knowledge (spec/93_implementation_defined.md G12), named so that a free value can say which
flag it is for. -/
inductive FlagName
  | cy | p | ac | z | s | v
  deriving DecidableEq, Repr

namespace Config

/-- `RESET_PC`. PRESUMED: the family's value (R23 last column; log 3). Unsafe. -/
def resetPc : Word := 0x0000

/-- `RESET_PS`. PRESUMED: the family's value (R23 last column; log 3). Unsafe. -/
def resetPs : Word := 0xFFFF

/-- `RESET_SS`. PRESUMED: the family's value (R23 last column; log 3). Unsafe. -/
def resetSs : Word := 0x0000

/-- `RESET_DS0`. PRESUMED: the family's value (R23 last column; log 3). Unsafe. -/
def resetDs0 : Word := 0x0000

/-- `RESET_DS1`. PRESUMED: the family's value (R23 last column; log 3). Unsafe. -/
def resetDs1 : Word := 0x0000

/-- `RESET_DIR`. PRESUMED: the family's value (R23 last column; log 3). Unsafe. -/
def resetDir : Bool := false

/-- `RESET_IDB`. PRESUMED: the family's value (R23 last column; log 3). Unsafe. -/
def resetIdb : Byte := 0xFF

/-- The value of each of the eight word registers after reset. DESIGN CHOICE: the spec gives none (log 2). Unsafe. -/
def resetReg : Word := 0x0000

/-- The value of each of the flags CY, P, AC, Z, S, V after reset. PRESUMED: the family's (log 3). Unsafe. -/
def resetFlag : Bool := false

/-- The default of `STRICT_BITIMM`: no, the upper bits of a bit-number byte are masked (R60, D14; log 17). -/
def strictBitImmDefault : Bool := false

/-- `SfrRead`: what a read of the special function register at a 20-bit address answers, given how many steps have been
taken, the accesses to the area so far (newest first), and the address (R42; log 10). -/
opaque sfrRead : Nat → List SfrEvent → Nat → Byte

/-- The value an instruction leaves in a flag that it leaves undefined, drawn afresh at each step (U8; log 13). -/
opaque freeFlag : Nat → FlagName → Bool

/-- `EXIC_OFFSET`: the offset in the special function register area that the symbol EXIC stands for (U19; log 27). -/
opaque exicOffset : Byte

end Config

end Sys2Proof
end

