-- ==== Sys2Proof/Machine/State.lean ====
section
/-! DEFINITION. The machine's state (spec/10_state.md) as plain data, the reasons a step can stop (spec/60_exceptions.md
R170), and the state right after reset (R23, spec/70_reset_and_hazards.md R180). INVENTORY.md lists every field with the
rule that names it. -/

namespace Sys2Proof.Machine

/-- The eight word registers (R10). The byte registers are views of AW, BW, CW, DW (R12; log 19). -/
structure Regs where
  aw : Word
  bw : Word
  cw : Word
  dw : Word
  sp : Word
  bp : Word
  ix : Word
  iy : Word
  deriving DecidableEq, Repr

/-- The four segment registers (R21). -/
structure Segs where
  ps : Word
  ss : Word
  ds0 : Word
  ds1 : Word
  deriving DecidableEq, Repr

/-- The flags of general knowledge: carry, parity, auxiliary carry, zero, sign, overflow
(spec/93_implementation_defined.md G12; log 12). PRESUMED: no status word is laid out, because no instruction of the table
reads or writes one. -/
structure Flags where
  cy : Bool
  p : Bool
  ac : Bool
  z : Bool
  s : Bool
  v : Bool
  deriving DecidableEq, Repr

/-- A range of 20-bit addresses, both ends in it: a part of the code region that a claim declares (spec/20_memory.md R47). -/
structure CodeRange where
  first : Nat
  last : Nat
  deriving DecidableEq, Repr

/-- Everything the spec gives the machine. -/
structure State where
  /-- AW, BW, CW, DW, SP, BP, IX, IY (R10). -/
  regs : Regs
  /-- PS, SS, DS0, DS1 (R21). -/
  segs : Segs
  /-- The program counter (R15). While an instruction executes it holds the starting address of the next (R16; log 25). -/
  pc : Word
  /-- CY, P, AC, Z, S, V (R18; log 12). -/
  flags : Flags
  /-- The direction flag DIR, true for 1 (R17). -/
  dir : Bool
  /-- IDB (R19). -/
  idb : Byte
  /-- Memory: strictly rising 20-bit addresses, none that holds what an unlisted address reads as (R30, R32; log 1). -/
  mem : List Host.Cell
  /-- The accesses to the special function register area so far, newest first (spec/20_memory.md R42; log 10). -/
  sfrLog : List SfrEvent
  /-- The code region declared at launch (spec/20_memory.md R47, spec/70_reset_and_hazards.md R182; log 9). -/
  codeRegion : List CodeRange
  /-- `STRICT_BITIMM` (spec/30_encoding.md R60, D14; log 17). -/
  strictBitImm : Bool
  /-- The model's own: how many steps have been taken, which feeds the free values (logs 10, 13). -/
  tick : Nat
  deriving DecidableEq, Repr

/-- The machine stops with a fault. -/
inductive Fault
  /-- Raised by a data read or a fetch of a memory byte that nothing has written (R170, D22; log 1). Safe. -/
  | unwritten
  deriving DecidableEq, Repr

/-- The model gives no meaning (R170: the closed list of the spec's refusal reasons). -/
inductive Refusal
  /-- Raised by an arm of exec whose instruction has no meaning yet. Safe. -/
  | notModelled (mnemonic : String)
  /-- Raised by the step for bytes that match no row of the opcode table (spec/30_encoding.md R66). Safe. -/
  | unknownEncoding
  /-- Raised by the step for a prefix byte (spec/30_encoding.md R67). Safe. -/
  | prefixNotModelled
  /-- Raised by a data, pointer or stack access whose later bytes pass offset FFFFH (spec/20_memory.md R38; log 8). Safe. -/
  | offsetWrapInAccess
  /-- Raised by a store into the declared code region (spec/20_memory.md R47; log 9). Safe. -/
  | storeIntoCode
  /-- Raised by `CALL SP` (spec/40_instruction_address.md R94; log 15). Safe. -/
  | callSp
  /-- Raised by a bit-number byte with other bits set when the launch asks for `STRICT_BITIMM` (R60; log 17). Safe. -/
  | strictBitImm
  deriving DecidableEq, Repr

/-- The machine right after reset: the reset parameters of R23 and R180 as Config has them (logs 2, 3), no memory written,
no access to the special function registers, nothing declared. -/
def State.reset : State where
  regs := {
    aw := Config.resetReg, bw := Config.resetReg, cw := Config.resetReg, dw := Config.resetReg
    sp := Config.resetReg, bp := Config.resetReg, ix := Config.resetReg, iy := Config.resetReg }
  segs := { ps := Config.resetPs, ss := Config.resetSs, ds0 := Config.resetDs0, ds1 := Config.resetDs1 }
  pc := Config.resetPc
  flags := {
    cy := Config.resetFlag, p := Config.resetFlag, ac := Config.resetFlag
    z := Config.resetFlag, s := Config.resetFlag, v := Config.resetFlag }
  dir := Config.resetDir
  idb := Config.resetIdb
  mem := []
  sfrLog := []
  codeRegion := []
  strictBitImm := Config.strictBitImmDefault
  tick := 0

end Sys2Proof.Machine
end

