-- ==== Sys2Proof/Machine/Ops.lean ====
section
/-! DEFINITION. The named operations over registers and memory that every meaning is written with. The spec describes no
exception, trap or interrupt (spec/60_exceptions.md R170 to R173), so there is no operation that takes one (log 22). -/

namespace Sys2Proof.Machine

/-- What a meaning, or a part of one, answers (spec/60_exceptions.md R170). -/
abbrev Result (α : Type) := Host.Outcome α Fault Refusal

/-- First `r`, then what `f` makes of its value; a fault or a refusal ends it. -/
def andThen {α β : Type} (r : Result α) (f : α → Result β) : Result β :=
  match r with
  | .next a => f a
  | .fault e => .fault e
  | .refused e => .refused e

/-! ## Registers (spec/10_state.md R10 to R12, R21) -/

def regsGet (r : WReg) (g : Regs) : Word :=
  match r with
  | .aw => g.aw
  | .bw => g.bw
  | .cw => g.cw
  | .dw => g.dw
  | .sp => g.sp
  | .bp => g.bp
  | .ix => g.ix
  | .iy => g.iy

def regsSet (r : WReg) (v : Word) (g : Regs) : Regs :=
  match r with
  | .aw => { g with aw := v }
  | .bw => { g with bw := v }
  | .cw => { g with cw := v }
  | .dw => { g with dw := v }
  | .sp => { g with sp := v }
  | .bp => { g with bp := v }
  | .ix => { g with ix := v }
  | .iy => { g with iy := v }

/-- `x[N]` of a word register. -/
def getW (r : WReg) (s : State) : Word := regsGet r s.regs

/-- `x[N] <- v` of a word register. -/
def setW (r : WReg) (v : Word) (s : State) : State := { s with regs := regsSet r v s.regs }

/-- The word register a byte register is half of (R12; log 19). -/
def bregWord : BReg → WReg
  | .al | .ah => .aw
  | .bl | .bh => .bw
  | .cl | .ch => .cw
  | .dl | .dh => .dw

/-- Whether a byte register is the high half of its word (R12). -/
def bregIsHigh : BReg → Bool
  | .ah | .bh | .ch | .dh => true
  | .al | .bl | .cl | .dl => false

/-- `x[N]` of a byte register (R12). -/
def getB (r : BReg) (s : State) : Byte :=
  if bregIsHigh r then hiByte (getW (bregWord r) s) else loByte (getW (bregWord r) s)

/-- `x[N] <- v` of a byte register: the other half of the word stays (R12). -/
def setB (r : BReg) (v : Byte) (s : State) : State :=
  let w := getW (bregWord r) s
  setW (bregWord r) (if bregIsHigh r then joinBytes v (loByte w) else joinBytes (hiByte w) v) s

/-- A register operand of either size (spec/30_encoding.md R52). -/
def getR (r : Reg) (s : State) : BitVec r.width.bits :=
  match r with
  | .byte b => getB b s
  | .word w => getW w s

def setR (r : Reg) (v : BitVec r.width.bits) (s : State) : State :=
  match r with
  | .byte b => setB b v s
  | .word w => setW w v s

/-- `acc`: AL or AW, selected by `W` (spec/41_operand_register_immediate_direct.md R112). -/
def getAcc (w : Width) (s : State) : BitVec w.bits :=
  match w with
  | .byte => getB .al s
  | .word => getW .aw s

def setAcc (w : Width) (v : BitVec w.bits) (s : State) : State :=
  match w with
  | .byte => setB .al v s
  | .word => setW .aw v s

/-- `x[N]` of a segment register; with `sregOfCode`, `xs[c]` (spec/41_operand_register_immediate_direct.md R111). -/
def getS (r : SReg) (s : State) : Word :=
  match r with
  | .ps => s.segs.ps
  | .ss => s.segs.ss
  | .ds0 => s.segs.ds0
  | .ds1 => s.segs.ds1

def setFlags (f : Flags) (s : State) : State := { s with flags := f }

def setPc (v : Word) (s : State) : State := { s with pc := v }

/-- `ps:pc <- seg:off` (spec/40_instruction_address.md R82). -/
def setPsPc (seg off : Word) (s : State) : State := { s with pc := off, segs := { s.segs with ps := seg } }

/-! ## Memory as a list of cells -/

/-- What an address that the memory does not list reads as: no value (spec/10_state.md R23, spec/60_exceptions.md R170; log 1). -/
def unlistedByte (_addr : Nat) : Option Byte := none

def memGet : List Host.Cell → Nat → Option Byte
  | [], a => unlistedByte a
  | (b, v) :: m, a => if a = b then some v else memGet m a

/-- Puts a cell where its address belongs in the rising order. -/
def memPut : List Host.Cell → Nat → Byte → List Host.Cell
  | [], a, v => [(a, v)]
  | (b, w) :: m, a, v =>
    if a < b then (a, v) :: (b, w) :: m else if a = b then (a, v) :: m else (b, w) :: memPut m a v

def memDrop (m : List Host.Cell) (a : Nat) : List Host.Cell := m.filter fun c => c.1 != a

/-- Stores a byte and keeps the canonical form: a value that the unlisted address reads as is not listed. -/
def memSet (m : List Host.Cell) (a : Nat) (v : Byte) : List Host.Cell :=
  if unlistedByte a = some v then memDrop m a else memPut m a v

/-- The size of the address space, 20-bit addresses (spec/20_memory.md R32). -/
def addrSpace : Nat := 0x100000

/-- The canonical form of memory: addresses strictly rising and inside the address space, no entry equal to what an
unlisted address reads as. -/
abbrev MemWf (m : List Host.Cell) : Prop :=
  m.Pairwise (fun c d => c.1 < d.1) ∧ ∀ c ∈ m, c.1 < addrSpace ∧ unlistedByte c.1 ≠ some c.2

/-! ## Addresses (spec/20_memory.md R31 to R33, R41) -/

/-- `Phys(s, o) = (s * 16 + o) mod 2^20` (R32; log 4). -/
def phys (seg off : Word) : Nat := (seg.toNat * 16 + off.toNat) % addrSpace

/-- The kinds of access that R33's table distinguishes. -/
inductive AccessKind
  | fetch | bpOperand | operand | srcBlock | dstBlock | stack
  deriving DecidableEq, Repr

/-- `Seg(kind)`: the segment register an access uses (R33; log 5). -/
def segOf : AccessKind → SReg
  | .fetch => .ps
  | .bpOperand => .ss
  | .operand => .ds0
  | .srcBlock => .ds0
  | .dstBlock => .ds1
  | .stack => .ss

/-- The value of that segment register. -/
def segFor (k : AccessKind) (s : State) : Word := getS (segOf k) s

/-- `SfrBase`: xxF00H, where xx is the IDB register value (R41). -/
def sfrBase (idb : Byte) : Nat := idb.toNat * 0x1000 + 0xF00

/-- Whether a 20-bit address lies in xxF00H to xxFFFH (R41). -/
def inSfr (idb : Byte) (a : Nat) : Bool := decide (sfrBase idb ≤ a) && decide (a ≤ sfrBase idb + 0xFF)

/-- `SfrAddr(sfr)` (spec/43_bit_and_sfr.md R157; log 21). -/
def sfrAddr (idb sfr : Byte) : Nat := sfrBase idb + sfr.toNat

/-! ## One byte, of data or of an instruction (spec/20_memory.md R35, R41, R42, R47) -/

/-- Whether reading the byte gives a value: it is a special function register, or something has written it (R170). -/
def byteReadable (a : Nat) (s : State) : Bool := inSfr s.idb a || (memGet s.mem a).isSome

/-- The byte read at `a`: the oracle's answer in the special function register area, else memory's. For an unreadable byte,
which no access gets to (`readAt` and `fetchFrom` ask `byteReadable` first), this is no claim about the machine. -/
def peekByte (a : Nat) (s : State) : Byte :=
  if inSfr s.idb a then Config.sfrRead s.tick s.sfrLog a else (memGet s.mem a).getD 0

/-- What a read leaves behind: an entry in the special function register history. -/
def noteRead (a : Nat) (s : State) : State :=
  if inSfr s.idb a then { s with sfrLog := .read a :: s.sfrLog } else s

/-- The byte stored at `a`: `SfrWrite` in the special function register area, else memory. -/
def pokeByte (a : Nat) (v : Byte) (s : State) : State :=
  if inSfr s.idb a then { s with sfrLog := .write a v :: s.sfrLog } else { s with mem := memSet s.mem a v }

/-- Whether a claim has declared the address to be code (R47; log 9). -/
def inCode (s : State) (a : Nat) : Bool := s.codeRegion.any fun r => decide (r.first ≤ a) && decide (a ≤ r.last)

/-! ## A byte or a word at an offset of a segment (R34, R35, R38, R47) -/

/-- Whether a later byte of the access would lie past offset FFFFH (R38). -/
def wraps (w : Width) (off : Word) : Bool :=
  match w with
  | .byte => false
  | .word => off == 0xFFFF

/-- The 20-bit addresses of the bytes of an operand, lowest offset first (R35). -/
def addrsOf (w : Width) (seg off : Word) : List Nat :=
  match w with
  | .byte => [phys seg off]
  | .word => [phys seg off, phys seg (off + 1)]

/-- The value at `seg:off`, little-endian, the byte at the lower offset read first (R34; logs 6, 10). -/
def peek (w : Width) (seg off : Word) (s : State) : BitVec w.bits :=
  match w with
  | .byte => peekByte (phys seg off) s
  | .word => joinBytes (peekByte (phys seg (off + 1)) (noteRead (phys seg off) s)) (peekByte (phys seg off) s)

def afterRead (w : Width) (seg off : Word) (s : State) : State :=
  match w with
  | .byte => noteRead (phys seg off) s
  | .word => noteRead (phys seg (off + 1)) (noteRead (phys seg off) s)

def poke (w : Width) (seg off : Word) (v : BitVec w.bits) (s : State) : State :=
  match w with
  | .byte => pokeByte (phys seg off) v s
  | .word => pokeByte (phys seg (off + 1)) (hiByte v) (pokeByte (phys seg off) (loByte v) s)

/-- Whether every byte of the operand has a value. -/
def readable (w : Width) (seg off : Word) (s : State) : Bool := (addrsOf w seg off).all fun a => byteReadable a s

/-- Whether a byte of the operand is declared code. -/
def hitsCode (w : Width) (seg off : Word) (s : State) : Bool := (addrsOf w seg off).any fun a => inCode s a

/-- `MemRead` of a byte or a word: the value and the state after the read (R35). -/
def readAt (w : Width) (seg off : Word) (s : State) : Result (BitVec w.bits × State) :=
  if wraps w off then .refused .offsetWrapInAccess
  else if readable w seg off s then .next (peek w seg off s, afterRead w seg off s)
  else .fault .unwritten

/-- `MemWrite` of a byte or a word (R35, R47). -/
def writeAt (w : Width) (seg off : Word) (v : BitVec w.bits) (s : State) : Result State :=
  if wraps w off then .refused .offsetWrapInAccess
  else if hitsCode w seg off s then .refused .storeIntoCode
  else .next (poke w seg off v s)

/-- A double word pointer: the offset word at `off`, then the segment word at `off + 2`; answers (segment, offset)
(R36, R38, spec/40_instruction_address.md R91; log 6). -/
def readPtr32 (seg off : Word) (s : State) : Result (Word × Word × State) :=
  if 0xFFFC < off.toNat then .refused .offsetWrapInAccess
  else andThen (readAt .word seg off s) fun (o, s1) =>
    andThen (readAt .word seg (off + 2) s1) fun (g, s2) => .next (g, o, s2)

/-! ## The stack and control transfer (spec/40_instruction_address.md) -/

/-- `x[SP] <- x[SP] - 2; MemWrite(Phys(x[SS], x[SP]), 2, v)` (R92, R141; log 14). -/
def pushWord (v : Word) (s : State) : Result State :=
  writeAt .word (segFor .stack s) (getW .sp s - 2) v (setW .sp (getW .sp s - 2) s)

/-- The link and the branch of a CALL that loads PC only (R92): PC holds `pc_next`. -/
def nearCall (target : Word) (s : State) : Result State :=
  andThen (pushWord s.pc s) fun s1 => .next (setPc target s1)

/-- The link and the branch of a CALL that loads PS and PC (R92). -/
def farCall (seg off : Word) (s : State) : Result State :=
  andThen (pushWord s.segs.ps s) fun s1 => andThen (pushWord s.pc s1) fun s2 => .next (setPsPc seg off s2)

/-- A one-byte displacement, sign-extended to 16 bits (spec/00_scope.md R2). -/
def sext16 (d : Byte) : Word := d.signExtend 16

/-- Relative addressing with a two-byte displacement: it is added to PC, which holds `pc_next` (R84; log 7). -/
def branchNear (d : Word) (s : State) : State := setPc (s.pc + d) s

/-- Relative addressing with a one-byte displacement (R84). -/
def branchShort (d : Byte) (s : State) : State := branchNear (sext16 d) s

/-- A conditional branch: taken or not, only PC can change (R104). -/
def branchIf (cond : Bool) (d : Byte) (s : State) : State := if cond then branchShort d s else s

/-! ## Fetch (spec/10_state.md R16, spec/20_memory.md R47) -/

/-- The bytes at PS:off upward, one after the other, at most `n` and none from the first that has no value on; the offset
wraps (U2). A byte in the special function register area is the oracle's, like any other access there (D29; log 11). -/
def fetchFrom : Nat → State → Word → List Byte
  | 0, _, _ => []
  | n + 1, s, off =>
    if byteReadable (phys (segFor .fetch s) off) s then
      peekByte (phys (segFor .fetch s) off) s :: fetchFrom n (noteRead (phys (segFor .fetch s) off) s) (off + 1)
    else []

/-- The bytes the next instruction can be made of. -/
def fetchBytes (s : State) : List Byte := fetchFrom maxLength s s.pc

/-- What fetching the `n` bytes at PS:off upward leaves behind: their reads of special function registers. -/
def noteFetch : Nat → Word → State → State
  | 0, _, s => s
  | n + 1, off, s => noteFetch n (off + 1) (noteRead (phys (segFor .fetch s) off) s)

/-- PC moves past the instruction's `n` bytes before it executes, as the source has it (R16, R84; log 25); the step is
counted (logs 10, 13). -/
def advance (n : Nat) (s : State) : State := { s with pc := s.pc + BitVec.ofNat 16 n, tick := s.tick + 1 }

/-- The name a step gives to bytes that the decoder refuses (R66, R67, R94). -/
def refusalOf : DecodeRefusal → Refusal
  | .unknownEncoding => .unknownEncoding
  | .prefixNotModelled => .prefixNotModelled
  | .callSp => .callSp

/-- The IDB under which the next fetch reads memory: the present one, or, if one of the bytes at PS:PC upward lies in the special
function register area, the one that puts the area half the address space away (log 24). -/
def clearFetchIdb (s : State) : Byte :=
  if (List.range maxLength).any fun k => inSfr s.idb (phys (segFor .fetch s) (s.pc + BitVec.ofNat 16 k)) then s.idb ^^^ 0x80
  else s.idb

/-- Lays bytes at PS:off upward, as an outside loader would (log 24). -/
def layBytes (s : State) (off : Word) : List Byte → List Host.Cell → List Host.Cell
  | [], m => m
  | b :: bs, m => layBytes s (off + 1) bs (memSet m (phys (segFor .fetch s) off) b)

end Sys2Proof.Machine
end

