-- ==== Sys2Proof/Machine/Flags.lean ====
section
/-! DEFINITION. The flag computations. The source names no flag but DIR (spec/10_state.md R18); what stands here is the
spec's general knowledge of the family (spec/93_implementation_defined.md G12, D32; log 12). A flag that an instruction
leaves undefined is a free value, drawn at each step (U8; log 13). -/

namespace Sys2Proof.Machine

/-- Even parity: true when the byte has an even number of ones (spec/42_memory_operand_modes.md R138). -/
def parityEven (b : Byte) : Bool :=
  !(b.getLsbD 0 ^^ b.getLsbD 1 ^^ b.getLsbD 2 ^^ b.getLsbD 3 ^^ b.getLsbD 4 ^^ b.getLsbD 5 ^^ b.getLsbD 6 ^^ b.getLsbD 7)

/-- The value a step leaves in a flag that it leaves undefined. -/
def freeFlag (f : FlagName) (s : State) : Bool := Config.freeFlag s.tick f

/-- The flags of `a - b` (R138): CY the borrow, V the signed overflow, Z, S and P of the result, AC the borrow out of bit 3. -/
def subFlags {n : Nat} (a b : BitVec n) : Flags where
  cy := decide (a.toNat < b.toNat)
  p := parityEven ((a - b).setWidth 8)
  ac := decide (a.toNat % 16 < b.toNat % 16)
  z := decide (a - b = 0)
  s := (a - b).msb
  v := decide ((a - b).toInt ≠ a.toInt - b.toInt)

/-- The flags of `a AND b` (R139): CY and V are 0, AC is undefined. -/
def testFlags {n : Nat} (a b : BitVec n) (s : State) : Flags where
  cy := false
  p := parityEven ((a &&& b).setWidth 8)
  ac := freeFlag .ac s
  z := decide (a &&& b = 0)
  s := (a &&& b).msb
  v := false

/-- The flags of `a * 2` (R140): CY the old top bit, V whether the top bit changed, AC undefined. -/
def shlFlags {n : Nat} (a : BitVec n) (s : State) : Flags where
  cy := a.msb
  p := parityEven ((a <<< 1).setWidth 8)
  ac := freeFlag .ac s
  z := decide (a <<< 1 = 0)
  s := (a <<< 1).msb
  v := (a <<< 1).msb != a.msb

/-- The flags of a signed product (spec/41_operand_register_immediate_direct.md R121): CY and V say that it is not
representable as a signed 16-bit number, the others are undefined. -/
def mulFlags (product : Int) (s : State) : Flags where
  cy := decide (product < -32768 ∨ 32767 < product)
  p := freeFlag .p s
  ac := freeFlag .ac s
  z := freeFlag .z s
  s := freeFlag .s s
  v := decide (product < -32768 ∨ 32767 < product)

/-- The flags of a bit test (spec/43_bit_and_sfr.md R153): Z is 1 when the bit is 0, CY and V are 0, the others undefined. -/
def test1Flags (bit : Bool) (s : State) : Flags where
  cy := false
  p := freeFlag .p s
  ac := freeFlag .ac s
  z := !bit
  s := freeFlag .s s
  v := false

end Sys2Proof.Machine
end

