-- ==== Sys2Proof/Machine/Operands.lean ====
section
/-! DEFINITION. Operand addressing (spec/41_operand_register_immediate_direct.md, spec/42_memory_operand_modes.md,
spec/43_bit_and_sfr.md): the effective address and segment of a memory operand, block operands, bit operands. -/

namespace Sys2Proof.Machine

def indRegW : IndReg → WReg
  | .ix => .ix
  | .iy => .iy
  | .bw => .bw

def indexRegW : IndexReg → WReg
  | .ix => .ix
  | .iy => .iy

def baseRegW : BaseReg → WReg
  | .bp => .bp
  | .bw => .bw

/-- A displacement as the 16-bit value that is added (spec/00_scope.md R2, spec/30_encoding.md R56). -/
def dispVal : Disp → Word
  | .byte d => sext16 d
  | .word d => d

def dispValOpt : Option Disp → Word
  | none => 0
  | some d => dispVal d

/-- `EA(mod, mem, disp)`: the effective address of a memory operand, a sum modulo 2^16 (R130; log 7): direct (R116),
register indirect (R131), index (R133), based (R134), based index (R135). -/
def ea (m : MemOp) (s : State) : Word :=
  match m with
  | .direct a => a
  | .indirect r => getW (indRegW r) s
  | .index r d => getW (indexRegW r) s + dispVal d
  | .based r d => getW (baseRegW r) s + dispVal d
  | .basedIndex b i d => getW (baseRegW b) s + getW (indexRegW i) s + dispValOpt d

/-- Which row of R33's table a memory operand falls under: the one for BP in the address, or the other. -/
def memKind : MemOp → AccessKind
  | .based .bp _ => .bpOperand
  | .basedIndex .bp _ _ => .bpOperand
  | _ => .operand

/-- `Seg(operand)` (R33; log 5). -/
def memSeg (m : MemOp) (s : State) : Word := segFor (memKind m) s

/-- The 20-bit addresses of the bytes of a memory operand, from the registers as they are in `s` (R48(a)). -/
def memAddrs (w : Width) (m : MemOp) (s : State) : List Nat := addrsOf w (memSeg m s) (ea m s)

/-- Reads a memory operand. -/
def readMem (w : Width) (m : MemOp) (s : State) : Result (BitVec w.bits × State) := readAt w (memSeg m s) (ea m s) s

/-- Reads a memory operand and stores `f` of it back at the same address (R48(d)); answers the value read and the state.
The address is formed once, from the registers at the start (R48(a)). -/
def modifyMem (w : Width) (m : MemOp) (f : BitVec w.bits → BitVec w.bits) (s : State) :
    Result (BitVec w.bits × State) :=
  andThen (readMem w m s) fun (v, s1) =>
    andThen (writeAt w (memSeg m s) (ea m s) (f v) s1) fun s2 => .next (v, s2)

/-! ## Block operands (R132): `src-block` at IX in DS0, `dst-block` at IY in DS1 -/

/-- `n`: 1 for byte processing, 2 for word processing. -/
def blockStep (w : Width) : Word :=
  match w with
  | .byte => 1
  | .word => 2

/-- `step(r)`: the register is incremented if DIR = 0, decremented if DIR = 1, modulo 2^16 (log 7). -/
def stepReg (w : Width) (r : WReg) (s : State) : State :=
  setW r (if s.dir then getW r s - blockStep w else getW r s + blockStep w) s

def readSrc (w : Width) (s : State) : Result (BitVec w.bits × State) := readAt w (segFor .srcBlock s) (getW .ix s) s

def readDst (w : Width) (s : State) : Result (BitVec w.bits × State) := readAt w (segFor .dstBlock s) (getW .iy s) s

def writeDst (w : Width) (v : BitVec w.bits) (s : State) : Result State :=
  writeAt w (segFor .dstBlock s) (getW .iy s) v s

/-! ## Bit operands (spec/43_bit_and_sfr.md R150 to R152) -/

/-- The bit number: the low-order three bits of `x` for a byte operand, four for a word operand (R150; log 18). -/
def bitNumber (w : Width) (x : Byte) : Nat := x.toNat % w.bits

/-- `1 << b`: bit `b` is the bit of weight 2^b (R150, R151). -/
def bitMask (w : Width) (b : Nat) : BitVec w.bits := BitVec.twoPow w.bits b

/-- `v[b]` (R151). -/
def testBit {n : Nat} (v : BitVec n) (b : Nat) : Bool := v.getLsbD b

def setBit (w : Width) (b : Nat) (v : BitVec w.bits) : BitVec w.bits := v ||| bitMask w b

def clearBit (w : Width) (b : Nat) (v : BitVec w.bits) : BitVec w.bits := v &&& ~~~bitMask w b

def invertBit (w : Width) (b : Nat) (v : BitVec w.bits) : BitVec w.bits := v ^^^ bitMask w b

/-- Reads the operand that holds the bit, a whole byte or word. -/
def readBitOp (o : BitOp) (s : State) : Result (BitVec o.width.bits × State) :=
  match o with
  | .reg r => .next (getR r s, s)
  | .mem w m => readMem w m s

/-- Reads the operand and writes `f` of it back at the same place (R152). -/
def modifyBitOp (o : BitOp) (f : BitVec o.width.bits → BitVec o.width.bits) (s : State) : Result State :=
  match o with
  | .reg r => .next (setR r (f (getR r s)) s)
  | .mem w m => andThen (modifyMem w m f s) fun (_, s1) => .next s1

/-- The bit number of the immediate forms: the byte is masked, or refused under `STRICT_BITIMM` when another bit of it is
set (spec/30_encoding.md R60, D14; log 17). -/
def immBitNumber (w : Width) (n : Byte) (s : State) : Result Nat :=
  if s.strictBitImm && decide (w.bits ≤ n.toNat) then .refused .strictBitImm else .next (bitNumber w n)

end Sys2Proof.Machine
end

