-- ==== Sys2Proof/Machine/Arith.lean ====
section
/-! DEFINITION. SUB, TEST, SHL and PUSH of a memory operand (spec/42_memory_operand_modes.md R138 to R141). What they do with
their operands is the spec's general knowledge (D32; log 28). -/

namespace Sys2Proof.Machine

/-- SUB mem, reg (R138). -/
def execSubMemReg (m : MemOp) (r : Reg) (s : State) : Result State :=
  andThen (modifyMem r.width m (fun v => v - getR r s) s) fun (v, s1) => .next (setFlags (subFlags v (getR r s)) s1)

/-- TEST mem, imm (R139): the result is discarded. -/
def execTestMemImm (m : MemOp) (imm : Imm) (s : State) : Result State :=
  andThen (readMem imm.width m s) fun (v, s1) => .next (setFlags (testFlags v imm.val s) s1)

/-- SHL mem, 1 (R140). -/
def execShlMem (w : Width) (m : MemOp) (s : State) : Result State :=
  andThen (modifyMem w m (fun v => v <<< 1) s) fun (v, s1) => .next (setFlags (shlFlags v s) s1)

/-- PUSH mem16 (R141): the operand is read before SP changes. -/
def execPushMem (m : MemOp) (s : State) : Result State :=
  andThen (readMem .word m s) fun (v, s1) => pushWord v s1

end Sys2Proof.Machine
end

