-- ==== Sys2Proof/Machine/Bit.lean ====
section
/-! DEFINITION. The bit instructions and BTCLR (spec/43_bit_and_sfr.md R153 to R158). The bit number of a CL form is taken
from CL before the operation, so the operand may be CL itself (R152). -/

namespace Sys2Proof.Machine

/-- The bit number of the CL forms (R150). -/
def clBitNumber (w : Width) (s : State) : Nat := bitNumber w (getB .cl s)

/-- Tests bit `b` of the operand, which is not written (R153; log 12). -/
def testOperandBit (o : BitOp) (b : Nat) (s : State) : Result State :=
  andThen (readBitOp o s) fun (v, s1) => .next (setFlags (test1Flags (testBit v b) s) s1)

/-- TEST1 with CL (R153). -/
def execTest1Cl (o : BitOp) (s : State) : Result State := testOperandBit o (clBitNumber o.width s) s

/-- TEST1 with an immediate bit number (R153). -/
def execTest1Imm (o : BitOp) (n : Byte) (s : State) : Result State :=
  andThen (immBitNumber o.width n s) fun b => testOperandBit o b s

/-- CLR1 with CL (R155). -/
def execClr1Cl (o : BitOp) (s : State) : Result State :=
  modifyBitOp o (clearBit o.width (clBitNumber o.width s)) s

/-- CLR1 with an immediate bit number (R155). -/
def execClr1Imm (o : BitOp) (n : Byte) (s : State) : Result State :=
  andThen (immBitNumber o.width n s) fun b => modifyBitOp o (clearBit o.width b) s

/-- SET1 with CL (R156). -/
def execSet1Cl (o : BitOp) (s : State) : Result State :=
  modifyBitOp o (setBit o.width (clBitNumber o.width s)) s

/-- SET1 with an immediate bit number (R156). -/
def execSet1Imm (o : BitOp) (n : Byte) (s : State) : Result State :=
  andThen (immBitNumber o.width n s) fun b => modifyBitOp o (setBit o.width b) s

/-- NOT1 with CL (R154). -/
def execNot1Cl (o : BitOp) (s : State) : Result State :=
  modifyBitOp o (invertBit o.width (clBitNumber o.width s)) s

/-- NOT1 with an immediate bit number (R154). -/
def execNot1Imm (o : BitOp) (n : Byte) (s : State) : Result State :=
  andThen (immBitNumber o.width n s) fun b => modifyBitOp o (invertBit o.width b) s

/-- The part of BTCLR after its bit number is known: if the bit is 1 the register is written with the bit cleared and the
branch is taken, otherwise nothing is written (R158; log 21). -/
def testClearBranch (a b : Nat) (d : Byte) (s : State) : Result State :=
  if byteReadable a s then
    if inCode s a && testBit (peekByte a s) b then .refused .storeIntoCode
    else .next (
      if testBit (peekByte a s) b then
        branchShort d (pokeByte a (clearBit .byte b (peekByte a s)) (noteRead a s))
      else noteRead a s)
  else .fault .unwritten

/-- BTCLR sfr, imm3, short-label (R158): special function register addressing (R157). -/
def execBtclr (sfr n d : Byte) (s : State) : Result State :=
  andThen (immBitNumber .byte n s) fun b => testClearBranch (sfrAddr s.idb sfr) b d s

end Sys2Proof.Machine
end

