-- ==== Sys2Proof/Machine/Block.lean ====
section
/-! DEFINITION. The primitive block instructions (spec/42_memory_operand_modes.md R142 to R146), one element each (R147;
log 20). Their addressing is R132; their transfers and comparisons are the spec's general knowledge (D32; log 28). -/

namespace Sys2Proof.Machine

/-- MOVBK dst-block, src-block (R142). -/
def execMovbk (w : Width) (s : State) : Result State :=
  andThen (readSrc w s) fun (v, s1) =>
    andThen (writeDst w v s1) fun s2 => .next (stepReg w .iy (stepReg w .ix s2))

/-- LDM src-block (R143). -/
def execLdm (w : Width) (s : State) : Result State :=
  andThen (readSrc w s) fun (v, s1) => .next (stepReg w .ix (setAcc w v s1))

/-- STM dst-block (R144). -/
def execStm (w : Width) (s : State) : Result State :=
  andThen (writeDst w (getAcc w s) s) fun s1 => .next (stepReg w .iy s1)

/-- CMPBK src-block, dst-block (R145): the flags of source minus destination. -/
def execCmpbk (w : Width) (s : State) : Result State :=
  andThen (readSrc w s) fun (a, s1) =>
    andThen (readDst w s1) fun (b, s2) => .next (stepReg w .iy (stepReg w .ix (setFlags (subFlags a b) s2)))

/-- CMPM dst-block (R146): the flags of acc minus destination. -/
def execCmpm (w : Width) (s : State) : Result State :=
  andThen (readDst w s) fun (b, s1) => .next (stepReg w .iy (setFlags (subFlags (getAcc w s) b) s1))

end Sys2Proof.Machine
end

