-- ==== Sys2Proof/Machine/Branch.lean ====
section
/-! DEFINITION. CALL and BR (spec/40_instruction_address.md R93 to R103). PC holds `pc_next` when they execute (R16, R84;
log 25). What CALL pushes is the spec's general knowledge (D21; log 14). -/

namespace Sys2Proof.Machine

/-- CALL near-proc (R93): relative addressing (R84). -/
def execCallNear (d : Word) (s : State) : Result State := nearCall (s.pc + d) s

/-- CALL regptr16 (R94): register addressing (R85); `CALL SP` is refused (D24; log 15). -/
def execCallReg (r : WReg) (s : State) : Result State :=
  if r = .sp then .refused .callSp else nearCall (getW r s) s

/-- CALL memptr16 (R95): the pointer is read before the link is pushed (R48(c)). -/
def execCallMem16 (m : MemOp) (s : State) : Result State :=
  andThen (readMem .word m s) fun (t, s1) => nearCall t s1

/-- CALL far-proc (R96): direct addressing (R82). -/
def execCallFar (off seg : Word) (s : State) : Result State := farCall seg off s

/-- CALL memptr32 (R97): the pointer is read before the link is pushed (R48(c)). -/
def execCallMem32 (m : MemOp) (s : State) : Result State :=
  andThen (readPtr32 (memSeg m s) (ea m s) s) fun (g, o, s1) => farCall g o s1

/-- BR near-label (R98). -/
def execBrNear (d : Word) (s : State) : Result State := .next (branchNear d s)

/-- BR short-label (R99). -/
def execBrShort (d : Byte) (s : State) : Result State := .next (branchShort d s)

/-- BR regptr16 (R100). -/
def execBrReg (r : WReg) (s : State) : Result State := .next (setPc (getW r s) s)

/-- BR memptr16 (R101). -/
def execBrMem16 (m : MemOp) (s : State) : Result State :=
  andThen (readMem .word m s) fun (t, s1) => .next (setPc t s1)

/-- BR far-label (R102). -/
def execBrFar (off seg : Word) (s : State) : Result State := .next (setPsPc seg off s)

/-- BR memptr32 (R103). -/
def execBrMem32 (m : MemOp) (s : State) : Result State :=
  andThen (readPtr32 (memSeg m s) (ea m s) s) fun (g, o, s1) => .next (setPsPc g o s1)

end Sys2Proof.Machine
end

