-- ==== Sys2Proof/Machine/Cond.lean ====
section
/-! DEFINITION. The conditional branches (spec/40_instruction_address.md R104). Their conditions are the table of
spec/30_encoding.md R65, which is the spec's general knowledge (D32; log 12). -/

namespace Sys2Proof.Machine

/-- BV: V = 1. -/
def execBv (d : Byte) (s : State) : Result State := .next (branchIf s.flags.v d s)

/-- BNV: V = 0. -/
def execBnv (d : Byte) (s : State) : Result State := .next (branchIf (!s.flags.v) d s)

/-- BC, BL: CY = 1. -/
def execBc (d : Byte) (s : State) : Result State := .next (branchIf s.flags.cy d s)

/-- BNC, BNL: CY = 0. -/
def execBnc (d : Byte) (s : State) : Result State := .next (branchIf (!s.flags.cy) d s)

/-- BE, BZ: Z = 1. -/
def execBe (d : Byte) (s : State) : Result State := .next (branchIf s.flags.z d s)

/-- BNE, BNZ: Z = 0. -/
def execBne (d : Byte) (s : State) : Result State := .next (branchIf (!s.flags.z) d s)

/-- BNH: CY = 1 or Z = 1. -/
def execBnh (d : Byte) (s : State) : Result State := .next (branchIf (s.flags.cy || s.flags.z) d s)

/-- BH: CY = 0 and Z = 0. -/
def execBh (d : Byte) (s : State) : Result State := .next (branchIf (!s.flags.cy && !s.flags.z) d s)

/-- BN: S = 1. -/
def execBn (d : Byte) (s : State) : Result State := .next (branchIf s.flags.s d s)

/-- BP: S = 0. -/
def execBp (d : Byte) (s : State) : Result State := .next (branchIf (!s.flags.s) d s)

/-- BPE: P = 1. -/
def execBpe (d : Byte) (s : State) : Result State := .next (branchIf s.flags.p d s)

/-- BPO: P = 0. -/
def execBpo (d : Byte) (s : State) : Result State := .next (branchIf (!s.flags.p) d s)

/-- BLT: S xor V = 1. -/
def execBlt (d : Byte) (s : State) : Result State := .next (branchIf (s.flags.s ^^ s.flags.v) d s)

/-- BGE: S xor V = 0. -/
def execBge (d : Byte) (s : State) : Result State := .next (branchIf (!(s.flags.s ^^ s.flags.v)) d s)

/-- BLE: (S xor V) = 1 or Z = 1. -/
def execBle (d : Byte) (s : State) : Result State := .next (branchIf ((s.flags.s ^^ s.flags.v) || s.flags.z) d s)

/-- BGT: (S xor V) = 0 and Z = 0. -/
def execBgt (d : Byte) (s : State) : Result State := .next (branchIf (!(s.flags.s ^^ s.flags.v) && !s.flags.z) d s)

/-- `CW <- CW - 1`, which the E0 to E2 members do before they test it (R104). -/
def decCw (s : State) : State := setW .cw (getW .cw s - 1) s

/-- DBNZNE: CW decremented; taken when CW is not 0 and Z = 0. -/
def execDbnzne (d : Byte) (s : State) : Result State :=
  .next (branchIf (getW .cw (decCw s) != 0 && !s.flags.z) d (decCw s))

/-- DBNZE: CW decremented; taken when CW is not 0 and Z = 1. -/
def execDbnze (d : Byte) (s : State) : Result State :=
  .next (branchIf (getW .cw (decCw s) != 0 && s.flags.z) d (decCw s))

/-- DBNZ: CW decremented; taken when CW is not 0. -/
def execDbnz (d : Byte) (s : State) : Result State := .next (branchIf (getW .cw (decCw s) != 0) d (decCw s))

/-- BCWZ: taken when CW = 0. -/
def execBcwz (d : Byte) (s : State) : Result State := .next (branchIf (getW .cw s == 0) d s)

end Sys2Proof.Machine
end

