-- ==== Sys2Proof/Machine/Move.lean ====
section
/-! DEFINITION. MOV and MUL (spec/41_operand_register_immediate_direct.md R119 to R123). What they do with their operands is
the spec's general knowledge (D32; log 28). -/

namespace Sys2Proof.Machine

/-- MOV reg, reg' (R119). -/
def execMovRegReg (p : RegPair) (s : State) : Result State :=
  match p with
  | .byte dst src => .next (setB dst (getB src s) s)
  | .word dst src => .next (setW dst (getW src s) s)

/-- MOV reg, imm (R120): the immediate "is to be handled as it is". -/
def execMovRegImm (p : RegImm) (s : State) : Result State :=
  match p with
  | .byte r v => .next (setB r v s)
  | .word r v => .next (setW r v s)

/-- MUL reg16, reg16', imm16 (R121): a signed product, its low 16 bits kept. -/
def execMul (dst src : WReg) (imm : Word) (s : State) : Result State :=
  .next (setFlags (mulFlags ((getW src s).toInt * imm.toInt) s)
    (setW dst (BitVec.ofInt 16 ((getW src s).toInt * imm.toInt)) s))

/-- MOV mem, imm (R122). -/
def execMovMemImm (m : MemOp) (imm : Imm) (s : State) : Result State :=
  writeAt imm.width (memSeg m s) (ea m s) imm.val s

/-- MOV acc, dmem (R123): direct addressing in DS0 (R116, R117). -/
def execMovAccDmem (w : Width) (addr : Word) (s : State) : Result State :=
  andThen (readMem w (.direct addr) s) fun (v, s1) => .next (setAcc w v s1)

end Sys2Proof.Machine
end

