-- ==== Sys2Proof/Machine/Dispatch.lean ====
section
/-! DEFINITION. One arm per constructor of Instr, each a direct call of its meaning. -/

namespace Sys2Proof.Machine

/-- What an instruction does to a state whose PC holds the starting address of the next instruction (spec/10_state.md R16,
spec/40_instruction_address.md R84; log 25). -/
def exec (i : Instr) (s : State) : Host.Outcome State Fault Refusal :=
  match i with
  | .callNear d => Sys2Proof.Machine.execCallNear d s
  | .callReg r => Sys2Proof.Machine.execCallReg r s
  | .callMem16 m => Sys2Proof.Machine.execCallMem16 m s
  | .callFar off seg => Sys2Proof.Machine.execCallFar off seg s
  | .callMem32 m => Sys2Proof.Machine.execCallMem32 m s
  | .brNear d => Sys2Proof.Machine.execBrNear d s
  | .brShort d => Sys2Proof.Machine.execBrShort d s
  | .brReg r => Sys2Proof.Machine.execBrReg r s
  | .brMem16 m => Sys2Proof.Machine.execBrMem16 m s
  | .brFar off seg => Sys2Proof.Machine.execBrFar off seg s
  | .brMem32 m => Sys2Proof.Machine.execBrMem32 m s
  | .bv d => Sys2Proof.Machine.execBv d s
  | .bnv d => Sys2Proof.Machine.execBnv d s
  | .bc d => Sys2Proof.Machine.execBc d s
  | .bnc d => Sys2Proof.Machine.execBnc d s
  | .be d => Sys2Proof.Machine.execBe d s
  | .bne d => Sys2Proof.Machine.execBne d s
  | .bnh d => Sys2Proof.Machine.execBnh d s
  | .bh d => Sys2Proof.Machine.execBh d s
  | .bn d => Sys2Proof.Machine.execBn d s
  | .bp d => Sys2Proof.Machine.execBp d s
  | .bpe d => Sys2Proof.Machine.execBpe d s
  | .bpo d => Sys2Proof.Machine.execBpo d s
  | .blt d => Sys2Proof.Machine.execBlt d s
  | .bge d => Sys2Proof.Machine.execBge d s
  | .ble d => Sys2Proof.Machine.execBle d s
  | .bgt d => Sys2Proof.Machine.execBgt d s
  | .dbnzne d => Sys2Proof.Machine.execDbnzne d s
  | .dbnze d => Sys2Proof.Machine.execDbnze d s
  | .dbnz d => Sys2Proof.Machine.execDbnz d s
  | .bcwz d => Sys2Proof.Machine.execBcwz d s
  | .movRegReg p => Sys2Proof.Machine.execMovRegReg p s
  | .movRegImm p => Sys2Proof.Machine.execMovRegImm p s
  | .mul dst src imm => Sys2Proof.Machine.execMul dst src imm s
  | .movMemImm m imm => Sys2Proof.Machine.execMovMemImm m imm s
  | .movAccDmem w addr => Sys2Proof.Machine.execMovAccDmem w addr s
  | .subMemReg m r => Sys2Proof.Machine.execSubMemReg m r s
  | .testMemImm m imm => Sys2Proof.Machine.execTestMemImm m imm s
  | .shlMem w m => Sys2Proof.Machine.execShlMem w m s
  | .pushMem m => Sys2Proof.Machine.execPushMem m s
  | .movbk w => Sys2Proof.Machine.execMovbk w s
  | .cmpbk w => Sys2Proof.Machine.execCmpbk w s
  | .stm w => Sys2Proof.Machine.execStm w s
  | .ldm w => Sys2Proof.Machine.execLdm w s
  | .cmpm w => Sys2Proof.Machine.execCmpm w s
  | .test1Cl o => Sys2Proof.Machine.execTest1Cl o s
  | .test1Imm o n => Sys2Proof.Machine.execTest1Imm o n s
  | .clr1Cl o => Sys2Proof.Machine.execClr1Cl o s
  | .clr1Imm o n => Sys2Proof.Machine.execClr1Imm o n s
  | .set1Cl o => Sys2Proof.Machine.execSet1Cl o s
  | .set1Imm o n => Sys2Proof.Machine.execSet1Imm o n s
  | .not1Cl o => Sys2Proof.Machine.execNot1Cl o s
  | .not1Imm o n => Sys2Proof.Machine.execNot1Imm o n s
  | .btclr sfr n d => Sys2Proof.Machine.execBtclr sfr n d s

end Sys2Proof.Machine
end

