-- ==== Sys2Proof/Machine/Step.lean ====
section
/-! DEFINITION. One step: fetch at PS:PC, decode, move PC past the instruction, execute (spec/10_state.md R16,
spec/20_memory.md R47). -/

namespace Sys2Proof.Machine

/-- The instruction executes after its `n` bytes have been fetched. -/
def executeFetched (n : Nat) (i : Instr) (s : State) : Host.Outcome State Fault Refusal :=
  exec i (advance n (noteFetch n s.pc s))

/-- One step of the machine (spec/60_exceptions.md R170). Bytes that the decoder needs and that nothing has written fault. -/
def step (s : State) : Host.Outcome State Fault Refusal :=
  match decode (fetchBytes s) with
  | .ok i rest => executeFetched ((fetchBytes s).length - rest.length) i s
  | .refused r => .refused (refusalOf r)
  | .truncated => .fault .unwritten

/-- The state with the instruction of an opcode-table row stored where the next fetch reads: in memory at PS:PC upward, up to
the longest instruction's length, with the special function register area out of the way (log 24). -/
def State.withFetchWord (s : State) (nbits w : Nat) : State :=
  { s with mem := layBytes s s.pc (tableWordBytes nbits w) s.mem, idb := clearFetchIdb s }

end Sys2Proof.Machine
end

