-- ==== Sys2Proof/Machine/Asm.lean ====
section
/-! DEFINITION. What the assembler does with the text of an operand, as far as it fixes an instruction's bytes
(spec/30_encoding.md R68 to R71; log 29). The processor keeps no state about any of it (spec/10_state.md R24). -/

namespace Sys2Proof.Machine

/-- The attribute of a variable, or what `WORD PTR` and `DWORD PTR` say (R70). -/
inductive Attr
  | byte | word | dword
  deriving DecidableEq, Repr

/-- A memory operand as it is written: a variable's offset if there is one, the registers in the brackets, every constant
in the brackets (R69). -/
structure AsmMem where
  var : Option Word
  base : Option BaseReg
  index : Option IndexReg
  consts : List Word
  deriving DecidableEq, Repr

/-- The encoded displacement: the variable's 16-bit address plus every constant, modulo 2^16 (R69). -/
def asmDisp (t : AsmMem) : Word := t.consts.foldl (· + ·) (t.var.getD 0)

/-- A two-byte displacement, or one byte where the value fits and `short` asks for it: the assembler's choice (R69). -/
def asmSize (short : Bool) (d : Word) : Disp :=
  if short && decide (sext16 (loByte d) = d) then .byte (loByte d) else .word d

/-- The memory operand of the text; the registers select `mem` (R69). A bracketed register with neither a variable nor a
constant is register indirect addressing, but for BP, which has no displacement-free code (R55). DESIGN CHOICE (log 29): R69 does
not say which code the assembler picks where the displacement is zero. A based index text without a variable or a constant gets a
zero displacement, although R55 and R155 have a displacement-free code for it, and so does any text whose variable and constants
add up to 0000H. Either code addresses the same operand. -/
def asmOperand (short : Bool) (t : AsmMem) : MemOp :=
  match t.base, t.index with
  | none, none => .direct (asmDisp t)
  | none, some i =>
    if t.var = none ∧ t.consts = [] then .indirect (match i with | .ix => .ix | .iy => .iy)
    else .index i (asmSize short (asmDisp t))
  | some b, none =>
    if b = .bw ∧ t.var = none ∧ t.consts = [] then .indirect .bw else .based b (asmSize short (asmDisp t))
  | some b, some i => .basedIndex b i (some (asmSize short (asmDisp t)))

/-- "When WORD PTR is described, memptr16 opcode is generated by the assembler. When DWORD PTR is described, memptr32 opcode
is generated by the assembler." (R70) A byte attribute selects no CALL form. -/
def asmCall (a : Attr) (m : MemOp) : Option Instr :=
  match a with
  | .byte => none
  | .word => some (.callMem16 m)
  | .dword => some (.callMem32 m)

def asmBr (a : Attr) (m : MemOp) : Option Instr :=
  match a with
  | .byte => none
  | .word => some (.brMem16 m)
  | .dword => some (.brMem32 m)

/-- The size of a data operand (R70, spec/42_memory_operand_modes.md R136). -/
def asmWidth : Attr → Option Width
  | .byte => some .byte
  | .word => some .word
  | .dword => none

/-- The displacement the assembler computes for a label: `label - pc_next` (R71). -/
def asmNear (label pcNext : Word) : Word := label - pcNext

/-- The same in one byte, where it fits (R71, R84). -/
def asmShort (label pcNext : Word) : Option Byte :=
  if sext16 (loByte (label - pcNext)) = label - pcNext then some (loByte (label - pcNext)) else none

/-- The special function register that the assembler symbol EXIC names, as a 20-bit address (U19; log 27). -/
def exicAddr (s : State) : Nat := sfrAddr s.idb Config.exicOffset

/-- BTCLR EXIC, n, label, as the source's damaged example is read (spec/90_conflicts.md C8). -/
def asmBtclrExic (n d : Byte) : Instr := .btclr Config.exicOffset n d

end Sys2Proof.Machine
end

