-- ==== Sys2Proof/Safety.lean ====
section
/-! DEFINITION. What counts as a safe run, and the premises a claim is stated with, each a named predicate (spec/70_reset_and_hazards.md
R181, R182, R184; spec/60_exceptions.md R170, R172; log 34). A claim about one `exec` or one `step` is about one instruction, so no
interrupt comes into it; a claim about a run names the events of the run and carries `NoInterruptTaken`. -/

namespace Sys2Proof.Machine

/-! ## Runs -/

/-- What can happen next on hardware: the instruction at PC is executed, or an interrupt is taken, after which the program is at
a state the spec says nothing of (R172). The model itself takes no interrupt; the constructor is there for the premise to
exclude (logs 22, 34). -/
inductive Event
  | instruction
  | interrupt (after : State)
  deriving DecidableEq, Repr

/-- The events one after the other, to the first fault or refusal. -/
def runEvents : List Event → State → Host.Outcome State Fault Refusal
  | [], s => .next s
  | .instruction :: es, s => andThen (step s) (runEvents es)
  | .interrupt t :: es, _ => runEvents es t

/-- The step answers a next state: neither the fault nor a refusal (R170). -/
def StepSafe (s : State) : Prop := ∃ t, step s = .next t

/-- The run of the events from `s` goes through and ends in `t`. -/
def RunsTo (es : List Event) (s t : State) : Prop := runEvents es s = .next t

/-! ## Code -/

/-- The address of the `k`-th byte that the next fetch reads (spec/20_memory.md R47). -/
def fetchAddr (s : State) (k : Nat) : Nat := phys s.segs.ps (s.pc + BitVec.ofNat 16 k)

/-- The entries that fetching the next `n` bytes adds to the special function register history, newest first (R42, D29; log 11). -/
def fetchReads (n : Nat) (s : State) : List SfrEvent :=
  ((List.range n).filter fun k => inSfr s.idb (fetchAddr s k)).reverse.map fun k => .read (fetchAddr s k)

/-- The `k`-th byte that the next fetch reads: memory's, or in the special function register area the oracle's answer after the
reads of the bytes before it. -/
def fetchedByte (s : State) (k : Nat) : Option Byte :=
  if inSfr s.idb (fetchAddr s k) then some (Config.sfrRead s.tick (fetchReads k s ++ s.sfrLog) (fetchAddr s k))
  else memGet s.mem (fetchAddr s k)

/-- The bytes at PS:PC upward are `bs` (R47). -/
def CodeAt (s : State) (bs : List Byte) : Prop := ∀ k, (h : k < bs.length) → fetchedByte s k = some bs[k]

/-- The next `n` bytes that the fetch reads are in memory, none in the special function register area. -/
def CodeInMemory (n : Nat) (s : State) : Prop := ∀ k < n, inSfr s.idb (fetchAddr s k) = false

/-- The next `n` bytes that the fetch reads are declared code (R47; log 9). -/
def CodeDeclared (n : Nat) (s : State) : Prop := ∀ k < n, inCode s (fetchAddr s k) = true

/-- The end of a run: PC stands on `EB FE`, a branch to itself (R184; log 33). The hardware does not stop there. -/
def EndOfRun (s : State) : Prop := CodeAt s [0xEB, 0xFE]

/-- A run that ends: some number of instructions leads to a state at the end of a run (R184). DESIGN CHOICE (log 33): any arrival
at `EB FE` counts, not the first alone, so a state after further turns of the loop is one too, and so is, where the two bytes were
fetched from the special function register area and a later fetch there reads others, one reached after passing `EB FE`. -/
def EndsAt (s t : State) : Prop := (∃ n, RunsTo (List.replicate n .instruction) s t) ∧ EndOfRun t

/-! ## The launch premises of a claim (R182) -/

/-- The premise `no_fault_recorded`: no event of the run faults or is refused. -/
def NoFaultRecorded (es : List Event) (s : State) : Prop := ∃ t, RunsTo es s t

/-- No fault and no refusal in the first `n` instructions. -/
def RunSafe (n : Nat) (s : State) : Prop := NoFaultRecorded (List.replicate n .instruction) s

/-- The premise `no_interrupt_taken`: every event of the run is the execution of an instruction (R172, D18; log 22). -/
def NoInterruptTaken (es : List Event) : Prop := ∀ e ∈ es, e = .instruction

/-- No store from `s` to `t` has gone to an address that `s` declares to be code. -/
def CodeUntouched (s t : State) : Prop :=
  (∀ a, inCode s a = true → memGet t.mem a = memGet s.mem a) ∧
  ∃ log, t.sfrLog = log ++ s.sfrLog ∧ ∀ a v, .write a v ∈ log → inCode s a = false

/-- The premise `code_region_immutable`: every instruction of the run is fetched from declared bytes, and no store of the run
targets a declared byte (R47, D20; log 9). -/
def CodeRegionImmutable (es : List Event) (s : State) : Prop :=
  ∀ k t, RunsTo (es.take k) s t → CodeUntouched s t ∧
    (k < es.length → ∀ i rest, decode (fetchBytes t) = .ok i rest → CodeDeclared (instrLength i) t)

/-- The premise `sfr_oracle`: what the claim assumes of the oracle (spec/20_memory.md R42; log 10). -/
def SfrOracle (assumed : (Nat → List SfrEvent → Nat → Byte) → Prop) : Prop := assumed Config.sfrRead

/-- A register, or a part of one, with its value: what a claim's launch names (R181, R182). -/
inductive LaunchValue
  | word (r : WReg) (v : Word)
  | byte (r : BReg) (v : Byte)
  | segment (r : SReg) (v : Word)
  | pc (v : Word)
  | dir (v : Bool)
  | idb (v : Byte)
  | flag (f : FlagName) (v : Bool)
  deriving DecidableEq, Repr

/-- The flag of that name. -/
def flagValue (f : FlagName) (g : Flags) : Bool :=
  match f with
  | .cy => g.cy
  | .p => g.p
  | .ac => g.ac
  | .z => g.z
  | .s => g.s
  | .v => g.v

/-- The register holds the value. -/
def LaunchValue.Holds (e : LaunchValue) (s : State) : Prop :=
  match e with
  | .word r v => getW r s = v
  | .byte r v => getB r s = v
  | .segment r v => getS r s = v
  | .pc v => s.pc = v
  | .dir v => s.dir = v
  | .idb v => s.idb = v
  | .flag f v => flagValue f s.flags = v

/-- The premise `registers_written`: the registers that hold a value at launch, with their values (R182, D22). In this model
every register holds some value (log 2), so the premise is what a claim knows of them. -/
def RegistersWritten (launch : List LaunchValue) (s : State) : Prop := ∀ e ∈ launch, e.Holds s

/-- The five launch premises of a claim about the events `es` from the launch state `s` (R182). -/
structure LaunchPremises (assumed : (Nat → List SfrEvent → Nat → Byte) → Prop) (launch : List LaunchValue) (es : List Event)
    (s : State) : Prop where
  noFaultRecorded : NoFaultRecorded es s
  noInterruptTaken : NoInterruptTaken es
  codeRegionImmutable : CodeRegionImmutable es s
  sfrOracle : SfrOracle assumed
  registersWritten : RegistersWritten launch s

/-- What was last written to the special function register at `a`, if anything was. -/
def lastWritten (a : Nat) : List SfrEvent → Option Byte
  | [] => none
  | .read _ :: log => lastWritten a log
  | .write b v :: log => if b = a then some v else lastWritten a log

/-- A premise of the kind `sfr_oracle`: the special function register at `a` is plain storage, a read answers what was last
written there (spec/20_memory.md R42; log 10). -/
def SfrPlainStorage (a : Nat) : Prop :=
  SfrOracle fun sfrRead => ∀ tick log v, lastWritten a log = some v → sfrRead tick log a = v

/-- The optional premise `pc_no_wrap`: the next `n` bytes stay below the top of the segment (D2). -/
def PcNoWrap (n : Nat) (s : State) : Prop := s.pc.toNat + n ≤ 0xFFFF

/-! ## Operands that can be read and written -/

/-- A byte or word at `seg:off` can be read: it does not pass offset FFFFH (spec/20_memory.md R38) and every byte of it has
been written or is a special function register (R170). -/
def CanRead (w : Width) (seg off : Word) (s : State) : Prop :=
  (w = .word → off ≠ 0xFFFF) ∧ ∀ a ∈ addrsOf w seg off, inSfr s.idb a = true ∨ memGet s.mem a ≠ none

/-- A double word pointer at `seg:off` can be read (spec/40_instruction_address.md R91). -/
def CanRead32 (seg off : Word) (s : State) : Prop :=
  off.toNat ≤ 0xFFFC ∧ CanRead .word seg off s ∧ CanRead .word seg (off + 2) s

/-- A byte or word at `seg:off` can be written: it does not pass offset FFFFH (R38) and no byte of it is declared code (R47). -/
def CanWrite (w : Width) (seg off : Word) (s : State) : Prop :=
  (w = .word → off ≠ 0xFFFF) ∧ ∀ a ∈ addrsOf w seg off, inCode s a = false

/-- No byte of the operand is a special function register: it is plain memory (spec/20_memory.md R41). -/
def PlainAt (w : Width) (seg off : Word) (s : State) : Prop := ∀ a ∈ addrsOf w seg off, inSfr s.idb a = false

end Sys2Proof.Machine
end

