-- ==== Sys2Proof/Certificates/Slice0/Obligations.lean ====
section
/-! DEFINITION. The statements for the provers. The first part says in the spec's own terms what a statement needs to say of a
store, of a register write, of a comparison's flags; the model's operations are not used for it where the spec's words are
enough. In every statement about `exec`, PC holds the starting address of the next instruction when the instruction executes
(spec/10_state.md R16; log 25); `StepExecutesInstructionAtPc` ties that to the step. A statement about `exec` or `step` is about
one instruction; a statement about a run carries the premise `NoInterruptTaken` (spec/60_exceptions.md R172; log 34). -/

namespace Sys2Proof.Claims

open Sys2Proof Sys2Proof.Machine

/-! ## The spec's words -/

/-- `v[8k+7:8k]`, the k-th byte of a value (spec/20_memory.md R35). -/
def byteOf {n : Nat} (v : BitVec n) (k : Nat) : Byte := (v >>> (8 * k)).setWidth 8

/-- The address of the k-th byte of an operand at `seg:off` (R35). -/
def byteAddr (seg off : Word) (k : Nat) : Nat := phys seg (off + BitVec.ofNat 16 k)

/-- The entries that reading an operand adds to the special function register history, newest first (R42; log 10). -/
def sfrReads (w : Width) (seg off : Word) (s : State) : List SfrEvent :=
  ((List.range w.bytes).filter fun k => inSfr s.idb (byteAddr seg off k)).reverse.map fun k => .read (byteAddr seg off k)

/-- The entries that storing an operand adds. -/
def sfrWrites (w : Width) (seg off : Word) (v : BitVec w.bits) (s : State) : List SfrEvent :=
  ((List.range w.bytes).filter fun k => inSfr s.idb (byteAddr seg off k)).reverse.map fun k =>
    .write (byteAddr seg off k) (byteOf v k)

/-- The state after an operand has been read: only the history can differ. -/
def afterReading (w : Width) (seg off : Word) (s : State) : State :=
  { s with sfrLog := sfrReads w seg off s ++ s.sfrLog }

/-- `t` is `s` with `v` stored at `seg:off`: each byte of the operand outside the special function register area holds its
byte of `v`, low byte first (R34, R35); the bytes inside the area went to the oracle and left memory alone (R42); every other
byte of memory reads as before, and nothing else of the state differs. -/
def Stores (w : Width) (seg off : Word) (v : BitVec w.bits) (s t : State) : Prop :=
  t = { s with mem := t.mem, sfrLog := t.sfrLog } ∧
  (∀ a, a ∉ addrsOf w seg off → memGet t.mem a = memGet s.mem a) ∧
  (∀ k, k < w.bytes → memGet t.mem (byteAddr seg off k) =
    if inSfr s.idb (byteAddr seg off k) then memGet s.mem (byteAddr seg off k) else some (byteOf v k)) ∧
  t.sfrLog = sfrWrites w seg off v s ++ s.sfrLog

/-- `t` is `s` with `v` in the register `r`: every other register of its size reads as before, a byte register's word keeps
its other half (spec/10_state.md R12), no other word register differs, and nothing else of the state does. -/
def WritesReg : (r : Reg) → BitVec r.width.bits → State → State → Prop
  | .word d, v, s, t => getW d t = v ∧ (∀ q, q ≠ d → getW q t = getW q s) ∧ t = { s with regs := t.regs }
  | .byte d, v, s, t => getB d t = v ∧ (∀ q, q ≠ d → getB q t = getB q s) ∧
      (∀ q, q ≠ bregWord d → getW q t = getW q s) ∧ t = { s with regs := t.regs }

/-- `acc`: AL or AW (spec/41_operand_register_immediate_direct.md R112). -/
def accReg : Width → Reg
  | .byte => .byte .al
  | .word => .word .aw

/-- The number of ones among bits 7..0 is even (spec/42_memory_operand_modes.md R138). -/
def EvenOnes {n : Nat} (v : BitVec n) : Prop := ((List.range 8).filter fun k => v.getLsbD k).length % 2 = 0

/-- The flags of `a - b` as R138 words them (general knowledge, log 12). -/
def SubtractionFlags {n : Nat} (a b : BitVec n) (f : Flags) : Prop :=
  (f.cy = true ↔ a.toNat < b.toNat) ∧
  (f.v = true ↔ a.toInt - b.toInt < -(2 ^ (n - 1)) ∨ 2 ^ (n - 1) ≤ a.toInt - b.toInt) ∧
  (f.z = true ↔ a = b) ∧
  (f.s = true ↔ (a - b).getLsbD (n - 1) = true) ∧
  (f.p = true ↔ EvenOnes (a - b)) ∧
  (f.ac = true ↔ a.toNat % 16 < b.toNat % 16)

/-- What automatic increment/decrement leaves in a block register: moved by one for a byte, by two for a word, up if DIR = 0
and down if DIR = 1, modulo 2^16 (R132; log 7). -/
def moved (w : Width) (r : WReg) (s : State) : Word :=
  let n : Word := match w with | .byte => 1 | .word => 2
  if s.dir then getW r s - n else getW r s + n

/-- The bit of an operand that a bit instruction changes takes the value `g` gives, and every other bit stays (R151). -/
def OneBitChanged {n : Nat} (b : Nat) (g : Bool → Bool) (old new : BitVec n) : Prop :=
  b < n ∧ new.getLsbD b = g (old.getLsbD b) ∧ ∀ k, k < n → k ≠ b → new.getLsbD k = old.getLsbD k

/-- The operand of a bit instruction can be read (a register always). -/
def BitReadable : BitOp → State → Prop
  | .reg _, _ => True
  | .mem w m, s => CanRead w (memSeg m s) (ea m s) s

/-- The operand of a bit instruction can be read and written. -/
def BitModifiable : BitOp → State → Prop
  | .reg _, _ => True
  | .mem w m, s => CanRead w (memSeg m s) (ea m s) s ∧ CanWrite w (memSeg m s) (ea m s) s

/-- The value of the operand of a bit instruction, a whole byte or word (R152). -/
def bitOperand : (o : BitOp) → State → BitVec o.width.bits
  | .reg r, s => getR r s
  | .mem w m, s => peek w (memSeg m s) (ea m s) s

/-- The state after the operand of a bit instruction has been read. -/
def afterBitRead : BitOp → State → State
  | .reg _, s => s
  | .mem w m, s => afterReading w (memSeg m s) (ea m s) s

/-- `t` is `s` with `v` written back to the operand of a bit instruction (R152). -/
def WritesBack : (o : BitOp) → BitVec o.width.bits → State → State → Prop
  | .reg r, v, s, t => WritesReg r v s t
  | .mem w m, v, s, t => Stores w (memSeg m s) (ea m s) v (afterReading w (memSeg m s) (ea m s) s) t

/-- One bit of the operand takes the value `g` gives and the operand is written back. -/
def ModifiesBit (o : BitOp) (b : Nat) (g : Bool → Bool) (s t : State) : Prop :=
  ∃ v, WritesBack o v s t ∧ OneBitChanged b g (bitOperand o s) v

/-- The low-order three or four bits of a bit-number byte (R150). -/
def lowBits (w : Width) (x : Byte) : Nat := x.toNat % 2 ^ (match w with | .byte => 3 | .word => 4)

/-- The bit-number byte is taken: `STRICT_BITIMM` is off, or no bit above the bit number is set (spec/30_encoding.md R60). -/
def BitImmTaken (w : Width) (n : Byte) (s : State) : Prop := s.strictBitImm = true → n.toNat < w.bits

/-- A CALL that loads PC only: the link `pc_next` is stored below SP in SS, SP drops by two, PC is the target (R92; log 14). -/
def LinksNear (target : Word) (s t : State) : Prop :=
  getW .sp t = getW .sp s - 2 ∧ (∀ q, q ≠ .sp → getW q t = getW q s) ∧ t.pc = target ∧
  Stores .word s.segs.ss (getW .sp s - 2) s.pc s { t with regs := s.regs, pc := s.pc }

/-- A CALL that loads PS and PC: the old PS, then `pc_next`, are stored below SP in SS, SP drops by four (R92; log 14). -/
def LinksFar (seg off : Word) (s t : State) : Prop :=
  getW .sp t = getW .sp s - 4 ∧ (∀ q, q ≠ .sp → getW q t = getW q s) ∧ t.pc = off ∧
  t.segs = { s.segs with ps := seg } ∧
  ∃ u, Stores .word s.segs.ss (getW .sp s - 2) s.segs.ps s u ∧
    Stores .word s.segs.ss (getW .sp s - 4) s.pc u { t with regs := s.regs, pc := s.pc, segs := s.segs }

/-- The two words below SP can be written. -/
def CanLinkFar (s : State) : Prop :=
  CanWrite .word s.segs.ss (getW .sp s - 2) s ∧ CanWrite .word s.segs.ss (getW .sp s - 4) s

/-- The sum of registers that R55's table gives for a `mem` code with a displacement (and without, but for 110). -/
def tableSum (mem : BitVec 3) (s : State) : Word :=
  match mem.toNat with
  | 0 => s.regs.bw + s.regs.ix
  | 1 => s.regs.bw + s.regs.iy
  | 2 => s.regs.bp + s.regs.ix
  | 3 => s.regs.bp + s.regs.iy
  | 4 => s.regs.ix
  | 5 => s.regs.iy
  | 6 => s.regs.bp
  | _ => s.regs.bw

/-- The segment column of R55's table, for the codes that are not direct. -/
def tableSeg (mem : BitVec 3) (s : State) : Word :=
  match mem.toNat with
  | 2 | 3 | 6 => s.segs.ss
  | _ => s.segs.ds0

/-- The one of two opcode bytes that `W` selects (R52, R64). -/
def opcodeByW (w : Width) (op0 op1 : Byte) : Byte :=
  match w with
  | .byte => op0
  | .word => op1

/-- `reg` and `reg'` of MOV reg, reg' as register operands (spec/41_operand_register_immediate_direct.md R119). -/
def pairRegs : RegPair → Reg × Reg
  | .byte dst src => (.byte dst, .byte src)
  | .word dst src => (.word dst, .word src)

/-- `reg` of MOV reg, imm as a register operand (R120). -/
def regImmReg : RegImm → Reg
  | .byte r _ => .byte r
  | .word r _ => .word r

/-- The bytes that can start an instruction of the table (R64, R65). -/
def firstBytes : List Nat :=
  [0xE8, 0xFF, 0x9A, 0xE9, 0xEB, 0xEA, 0x8A, 0x8B, 0x69, 0xC6, 0xC7, 0xA0, 0xA1, 0x28, 0x29, 0xF6, 0xF7, 0xD0, 0xD1,
    0xA4, 0xA5, 0xA6, 0xA7, 0xAA, 0xAB, 0xAC, 0xAD, 0xAE, 0xAF, 0x0F] ++
  (List.range 16).map (0x70 + ·) ++ (List.range 4).map (0xE0 + ·) ++ (List.range 16).map (0xB0 + ·)

/-- The prefix bytes (R67). -/
def prefixBytes : List Nat := [0x26, 0x2E, 0x36, 0x3E, 0xF0, 0xF2, 0xF3, 0x64, 0x65]

/-- The second bytes after 0F (R64). -/
def secondBytes : List Nat := (List.range 16).map (0x10 + ·) ++ [0x9C]

/-- The word registers an instruction's own effect may write: its destination, SP for CALL and PUSH, CW for the counting
branches, IX and IY for block operands. -/
def writtenRegs : Instr → List WReg
  | .callNear _ | .callReg _ | .callMem16 _ | .callFar _ _ | .callMem32 _ | .pushMem _ => [.sp]
  | .dbnzne _ | .dbnze _ | .dbnz _ => [.cw]
  | .movRegReg (.byte d _) => [bregWord d]
  | .movRegReg (.word d _) => [d]
  | .movRegImm (.byte d _) => [bregWord d]
  | .movRegImm (.word d _) => [d]
  | .mul d _ _ => [d]
  | .movAccDmem _ _ => [.aw]
  | .movbk _ | .cmpbk _ => [.ix, .iy]
  | .stm _ | .cmpm _ => [.iy]
  | .ldm _ => [.aw, .ix]
  | .clr1Cl (.reg (.byte d)) | .clr1Imm (.reg (.byte d)) _ | .set1Cl (.reg (.byte d)) | .set1Imm (.reg (.byte d)) _
  | .not1Cl (.reg (.byte d)) | .not1Imm (.reg (.byte d)) _ => [bregWord d]
  | .clr1Cl (.reg (.word d)) | .clr1Imm (.reg (.word d)) _ | .set1Cl (.reg (.word d)) | .set1Imm (.reg (.word d)) _
  | .not1Cl (.reg (.word d)) | .not1Imm (.reg (.word d)) _ => [d]
  | _ => []

/-- The addresses an instruction may store to in memory, computed from the state it starts in with the functions its meaning
uses. The special function register that BTCLR writes is not in memory (R42). -/
def storedAddrs : Instr → State → List Nat
  | .callNear _, s | .callReg _, s | .callMem16 _, s | .pushMem _, s => addrsOf .word s.segs.ss (getW .sp s - 2)
  | .callFar _ _, s | .callMem32 _, s =>
    addrsOf .word s.segs.ss (getW .sp s - 2) ++ addrsOf .word s.segs.ss (getW .sp s - 4)
  | .movMemImm m imm, s => memAddrs imm.width m s
  | .subMemReg m r, s => memAddrs r.width m s
  | .shlMem w m, s => memAddrs w m s
  | .movbk w, s | .stm w, s => addrsOf w s.segs.ds1 (getW .iy s)
  | .clr1Cl (.mem w m), s | .clr1Imm (.mem w m) _, s | .set1Cl (.mem w m), s | .set1Imm (.mem w m) _, s
  | .not1Cl (.mem w m), s | .not1Imm (.mem w m) _, s => memAddrs w m s
  | _, _ => []

/-- The instructions that write a flag. -/
def writesFlags : Instr → Bool
  | .mul _ _ _ | .subMemReg _ _ | .testMemImm _ _ | .shlMem _ _ | .cmpbk _ | .cmpm _ | .test1Cl _ | .test1Imm _ _ => true
  | _ => false

/-- CALL, BR, the conditional branches and BTCLR: the instructions that may replace PC. -/
def isBranch : Instr → Bool
  | .callNear _ | .callReg _ | .callMem16 _ | .callFar _ _ | .callMem32 _
  | .brNear _ | .brShort _ | .brReg _ | .brMem16 _ | .brFar _ _ | .brMem32 _
  | .bv _ | .bnv _ | .bc _ | .bnc _ | .be _ | .bne _ | .bnh _ | .bh _ | .bn _ | .bp _ | .bpe _ | .bpo _
  | .blt _ | .bge _ | .ble _ | .bgt _ | .dbnzne _ | .dbnze _ | .dbnz _ | .bcwz _ | .btclr _ _ _ => true
  | _ => false

/-- The forms that load both PS and PC. -/
def isFar : Instr → Bool
  | .callFar _ _ | .callMem32 _ | .brFar _ _ | .brMem32 _ => true
  | _ => false

/-- The address a special function register event names. -/
def eventAddr : SfrEvent → Nat
  | .read a => a
  | .write a _ => a

end Sys2Proof.Claims

section
open Sys2Proof Sys2Proof.Machine Sys2Proof.Claims

/-! ## Encoding -/

/-- Every well-formed instruction, at every value of its operands, is what the decoder reads from its bytes, whatever bytes
follow (spec/30_encoding.md R50 to R65; the numbers are general knowledge, log 16). -/
def Obligations.DecodeOfEncodeGivesInstruction : Prop :=
  ∀ (i : Instr) (rest : List Byte), i.wf = true → decode (encode i ++ rest) = .ok i rest

/-- What the decoder accepts is the encoding of a well-formed instruction and nothing else: no bit of the bytes it consumes is
dropped (spec/30_encoding.md R55 to R66; the numbers are general knowledge, log 16). -/
def Obligations.DecodedBytesAreTheEncoding : Prop :=
  ∀ (bs : List Byte) (i : Instr) (rest : List Byte), decode bs = .ok i rest → i.wf = true ∧ bs = encode i ++ rest

/-- An instruction takes the bytes R63's formula counts, one at least and six at most (general knowledge, log 16). -/
def Obligations.EncodedLengthIsTheFormula : Prop :=
  ∀ i : Instr, (encode i).length = instrLength i ∧ 1 ≤ instrLength i ∧ instrLength i ≤ maxLength

/-- Words that the spec writes out decode to the instructions they stand for: seven of the source's own examples and two derived
vectors, BE and MOVBK (spec/95_test_vectors.md sections 1, 2.2, 2.8; the bytes are general knowledge, log 16). -/
def Obligations.SourceExampleWordsDecode : Prop :=
  decode [0xFF, 0xD0] = .ok (.callReg .aw) [] ∧
  decode [0xFF, 0x1D] = .ok (.callMem32 (.indirect .iy)) [] ∧
  decode [0xFF, 0xA0, 0x02, 0x01] = .ok (.brMem16 (.basedIndex .bw .ix (some (.word 0x0102)))) [] ∧
  decode [0x8A, 0xC1] = .ok (.movRegReg (.byte .al .cl)) [] ∧
  decode [0x69, 0xC3, 0x00, 0x10] = .ok (.mul .aw .bw 0x1000) [] ∧
  decode [0x29, 0x04] = .ok (.subMemReg (.indirect .ix) (.word .aw)) [] ∧
  decode [0x0F, 0x1D, 0x46, 0x10, 0x09] = .ok (.set1Imm (.mem .word (.based .bp (.byte 0x10))) 0x09) [] ∧
  decode [0x74, 0x10] = .ok (.be 0x10) [] ∧
  decode [0xA5] = .ok (.movbk .word) []

/-- Every prefix byte is refused under its own name, by the decoder and by the step (R67; general
knowledge, logs 16, 20). -/
def Obligations.PrefixBytesRefused : Prop :=
  ∀ op : Byte, op.toNat ∈ prefixBytes →
    (∀ bs, decode (op :: bs) = .refused .prefixNotModelled) ∧
    ∀ s : State, CodeAt s [op] → step s = .refused .prefixNotModelled

/-- Bytes that match no row are refused as unknown: a first byte that starts no row and is no prefix; FF with a middle field
the table lacks; 0F with an unlisted second byte; a memory-only form written with `mod` = 11; a register-only form (8A, 8B, 69)
with another `mod`; C6, C7, F6, F7, D0, D1 and the bit instructions with a middle field other than the table's (R66; general
knowledge, log 16). -/
def Obligations.UnknownEncodingsRefused : Prop :=
  (∀ (op : Byte) (bs : List Byte), op.toNat ∉ firstBytes → op.toNat ∉ prefixBytes →
    decode (op :: bs) = .refused .unknownEncoding) ∧
  (∀ (mod : BitVec 2) (mid mem : BitVec 3) (bs : List Byte), mid.toNat < 2 ∨ mid.toNat = 7 →
    decode (0xFF :: specByte mod mid mem :: bs) = .refused .unknownEncoding) ∧
  (∀ (op : Byte) (bs : List Byte), op.toNat ∉ secondBytes → decode (0x0F :: op :: bs) = .refused .unknownEncoding) ∧
  (∀ (mid mem : BitVec 3) (bs : List Byte), mid.toNat = 3 ∨ mid.toNat = 5 ∨ mid.toNat = 6 →
    decode (0xFF :: specByte 3 mid mem :: bs) = .refused .unknownEncoding) ∧
  (∀ (op : Byte) (mid mem : BitVec 3) (bs : List Byte),
    op.toNat ∈ [0x28, 0x29, 0xC6, 0xC7, 0xD0, 0xD1, 0xF6, 0xF7] →
      decode (op :: specByte 3 mid mem :: bs) = .refused .unknownEncoding) ∧
  (∀ (op : Byte) (mod : BitVec 2) (mid mem : BitVec 3) (bs : List Byte), op.toNat ∈ [0x8A, 0x8B, 0x69] → mod.toNat ≠ 3 →
    decode (op :: specByte mod mid mem :: bs) = .refused .unknownEncoding) ∧
  (∀ (op : Byte) (mod : BitVec 2) (mid mem : BitVec 3) (bs : List Byte),
    (op.toNat ∈ [0xC6, 0xC7, 0xF6, 0xF7] ∧ mid.toNat ≠ 0) ∨ (op.toNat ∈ [0xD0, 0xD1] ∧ mid.toNat ≠ 4) →
      decode (op :: specByte mod mid mem :: bs) = .refused .unknownEncoding) ∧
  (∀ (op : Byte) (mod : BitVec 2) (mid mem : BitVec 3) (bs : List Byte), 0x10 ≤ op.toNat → op.toNat ≤ 0x1F → mid.toNat ≠ 0 →
    decode (0x0F :: op :: specByte mod mid mem :: bs) = .refused .unknownEncoding)

/-- `CALL SP` is refused under its own name: by the decoder for its bytes FF D4, and by the meaning (R94, D24;
log 15). -/
def Obligations.CallThroughSpRefused : Prop :=
  ∀ s : State, exec (.callReg .sp) s = .refused .callSp ∧ (∀ bs, decode (0xFF :: 0xD4 :: bs) = .refused .callSp) ∧
    (CodeAt s [0xFF, 0xD4] → step s = .refused .callSp)

/-- The memory specification field means what R55's table says: for every `mod` and `mem`, the decoded operand's effective
address is the table's sum and its segment the table's (R55, R33, R130; general knowledge, logs 5, 16). -/
def Obligations.MemorySpecificationTable : Prop :=
  ∀ (mid mem : BitVec 3) (d lo hi : Byte) (bs : List Byte) (s : State),
    (mem ≠ 6 → ∃ m, decodeMem (specByte 0 mid mem) bs = .ok m bs ∧ ea m s = tableSum mem s ∧
      memSeg m s = tableSeg mem s) ∧
    (∃ m, decodeMem (specByte 0 mid 6) (lo :: hi :: bs) = .ok m bs ∧ ea m s = hi ++ lo ∧ memSeg m s = s.segs.ds0) ∧
    (∃ m, decodeMem (specByte 1 mid mem) (d :: bs) = .ok m bs ∧ ea m s = tableSum mem s + d.signExtend 16 ∧
      memSeg m s = tableSeg mem s) ∧
    (∃ m, decodeMem (specByte 2 mid mem) (lo :: hi :: bs) = .ok m bs ∧ ea m s = tableSum mem s + (hi ++ lo) ∧
      memSeg m s = tableSeg mem s) ∧
    decodeMem (specByte 3 mid mem) bs = .refused .unknownEncoding

/-- Register indirect addressing: the memory specification field names IX, IY or BW and takes no displacement; the effective
address is the contents of that register, and the memory handled, read, stored to or both, is the operand's bytes from there
(R131; the codes, `mod` = 00 with `mem` = 100, 101 or 111, their place in the byte and what MOV mem, imm does are general
knowledge, logs 16, 28). -/
def Obligations.RegisterIndirectAddress : Prop :=
  ∀ (r : IndReg) (s : State),
    let m : MemOp := .indirect r
    let code : BitVec 3 := match r with | .ix => 4 | .iy => 5 | .bw => 7
    let x : Word := match r with | .ix => s.regs.ix | .iy => s.regs.iy | .bw => s.regs.bw
    (∀ (b : Byte) (bs rest : List Byte), decodeMem b bs = .ok m rest ↔ rest = bs ∧ ∃ mid, b = specByte 0 mid code) ∧
    ea m s = x ∧
    ∀ w : Width, memAddrs w m s = (List.range w.bytes).map (byteAddr (memSeg m s) x) ∧
      readMem w m s = readAt w (memSeg m s) x s ∧
      (∀ imm : Imm, imm.width = w → exec (.movMemImm m imm) s = writeAt imm.width (memSeg m s) x imm.val s) ∧
      ∀ f, modifyMem w m f s = andThen (readAt w (memSeg m s) x s) fun p =>
        andThen (writeAt w (memSeg m s) x (f p.1) p.2) fun t => .next (p.1, t)

/-- Register addressing. The field contents and W together name one of the eight word registers or one of the eight byte
registers, each by exactly one content, and a 2-bit field names one of the four segment registers likewise. For every content,
the register of the decoded instruction is the one its field names: both fields of MOV reg, reg' and of MUL, the opcode's field of
MOV reg, imm, the middle field of SUB mem, reg, the low field of the bit instructions and of BR and CALL regptr16, whose CALL SP is
refused. The operand is the register: it is read from the registers alone and written to them alone, so no memory is accessed;
`acc` is AL or AW. (The opcode bytes and the places of the fields are general knowledge, log 16; CALL SP is the model's choice,
log 15; which content names which register is not said here.) -/
def Obligations.RegisterFieldNamesTheOperand : Prop :=
  (∀ w : Width, (∀ c : BitVec 3, (regOfCode w c.toNat).width = w) ∧
    ∀ r : Reg, r.width = w → ∃! c : BitVec 3, regOfCode w c.toNat = r) ∧
  (∀ r : SReg, ∃! c : BitVec 2, sregOfCode c.toNat = r) ∧
  (∀ (c c' : BitVec 3) (lo hi n : Byte) (bs : List Byte),
    (∀ w : Width, ∃ p, decode (opcodeByW w 0x8A 0x8B :: specByte 3 c c' :: bs) = .ok (.movRegReg p) bs ∧
      pairRegs p = (regOfCode w c.toNat, regOfCode w c'.toNat)) ∧
    (∃ q, decode ((0xB0 + c.setWidth 8) :: lo :: bs) = .ok (.movRegImm q) bs ∧ regImmReg q = regOfCode .byte c.toNat) ∧
    (∃ q, decode ((0xB8 + c.setWidth 8) :: lo :: hi :: bs) = .ok (.movRegImm q) bs ∧
      regImmReg q = regOfCode .word c.toNat) ∧
    (∃ d x, decode (0x69 :: specByte 3 c c' :: lo :: hi :: bs) = .ok (.mul d x (hi ++ lo)) bs ∧
      .word d = regOfCode .word c.toNat ∧ .word x = regOfCode .word c'.toNat) ∧
    (∀ (w : Width) (mod : BitVec 2) (mem : BitVec 3) (m : MemOp) (rest : List Byte),
      decodeMem (specByte mod c mem) bs = .ok m rest →
        decode (opcodeByW w 0x28 0x29 :: specByte mod c mem :: bs) = .ok (.subMemReg m (regOfCode w c.toNat)) rest) ∧
    (∀ w : Width,
      let o : BitOp := .reg (regOfCode w c.toNat)
      let code := fun op0 op1 : Byte => 0x0F :: opcodeByW w op0 op1 :: specByte 3 0 c :: bs
      let codeImm := fun op0 op1 : Byte => 0x0F :: opcodeByW w op0 op1 :: specByte 3 0 c :: n :: bs
      decode (code 0x10 0x11) = .ok (.test1Cl o) bs ∧ decode (codeImm 0x18 0x19) = .ok (.test1Imm o n) bs ∧
      decode (code 0x12 0x13) = .ok (.clr1Cl o) bs ∧ decode (codeImm 0x1A 0x1B) = .ok (.clr1Imm o n) bs ∧
      decode (code 0x14 0x15) = .ok (.set1Cl o) bs ∧ decode (codeImm 0x1C 0x1D) = .ok (.set1Imm o n) bs ∧
      decode (code 0x16 0x17) = .ok (.not1Cl o) bs ∧ decode (codeImm 0x1E 0x1F) = .ok (.not1Imm o n) bs) ∧
    ∃ d, .word d = regOfCode .word c.toNat ∧ decode (0xFF :: specByte 3 4 c :: bs) = .ok (.brReg d) bs ∧
      decode (0xFF :: specByte 3 2 c :: bs) = if d = .sp then .refused .callSp else .ok (.callReg d) bs) ∧
  ∀ s : State,
    (∀ r : WReg, getR (.word r) s = getW r s) ∧ (∀ r : BReg, getR (.byte r) s = getB r s) ∧
    (∀ (r : Reg) (t : State), t.regs = s.regs → getR r t = getR r s) ∧
    (∀ (r : Reg) (v : BitVec r.width.bits),
      getR r (setR r v s) = v ∧ setR r v s = { s with regs := (setR r v s).regs }) ∧
    (∀ (r : SReg) (t : State), t.segs = s.segs → getS r t = getS r s) ∧
    getAcc .byte s = getB .al s ∧ getAcc .word s = getW .aw s

/-! ## The step -/

/-- When the bytes at PS:PC are those of a well-formed instruction, the step is that instruction's effect on the state with PC
at the next instruction, the step counted, and the instruction's fetches from the special function register area, if there are
any, in the history; nothing else of the state has changed when it executes (R16, R47, R42, D29; logs 11, 25). -/
def Obligations.StepExecutesInstructionAtPc : Prop :=
  ∀ (s : State) (i : Instr), i.wf = true → CodeAt s (encode i) →
    let n := (encode i).length
    step s = exec i { s with
      pc := s.pc + BitVec.ofNat 16 n, tick := s.tick + 1, sfrLog := fetchReads n s ++ s.sfrLog }

/-- When the bytes at PS:PC, `bs`, are the beginning of an instruction that needs another byte, and nothing has written that byte
and it is in no special function register area, the step faults; with `bs` empty the byte is the one at PS:PC (R170; log 1; a fetch
from the area is the oracle's, log 11). -/
def Obligations.StepFaultsWhereNothingIsWritten : Prop :=
  ∀ (s : State) (bs : List Byte), CodeAt s bs → decode bs = .truncated →
    inSfr s.idb (fetchAddr s bs.length) = false → memGet s.mem (fetchAddr s bs.length) = none →
    step s = .fault .unwritten

/-! ## Memory -/

/-- A word in plain memory reads with its high byte at the higher offset, and the read changes nothing; a byte reads as it
stands (R34, R35; log 6). -/
def Obligations.MemoryReadsLittleEndian : Prop :=
  ∀ (seg off : Word) (lo hi : Byte) (s : State),
    (PlainAt .byte seg off s → memGet s.mem (phys seg off) = some lo → readAt .byte seg off s = .next (lo, s)) ∧
    (PlainAt .word seg off s → off ≠ 0xFFFF → memGet s.mem (phys seg off) = some lo →
      memGet s.mem (phys seg (off + 1)) = some hi → readAt .word seg off s = .next (hi ++ lo, s))

/-- In plain memory a read of an operand just written answers what was written (R34, R35, R45). -/
def Obligations.ReadAfterWriteGivesTheValue : Prop :=
  ∀ (w : Width) (seg off : Word) (v : BitVec w.bits) (s : State), CanWrite w seg off s → PlainAt w seg off s →
    ∃ t, writeAt w seg off v s = .next t ∧ readAt w seg off t = .next (v, t)

/-- A write of an operand stores its bytes and changes nothing else (R35, R42). -/
def Obligations.WriteStoresTheOperand : Prop :=
  ∀ (w : Width) (seg off : Word) (v : BitVec w.bits) (s : State), CanWrite w seg off s →
    ∃ t, writeAt w seg off v s = .next t ∧ Stores w seg off v s t

/-- A byte read or written at an address in the special function register area, whatever segment and offset form it, is the
oracle's: the byte read is its answer to the history so far, both are entered in the history, memory is as before. The register
with offset `sfr` is at IDB * 2^12 + F00H + sfr, and the addresses of the area are exactly those of its offsets (R41, R42, R157,
D16, D29; logs 10, 21). -/
def Obligations.SfrWindowBelongsToTheOracle : Prop :=
  (∀ (seg off : Word) (v : Byte) (s : State), inSfr s.idb (phys seg off) = true →
    readAt .byte seg off s = .next (Config.sfrRead s.tick s.sfrLog (phys seg off),
      { s with sfrLog := .read (phys seg off) :: s.sfrLog }) ∧
    (inCode s (phys seg off) = false → writeAt .byte seg off v s = .next
      { s with sfrLog := .write (phys seg off) v :: s.sfrLog })) ∧
  ∀ idb : Byte, (∀ sfr : Byte, sfrAddr idb sfr = idb.toNat * 0x1000 + 0xF00 + sfr.toNat) ∧
    ∀ a : Nat, inSfr idb a = true ↔ ∃ sfr : Byte, a = sfrAddr idb sfr

/-- The special function register area lies between addresses xxF00H and xxFFFH, where xx, the eight bits of the IDB register, are
the two digits above F00H; address generation reads IDB and no instruction writes it (R19). -/
def Obligations.SfrAreaLiesWhereIdbSays : Prop :=
  (∀ (idb : Byte) (a : Nat), inSfr idb a = true ↔ a / 0x1000 = idb.toNat ∧ 0xF00 ≤ a % 0x1000 ∧ a % 0x1000 ≤ 0xFFF) ∧
  ∀ (i : Instr) (s t : State), exec i s = .next t → t.idb = s.idb

/-- An access whose later bytes pass offset FFFFH is refused in every form that makes it, once the accesses before it have gone
through: a word memory operand, a block operand, a pushed word at FFFFH, a double word pointer at FFFDH to FFFFH; the second
accesses are the push of PUSH and of CALL through memory, the destination of MOVBK and CMPBK, the second push of a far CALL
(R38, R141, R142, D8; logs 8, 14, 28). -/
def Obligations.AccessPastSegmentEndRefused : Prop :=
  ∀ s : State,
    (∀ m, ea m s = 0xFFFF → ∀ (imm : Word) (r : WReg) (n : Byte), BitImmTaken .word n s →
      ∀ i ∈ ([.callMem16 m, .brMem16 m, .pushMem m, .movMemImm m (.word imm), .subMemReg m (.word r),
        .testMemImm m (.word imm), .shlMem .word m, .test1Cl (.mem .word m), .clr1Cl (.mem .word m), .set1Cl (.mem .word m),
        .not1Cl (.mem .word m), .test1Imm (.mem .word m) n, .clr1Imm (.mem .word m) n, .set1Imm (.mem .word m) n,
        .not1Imm (.mem .word m) n, .movAccDmem .word 0xFFFF] : List Instr),
        exec i s = .refused .offsetWrapInAccess) ∧
    (∀ m, 0xFFFD ≤ (ea m s).toNat →
      exec (.callMem32 m) s = .refused .offsetWrapInAccess ∧ exec (.brMem32 m) s = .refused .offsetWrapInAccess) ∧
    (getW .ix s = 0xFFFF → ∀ i ∈ ([.movbk .word, .ldm .word, .cmpbk .word] : List Instr),
      exec i s = .refused .offsetWrapInAccess) ∧
    (getW .iy s = 0xFFFF → (∀ i ∈ ([.stm .word, .cmpm .word] : List Instr), exec i s = .refused .offsetWrapInAccess) ∧
      (CanRead .word s.segs.ds0 s.regs.ix s → ∀ i ∈ ([.movbk .word, .cmpbk .word] : List Instr),
        exec i s = .refused .offsetWrapInAccess)) ∧
    (getW .sp s = 0x0001 →
      (∀ (d seg off : Word) (r : WReg), r ≠ .sp →
        ∀ i ∈ ([.callNear d, .callReg r, .callFar off seg] : List Instr), exec i s = .refused .offsetWrapInAccess) ∧
      ∀ m, (CanRead .word (memSeg m s) (ea m s) s →
          exec (.pushMem m) s = .refused .offsetWrapInAccess ∧ exec (.callMem16 m) s = .refused .offsetWrapInAccess) ∧
        (CanRead32 (memSeg m s) (ea m s) s → exec (.callMem32 m) s = .refused .offsetWrapInAccess)) ∧
    (getW .sp s = 0x0003 → CanWrite .word s.segs.ss 0x0001 s →
      (∀ off seg : Word, exec (.callFar off seg) s = .refused .offsetWrapInAccess) ∧
      ∀ m, CanRead32 (memSeg m s) (ea m s) s → exec (.callMem32 m) s = .refused .offsetWrapInAccess)

/-- Reading an operand with a byte that nothing has written and that is no special function register faults, in every form that
reads memory: SUB, TEST, SHL, PUSH, the bit instructions with CL and with an immediate bit number, CALL and BR through a word or
a double word, MOV acc, dmem, LDM, MOVBK, CMPBK (either operand) and CMPM (R170; logs 1, 28). -/
def Obligations.UnwrittenOperandFaults : Prop :=
  ∀ (w : Width) (s : State),
    (∀ m : MemOp, (w = .word → ea m s ≠ 0xFFFF) → ¬ CanRead w (memSeg m s) (ea m s) s →
      (∀ r : Reg, r.width = w → exec (.subMemReg m r) s = .fault .unwritten) ∧
      (∀ imm : Imm, imm.width = w → exec (.testMemImm m imm) s = .fault .unwritten) ∧
      (∀ i ∈ ([.shlMem w m, .test1Cl (.mem w m), .clr1Cl (.mem w m), .set1Cl (.mem w m), .not1Cl (.mem w m)] : List Instr),
        exec i s = .fault .unwritten) ∧
      (∀ n : Byte, BitImmTaken w n s →
        ∀ i ∈ ([.test1Imm (.mem w m) n, .clr1Imm (.mem w m) n, .set1Imm (.mem w m) n, .not1Imm (.mem w m) n] : List Instr),
          exec i s = .fault .unwritten) ∧
      (w = .word → ∀ i ∈ ([.callMem16 m, .brMem16 m, .pushMem m] : List Instr), exec i s = .fault .unwritten)) ∧
    (∀ m : MemOp, (ea m s).toNat ≤ 0xFFFC → ¬ CanRead32 (memSeg m s) (ea m s) s →
      exec (.callMem32 m) s = .fault .unwritten ∧ exec (.brMem32 m) s = .fault .unwritten) ∧
    (∀ a : Word, (w = .word → a ≠ 0xFFFF) → ¬ CanRead w s.segs.ds0 a s → exec (.movAccDmem w a) s = .fault .unwritten) ∧
    ((w = .word → s.regs.ix ≠ 0xFFFF) → ¬ CanRead w s.segs.ds0 s.regs.ix s →
      ∀ i ∈ ([.ldm w, .movbk w, .cmpbk w] : List Instr), exec i s = .fault .unwritten) ∧
    ((w = .word → s.regs.iy ≠ 0xFFFF) → ¬ CanRead w s.segs.ds1 s.regs.iy s →
      exec (.cmpm w) s = .fault .unwritten ∧
      (CanRead w s.segs.ds0 s.regs.ix s → exec (.cmpbk w) s = .fault .unwritten))

/-- A store with a byte in the declared code region is refused, in every form that stores, once the accesses before it have gone
through: MOV, SUB, SHL, CLR1, SET1 and NOT1 with CL and with an immediate bit number, STM, MOVBK, PUSH, the links of the five CALL
forms, and BTCLR, which stores only if the bit is 1 (R47, D20; logs 9, 14, 21, 28). -/
def Obligations.StoreIntoCodeRefused : Prop :=
  ∀ (s : State) (a : Nat), inCode s a = true →
    (∀ (m : MemOp) (w : Width), (w = .word → ea m s ≠ 0xFFFF) → a ∈ memAddrs w m s →
      (∀ imm : Imm, imm.width = w → exec (.movMemImm m imm) s = .refused .storeIntoCode) ∧
      (CanRead w (memSeg m s) (ea m s) s →
        (∀ r : Reg, r.width = w → exec (.subMemReg m r) s = .refused .storeIntoCode) ∧
        (∀ i ∈ ([.shlMem w m, .clr1Cl (.mem w m), .set1Cl (.mem w m), .not1Cl (.mem w m)] : List Instr),
          exec i s = .refused .storeIntoCode) ∧
        ∀ n : Byte, BitImmTaken w n s →
          ∀ i ∈ ([.clr1Imm (.mem w m) n, .set1Imm (.mem w m) n, .not1Imm (.mem w m) n] : List Instr),
            exec i s = .refused .storeIntoCode)) ∧
    (∀ w : Width, (w = .word → s.regs.iy ≠ 0xFFFF) → a ∈ addrsOf w s.segs.ds1 s.regs.iy →
      exec (.stm w) s = .refused .storeIntoCode ∧
      (CanRead w s.segs.ds0 s.regs.ix s → exec (.movbk w) s = .refused .storeIntoCode)) ∧
    (getW .sp s ≠ 0x0001 → a ∈ addrsOf .word s.segs.ss (getW .sp s - 2) →
      (∀ (d seg off : Word) (r : WReg), r ≠ .sp →
        ∀ i ∈ ([.callNear d, .callReg r, .callFar off seg] : List Instr), exec i s = .refused .storeIntoCode) ∧
      ∀ m, (CanRead .word (memSeg m s) (ea m s) s →
          exec (.pushMem m) s = .refused .storeIntoCode ∧ exec (.callMem16 m) s = .refused .storeIntoCode) ∧
        (CanRead32 (memSeg m s) (ea m s) s → exec (.callMem32 m) s = .refused .storeIntoCode)) ∧
    (getW .sp s ≠ 0x0001 → getW .sp s ≠ 0x0003 → a ∈ addrsOf .word s.segs.ss (getW .sp s - 4) →
      (∀ off seg : Word, exec (.callFar off seg) s = .refused .storeIntoCode) ∧
      ∀ m, CanRead32 (memSeg m s) (ea m s) s → exec (.callMem32 m) s = .refused .storeIntoCode) ∧
    ∀ sfr n d : Byte, BitImmTaken .byte n s → a = s.idb.toNat * 0x1000 + 0xF00 + sfr.toNat →
      exec (.btclr sfr n d) s =
        if (Config.sfrRead s.tick s.sfrLog a).getLsbD (n.toNat % 8) then .refused .storeIntoCode
        else .next { s with sfrLog := .read a :: s.sfrLog }

/-- Every step keeps memory in its canonical form: addresses strictly rising, inside the 2^20 of R32, no entry that an unlisted
address would read as (the form is the model's, DESIGN CHOICE, log 1; the width of addresses is D4, log 4). -/
def Obligations.StepKeepsMemoryCanonical : Prop :=
  ∀ s t : State, MemWf s.mem → step s = .next t → MemWf t.mem

/-- Memory has its canonical form right after reset (the form is the model's, log 1). -/
def Obligations.ResetMemoryCanonical : Prop := MemWf State.reset.mem

/-! ## CALL and BR -/

/-- The BR forms that read no memory: near-label and short-label set PC to `pc_next` plus the displacement, a one-byte one
sign-extended; regptr16 loads PC with any of the eight word registers; far-label loads PC and PS with the four bytes; nothing else
changes (R82, R84, R85, R98, R99, R100, R102; the wrap is D2, log 7, which half is which is D7, log 6, the sizes are D12,
log 26). -/
def Obligations.BranchTargetsWithoutMemory : Prop :=
  ∀ s : State, (∀ d : Word, exec (.brNear d) s = .next { s with pc := s.pc + d }) ∧
    (∀ d : Byte, exec (.brShort d) s = .next { s with pc := s.pc + d.signExtend 16 }) ∧
    (∀ r : WReg, exec (.brReg r) s = .next { s with pc := getW r s }) ∧
    ∀ off seg : Word, exec (.brFar off seg) s = .next { s with pc := off, segs := { s.segs with ps := seg } }

/-- BR memptr16 loads PC with the word the pointer operand addresses; BR memptr32 loads PC with the double word's low word and
PS with its high word; nothing else changes but the history of special function register reads (R90, R91, R101, R103; the
halves are D7, log 6). -/
def Obligations.PointerBranchTargets : Prop :=
  ∀ (m : MemOp) (s : State),
    (CanRead .word (memSeg m s) (ea m s) s → exec (.brMem16 m) s = .next
      { afterReading .word (memSeg m s) (ea m s) s with pc := peek .word (memSeg m s) (ea m s) s }) ∧
    (CanRead32 (memSeg m s) (ea m s) s → exec (.brMem32 m) s = .next
      { afterReading .word (memSeg m s) (ea m s + 2) (afterReading .word (memSeg m s) (ea m s) s) with
        pc := peek .word (memSeg m s) (ea m s) s
        segs := { s.segs with
          ps := peek .word (memSeg m s) (ea m s + 2) (afterReading .word (memSeg m s) (ea m s) s) } })

/-- CALL near-proc and CALL regptr16 (every register but SP) branch to their target and push the link `pc_next`
(R84, R85, R93, R94; the link is general knowledge, D21, log 14). -/
def Obligations.NearCallsLinkAndBranch : Prop :=
  ∀ s : State, CanWrite .word s.segs.ss (getW .sp s - 2) s →
    (∀ d : Word, ∃ t, exec (.callNear d) s = .next t ∧ LinksNear (s.pc + d) s t) ∧
    (∀ r : WReg, r ≠ .sp → ∃ t, exec (.callReg r) s = .next t ∧ LinksNear (getW r s) s t)

/-- CALL memptr16 reads its pointer, then pushes the link, then branches there (R90, R95, R48(c); log 14). -/
def Obligations.PointerCallLinksAndBranches : Prop :=
  ∀ (m : MemOp) (s : State), CanRead .word (memSeg m s) (ea m s) s → CanWrite .word s.segs.ss (getW .sp s - 2) s →
    ∃ t, exec (.callMem16 m) s = .next t ∧
      LinksNear (peek .word (memSeg m s) (ea m s) s) (afterReading .word (memSeg m s) (ea m s) s) t

/-- CALL far-proc pushes PS, then `pc_next`, and loads PC and PS with its four bytes (R82, R96; log 14). -/
def Obligations.FarCallLinksAndBranches : Prop :=
  ∀ (off seg : Word) (s : State), CanLinkFar s → ∃ t, exec (.callFar off seg) s = .next t ∧ LinksFar seg off s t

/-- CALL memptr32 reads its double word, then pushes PS and `pc_next`, then loads PC and PS (R91, R97, R48(c); log 14). -/
def Obligations.FarPointerCallLinksAndBranches : Prop :=
  ∀ (m : MemOp) (s : State), CanRead32 (memSeg m s) (ea m s) s → CanLinkFar s →
    ∃ t, exec (.callMem32 m) s = .next t ∧
      LinksFar (peek .word (memSeg m s) (ea m s + 2) (afterReading .word (memSeg m s) (ea m s) s))
        (peek .word (memSeg m s) (ea m s) s)
        (afterReading .word (memSeg m s) (ea m s + 2) (afterReading .word (memSeg m s) (ea m s) s)) t

/-- After a CALL that loads PC only, in each of its three forms, with its stack word in plain memory, the word at SS:SP is
`pc_next` and reads so (R92; log 14). -/
def Obligations.LinkReadsBackFromStack : Prop :=
  ∀ (d : Word) (r : WReg) (m : MemOp) (s t : State), PlainAt .word s.segs.ss (getW .sp s - 2) s →
    ∀ i ∈ ([.callNear d, .callReg r, .callMem16 m] : List Instr), exec i s = .next t →
      readAt .word t.segs.ss (getW .sp t) t = .next (s.pc, t)

/-! ## Conditional branches -/

/-- The conditional branches: the sixteen on flags and the four on CW are taken exactly under the condition of R65's table, to
`pc_next` plus the sign-extended displacement. DBNZNE, DBNZE and DBNZ decrement CW and then test it, BCWZ tests CW. Taken or not,
only PC can change, and CW where it is decremented (R65, R104; the conditions are general knowledge, log 12). -/
def Obligations.ConditionalBranchesFollowTheTable : Prop :=
  ∀ (d : Byte) (s : State),
    let branch := fun (c : Prop) [Decidable c] => (.next { s with pc := if c then s.pc + d.signExtend 16 else s.pc } : Result State)
    let f := s.flags
    let n := s.regs.cw - 1
    let countAndBranch := fun (c : Prop) [Decidable c] => (.next { s with
      regs := { s.regs with cw := n }, pc := if c then s.pc + d.signExtend 16 else s.pc } : Result State)
    exec (.bv d) s = branch (f.v = true) ∧ exec (.bnv d) s = branch (f.v = false) ∧
    exec (.bc d) s = branch (f.cy = true) ∧ exec (.bnc d) s = branch (f.cy = false) ∧
    exec (.be d) s = branch (f.z = true) ∧ exec (.bne d) s = branch (f.z = false) ∧
    exec (.bnh d) s = branch (f.cy = true ∨ f.z = true) ∧ exec (.bh d) s = branch (f.cy = false ∧ f.z = false) ∧
    exec (.bn d) s = branch (f.s = true) ∧ exec (.bp d) s = branch (f.s = false) ∧
    exec (.bpe d) s = branch (f.p = true) ∧ exec (.bpo d) s = branch (f.p = false) ∧
    exec (.blt d) s = branch (f.s ≠ f.v) ∧ exec (.bge d) s = branch (f.s = f.v) ∧
    exec (.ble d) s = branch (f.s ≠ f.v ∨ f.z = true) ∧ exec (.bgt d) s = branch (f.s = f.v ∧ f.z = false) ∧
    exec (.dbnzne d) s = countAndBranch (n ≠ 0 ∧ f.z = false) ∧ exec (.dbnze d) s = countAndBranch (n ≠ 0 ∧ f.z = true) ∧
    exec (.dbnz d) s = countAndBranch (n ≠ 0) ∧ exec (.bcwz d) s = branch (s.regs.cw = 0)

/-! ## MOV and MUL -/

/-- MOV reg, reg': the first register gets the second's value, for both sizes; a byte move leaves the other half of the word
(R119, R12; general knowledge, logs 19, 28). -/
def Obligations.MoveRegisterToRegister : Prop :=
  ∀ s : State,
    (∀ d x : WReg, ∃ t, exec (.movRegReg (.word d x)) s = .next t ∧ WritesReg (.word d) (getW x s) s t) ∧
    (∀ d x : BReg, ∃ t, exec (.movRegReg (.byte d x)) s = .next t ∧ WritesReg (.byte d) (getB x s) s t)

/-- MOV reg, imm: the register gets the immediate as it is (R3, R113, R120; log 28). -/
def Obligations.MoveImmediateToRegister : Prop :=
  ∀ s : State,
    (∀ (d : WReg) (v : Word), ∃ t, exec (.movRegImm (.word d v)) s = .next t ∧ WritesReg (.word d) v s t) ∧
    (∀ (d : BReg) (v : Byte), ∃ t, exec (.movRegImm (.byte d v)) s = .next t ∧ WritesReg (.byte d) v s t)

/-- MUL: the low 16 bits of the signed product go to the first register; CY and V are both 1 when the product is not a signed
16-bit number and both 0 otherwise; the other flags are whatever they are (R121; general knowledge, logs 12, 13, 28). -/
def Obligations.MultiplyKeepsLowWord : Prop :=
  ∀ (d x : WReg) (imm : Word) (s : State),
    let p := (getW x s).toInt * imm.toInt
    ∃ t, exec (.mul d x imm) s = .next t ∧ WritesReg (.word d) (BitVec.ofInt 16 p) s { t with flags := s.flags } ∧
      (if -32768 ≤ p ∧ p ≤ 32767 then (getW d t).toInt = p ∧ t.flags.cy = false ∧ t.flags.v = false
        else t.flags.cy = true ∧ t.flags.v = true)

/-- MOV mem, imm stores the immediate at the operand and changes nothing else (R122; log 28). -/
def Obligations.MoveImmediateToMemory : Prop :=
  ∀ (m : MemOp) (imm : Imm) (s : State), CanWrite imm.width (memSeg m s) (ea m s) s →
    ∃ t, exec (.movMemImm m imm) s = .next t ∧ Stores imm.width (memSeg m s) (ea m s) imm.val s t

/-- MOV acc, dmem: AL or AW gets the byte or word at DS0 and the direct address (R112, R117, R123; log 28). -/
def Obligations.LoadAccumulatorDirect : Prop :=
  ∀ (a : Word) (s : State),
    (CanRead .byte s.segs.ds0 a s → ∃ t, exec (.movAccDmem .byte a) s = .next t ∧
      WritesReg (.byte .al) (peek .byte s.segs.ds0 a s) (afterReading .byte s.segs.ds0 a s) t) ∧
    (CanRead .word s.segs.ds0 a s → ∃ t, exec (.movAccDmem .word a) s = .next t ∧
      WritesReg (.word .aw) (peek .word s.segs.ds0 a s) (afterReading .word s.segs.ds0 a s) t)

/-! ## SUB, TEST, SHL, PUSH -/

/-- SUB mem, reg: the operand becomes operand minus register, the flags are those of the subtraction, nothing else changes
(R138; general knowledge, logs 12, 28). -/
def Obligations.SubtractFromMemory : Prop :=
  ∀ (m : MemOp) (r : Reg) (s : State), CanRead r.width (memSeg m s) (ea m s) s → CanWrite r.width (memSeg m s) (ea m s) s →
    let v := peek r.width (memSeg m s) (ea m s) s
    ∃ t, exec (.subMemReg m r) s = .next t ∧ SubtractionFlags v (getR r s) t.flags ∧
      Stores r.width (memSeg m s) (ea m s) (v - getR r s) (afterReading r.width (memSeg m s) (ea m s) s)
        { t with flags := s.flags }

/-- TEST mem, imm: CY and V are 0, Z, S and P are those of the AND, AC is whatever it is; nothing is written but the flags
(R139; general knowledge, logs 12, 13, 28). -/
def Obligations.TestMemoryWithImmediate : Prop :=
  ∀ (m : MemOp) (imm : Imm) (s : State), CanRead imm.width (memSeg m s) (ea m s) s →
    let r := peek imm.width (memSeg m s) (ea m s) s &&& imm.val
    ∃ t, exec (.testMemImm m imm) s = .next t ∧
      t = { afterReading imm.width (memSeg m s) (ea m s) s with flags := t.flags } ∧
      t.flags.cy = false ∧ t.flags.v = false ∧ (t.flags.z = true ↔ r = 0) ∧
      (t.flags.s = true ↔ r.getLsbD (imm.width.bits - 1) = true) ∧ (t.flags.p = true ↔ EvenOnes r)

/-- SHL mem, 1: the operand is doubled modulo its size, CY is its old top bit, V whether the top bit changed, Z, S and P are
those of the result, AC is whatever it is; nothing else changes (R140; general knowledge, logs 12, 13, 28). -/
def Obligations.ShiftMemoryLeft : Prop :=
  ∀ (m : MemOp) (w : Width) (s : State), CanRead w (memSeg m s) (ea m s) s → CanWrite w (memSeg m s) (ea m s) s →
    let v := peek w (memSeg m s) (ea m s) s
    ∃ (r : BitVec w.bits) (t : State), r.toNat = v.toNat * 2 % 2 ^ w.bits ∧ exec (.shlMem w m) s = .next t ∧
      Stores w (memSeg m s) (ea m s) r (afterReading w (memSeg m s) (ea m s) s) { t with flags := s.flags } ∧
      t.flags.cy = v.getLsbD (w.bits - 1) ∧ (t.flags.v = true ↔ r.getLsbD (w.bits - 1) ≠ t.flags.cy) ∧
      (t.flags.z = true ↔ r = 0) ∧ t.flags.s = r.getLsbD (w.bits - 1) ∧ (t.flags.p = true ↔ EvenOnes r)

/-- PUSH mem16: the operand is read, SP drops by two, the word is stored at SS:SP; nothing else changes (R141; general
knowledge, log 28). -/
def Obligations.PushMemoryWord : Prop :=
  ∀ (m : MemOp) (s : State), CanRead .word (memSeg m s) (ea m s) s → CanWrite .word s.segs.ss (getW .sp s - 2) s →
    ∃ t, exec (.pushMem m) s = .next t ∧ getW .sp t = getW .sp s - 2 ∧ (∀ q, q ≠ .sp → getW q t = getW q s) ∧
      Stores .word s.segs.ss (getW .sp s - 2) (peek .word (memSeg m s) (ea m s) s)
        (afterReading .word (memSeg m s) (ea m s) s) { t with regs := s.regs }

/-! ## Block instructions -/

/-- MOVBK copies one element from DS0:IX to DS1:IY and moves both registers (R132, R142; general knowledge, logs 5, 20,
28). -/
def Obligations.MoveBlockElement : Prop :=
  ∀ (w : Width) (s : State), CanRead w s.segs.ds0 s.regs.ix s → CanWrite w s.segs.ds1 s.regs.iy s →
    ∃ t, exec (.movbk w) s = .next t ∧ getW .ix t = moved w .ix s ∧ getW .iy t = moved w .iy s ∧
      (∀ q, q ≠ .ix → q ≠ .iy → getW q t = getW q s) ∧
      Stores w s.segs.ds1 s.regs.iy (peek w s.segs.ds0 s.regs.ix s) (afterReading w s.segs.ds0 s.regs.ix s)
        { t with regs := s.regs }

/-- LDM loads AL or AW from DS0:IX and moves IX; STM stores AL or AW at DS1:IY and moves IY (R132, R143,
R144; general knowledge, logs 5, 20, 28). -/
def Obligations.LoadAndStoreBlockElement : Prop :=
  ∀ (w : Width) (s : State),
    (CanRead w s.segs.ds0 s.regs.ix s → ∃ t u, exec (.ldm w) s = .next t ∧
      u = { t with regs := { t.regs with ix := s.regs.ix } } ∧ t.regs.ix = moved w .ix s ∧
      getAcc w t = peek w s.segs.ds0 s.regs.ix s ∧ (w = .byte → getB .ah t = getB .ah s) ∧
      (∀ q, q ≠ .aw → getW q u = getW q s) ∧ u = { afterReading w s.segs.ds0 s.regs.ix s with regs := u.regs }) ∧
    (CanWrite w s.segs.ds1 s.regs.iy s → ∃ t, exec (.stm w) s = .next t ∧ getW .iy t = moved w .iy s ∧
      (∀ q, q ≠ .iy → getW q t = getW q s) ∧
      Stores w s.segs.ds1 s.regs.iy (getAcc w s) s { t with regs := s.regs })

/-- CMPBK leaves the flags of source minus destination and moves both registers; CMPM leaves the flags of AL or AW minus
destination and moves IY; nothing else is written (R132, R145, R146; general knowledge, logs 5, 12, 20, 28). -/
def Obligations.CompareBlockElements : Prop :=
  ∀ (w : Width) (s : State),
    (CanRead w s.segs.ds0 s.regs.ix s → CanRead w s.segs.ds1 s.regs.iy s → ∃ t, exec (.cmpbk w) s = .next t ∧
      SubtractionFlags (peek w s.segs.ds0 s.regs.ix s)
        (peek w s.segs.ds1 s.regs.iy (afterReading w s.segs.ds0 s.regs.ix s)) t.flags ∧
      getW .ix t = moved w .ix s ∧ getW .iy t = moved w .iy s ∧ (∀ q, q ≠ .ix → q ≠ .iy → getW q t = getW q s) ∧
      t = { afterReading w s.segs.ds1 s.regs.iy (afterReading w s.segs.ds0 s.regs.ix s) with
        regs := t.regs, flags := t.flags }) ∧
    (CanRead w s.segs.ds1 s.regs.iy s → ∃ t, exec (.cmpm w) s = .next t ∧
      SubtractionFlags (getAcc w s) (peek w s.segs.ds1 s.regs.iy s) t.flags ∧
      getW .iy t = moved w .iy s ∧ (∀ q, q ≠ .iy → getW q t = getW q s) ∧
      t = { afterReading w s.segs.ds1 s.regs.iy s with regs := t.regs, flags := t.flags })

/-- DIR alone says which way a block register moves, up if it is 0 and down if it is 1, for every block instruction that
executes, by one for a byte and two for a word, modulo 2^16, and no instruction changes DIR (R17, R132; the wrap is D15, log 7;
that the five block mnemonics are the users of DIR is general knowledge, logs 20, 28). -/
def Obligations.DirectionFlagSelectsIncrementOrDecrement : Prop :=
  (∀ (w : Width) (s t : State),
    (exec (.movbk w) s = .next t ∨ exec (.cmpbk w) s = .next t ∨ exec (.ldm w) s = .next t →
      t.regs.ix = if s.dir = false then s.regs.ix + BitVec.ofNat 16 w.bytes else s.regs.ix - BitVec.ofNat 16 w.bytes) ∧
    (exec (.movbk w) s = .next t ∨ exec (.cmpbk w) s = .next t ∨ exec (.stm w) s = .next t ∨ exec (.cmpm w) s = .next t →
      t.regs.iy = if s.dir = false then s.regs.iy + BitVec.ofNat 16 w.bytes else s.regs.iy - BitVec.ofNat 16 w.bytes)) ∧
  ∀ (i : Instr) (s t : State), exec i s = .next t → t.dir = s.dir

/-! ## Bit instructions and BTCLR -/

/-- SET1, CLR1 and NOT1 set, clear and invert one bit of the operand and TEST1 reads one, whatever the other bits are, which
stay as they were; register and memory operands of both sizes, bit number from CL or from the instruction (R150, R151, R152;
bit b is the bit of weight 2^b, log 18; a bit-number byte is masked, log 17; the flags TEST1 leaves are general knowledge and
free values, logs 12, 13). Which flags TEST1 leaves is said in `BitTestFlags`; here they depend on no other bit of the operand. -/
def Obligations.BitInstructionsTouchOneBit : Prop :=
  ∀ (o : BitOp) (s : State),
    (BitModifiable o s →
      let b := lowBits o.width (getB .cl s)
      (∃ t, exec (.set1Cl o) s = .next t ∧ ModifiesBit o b (fun _ => true) s t) ∧
      (∃ t, exec (.clr1Cl o) s = .next t ∧ ModifiesBit o b (fun _ => false) s t) ∧
      (∃ t, exec (.not1Cl o) s = .next t ∧ ModifiesBit o b (fun x => !x) s t)) ∧
    (∀ n : Byte, BitModifiable o s → BitImmTaken o.width n s →
      let b := lowBits o.width n
      (∃ t, exec (.set1Imm o n) s = .next t ∧ ModifiesBit o b (fun _ => true) s t) ∧
      (∃ t, exec (.clr1Imm o n) s = .next t ∧ ModifiesBit o b (fun _ => false) s t) ∧
      (∃ t, exec (.not1Imm o n) s = .next t ∧ ModifiesBit o b (fun x => !x) s t)) ∧
    (BitReadable o s →
      (∃ t, exec (.test1Cl o) s = .next t ∧ t = { afterBitRead o s with flags := t.flags } ∧
        t.flags = test1Flags ((bitOperand o s).getLsbD (lowBits o.width (getB .cl s))) s) ∧
      ∀ n : Byte, BitImmTaken o.width n s → ∃ t, exec (.test1Imm o n) s = .next t ∧
        t = { afterBitRead o s with flags := t.flags } ∧
        t.flags = test1Flags ((bitOperand o s).getLsbD (lowBits o.width n)) s)

/-- TEST1 leaves Z = 1 when the bit is 0 and Z = 0 when it is 1, CY = 0, V = 0; AC, P and S are whatever they are (R153;
general knowledge, logs 12, 13). -/
def Obligations.BitTestFlags : Prop :=
  ∀ (o : BitOp) (s : State), BitReadable o s →
    (∃ t, exec (.test1Cl o) s = .next t ∧ (t.flags.z = true ↔
      (bitOperand o s).getLsbD (lowBits o.width (getB .cl s)) = false) ∧ t.flags.cy = false ∧ t.flags.v = false) ∧
    ∀ n : Byte, BitImmTaken o.width n s → ∃ t, exec (.test1Imm o n) s = .next t ∧ (t.flags.z = true ↔
      (bitOperand o s).getLsbD (lowBits o.width n) = false) ∧ t.flags.cy = false ∧ t.flags.v = false

/-- NOT1 executed twice restores its operand, in a register or in plain memory, and every register and byte is then as before:
with an immediate bit number, and with CL for every operand but CL and CW, in which the first NOT1 may change the bit number itself
(R154; the numbering of bits is D13, log 18). -/
def Obligations.InvertingTwiceRestores : Prop :=
  ∀ (o : BitOp) (i : Instr) (s t u : State),
    (∃ n, i = .not1Imm o n) ∨ (i = .not1Cl o ∧ o ≠ .reg (.byte .cl) ∧ o ≠ .reg (.word .cw)) →
    exec i s = .next t → exec i t = .next u → (∀ w m, o = .mem w m → PlainAt w (memSeg m s) (ea m s) s) →
    u.regs = s.regs ∧ ∀ a, memGet u.mem a = memGet s.mem a

/-- Under `STRICT_BITIMM` every form with a bit-number byte refuses a byte with a bit set above the bit number (R60, D14;
log 17). -/
def Obligations.StrictBitNumberRefused : Prop :=
  ∀ (o : BitOp) (n : Byte) (s : State), s.strictBitImm = true →
    (o.width.bits ≤ n.toNat → ∀ i ∈ ([.test1Imm o n, .clr1Imm o n, .set1Imm o n, .not1Imm o n] : List Instr),
      exec i s = .refused .strictBitImm) ∧
    (8 ≤ n.toNat → ∀ sfr d : Byte, exec (.btclr sfr n d) s = .refused .strictBitImm)

/-- BTCLR reads the special function register; if the bit is 1 it writes the byte back with the bit cleared and branches,
otherwise it writes nothing and goes on; nothing else changes (R157, R158; general knowledge, log 21). -/
def Obligations.BitTestClearAndBranch : Prop :=
  ∀ (sfr n d : Byte) (s : State), BitImmTaken .byte n s → inCode s (sfrAddr s.idb sfr) = false →
    let a := s.idb.toNat * 0x1000 + 0xF00 + sfr.toNat
    let v := Config.sfrRead s.tick s.sfrLog a
    let b := n.toNat % 8
    exec (.btclr sfr n d) s = .next (
      if v.getLsbD b then
        { s with pc := s.pc + d.signExtend 16, sfrLog := .write a (v &&& ~~~(1#8 <<< b)) :: .read a :: s.sfrLog }
      else { s with sfrLog := .read a :: s.sfrLog })

/-! ## What no instruction does, and what each may change -/

/-- Right after reset: the family's PC, PS, SS, DS0, DS1, DIR and IDB, the registers and flags the log names, no byte of memory
written, no special function register accessed, nothing declared (R23, R180; PRESUMED log 3, DESIGN CHOICE log 2). -/
def Obligations.ResetStateValues : Prop :=
  let s := State.reset
  s.pc = 0x0000 ∧ s.segs = { ps := 0xFFFF, ss := 0, ds0 := 0, ds1 := 0 } ∧ s.dir = false ∧ s.idb = 0xFF ∧
  (∀ r, getW r s = 0) ∧ (∀ a, memGet s.mem a = none) ∧ s.sfrLog = [] ∧ s.codeRegion = [] ∧
  s.flags = { cy := false, p := false, ac := false, z := false, s := false, v := false } ∧ s.strictBitImm = false ∧
  phys s.segs.ps s.pc = 0xFFFF0

/-- An instruction that is no branch leaves PC at the next instruction; PS is written by the far forms of CALL and BR and by
nothing else, and no instruction writes SS, DS0 or DS1 (R16, R80, R21; DEDUCED log 25). -/
def Obligations.OnlyBranchesReplacePcAndFarFormsPs : Prop :=
  ∀ (i : Instr) (s t : State), exec i s = .next t →
    (isBranch i = false → t.pc = s.pc) ∧ (isFar i = false → t.segs = s.segs) ∧
    t.segs = { s.segs with ps := t.segs.ps }

/-- Only MUL, SUB, TEST, SHL, CMPBK, CMPM and TEST1 write a flag (G12; log 12). -/
def Obligations.OtherInstructionsKeepFlags : Prop :=
  ∀ (i : Instr) (s t : State), exec i s = .next t → writesFlags i = false → t.flags = s.flags

/-- An instruction leaves every word register but those its own effect writes (R10, R12; which those are is general knowledge,
logs 14, 28). -/
def Obligations.OtherRegistersUnchanged : Prop :=
  ∀ (i : Instr) (s t : State) (r : WReg), exec i s = .next t → r ∉ writtenRegs i → getW r t = getW r s

/-- An instruction leaves every byte of memory but those it stores to; a form that stores nothing leaves all of memory (R35,
R48; logs 14, 28). -/
def Obligations.OtherBytesUnchanged : Prop :=
  ∀ (i : Instr) (s t : State) (a : Nat), exec i s = .next t → a ∉ storedAddrs i s → memGet t.mem a = memGet s.mem a

/-- A step only adds to the special function register history, and only accesses to the area (R42; log 10). -/
def Obligations.SfrHistoryOnlyGrows : Prop :=
  ∀ s t : State, step s = .next t →
    ∃ es, t.sfrLog = es ++ s.sfrLog ∧ ∀ e ∈ es, inSfr s.idb (eventAddr e) = true

/-- However long a run in which no interrupt is taken, the declared code region stays as declared, no byte of it changes and no
store to it reaches the special function registers: of the premise `code_region_immutable` this half holds of every run (R47,
R172, R182; logs 9, 22, 34). -/
def Obligations.CodeRegionNeverChanges : Prop :=
  ∀ (es : List Event) (s t : State), NoInterruptTaken es → RunsTo es s t → t.codeRegion = s.codeRegion ∧ CodeUntouched s t

/-- However long a run in which no interrupt is taken, DIR, IDB, SS, DS0, DS1 and what the launch declared are what they were, so
the special function register area and the data segments stay where they are (R17, R19, R105(e), R172, N32; log 22); every step
is counted (the count is the model's own, log 10). -/
def Obligations.RunKeepsDirIdbAndDataSegments : Prop :=
  ∀ (es : List Event) (s t : State), NoInterruptTaken es → RunsTo es s t →
    t.dir = s.dir ∧ t.idb = s.idb ∧ t.segs.ss = s.segs.ss ∧ t.segs.ds0 = s.segs.ds0 ∧ t.segs.ds1 = s.segs.ds1 ∧
    t.codeRegion = s.codeRegion ∧ t.strictBitImm = s.strictBitImm ∧ t.tick = s.tick + es.length

/-- At the end of a run, `EB FE` at PC, the step counts itself, enters its fetches from the special function register area, if
there are any, and changes nothing else; with its two bytes in memory the machine is there for as long as no interrupt is taken
(R99, R172, R184; logs 11, 22, 33). -/
def Obligations.EndOfRunIsASelfBranch : Prop :=
  ∀ s : State, EndOfRun s →
    step s = .next { s with tick := s.tick + 1, sfrLog := fetchReads 2 s ++ s.sfrLog } ∧
    (CodeInMemory 2 s → ∀ es, NoInterruptTaken es →
      RunsTo es s { s with tick := s.tick + es.length } ∧ EndOfRun { s with tick := s.tick + es.length })

/-! ## The assembler -/

/-- Attributes select the opcode. A word attribute, or WORD PTR, selects memptr16 for CALL and BR, a double word attribute, or
DWORD PTR, memptr32; a byte attribute selects a byte operand and a word attribute a word operand of a data instruction. What the
processor reads from the bytes generated is the form and the size selected, with nothing else to tell it (R70). -/
def Obligations.AttributesSelectTheOpcode : Prop :=
  ∀ (m : MemOp) (rest : List Byte),
    asmCall .word m = some (.callMem16 m) ∧ asmCall .dword m = some (.callMem32 m) ∧
    asmBr .word m = some (.brMem16 m) ∧ asmBr .dword m = some (.brMem32 m) ∧
    asmWidth .byte = some .byte ∧ asmWidth .word = some .word ∧
    (∀ (a : Attr) (i : Instr), asmCall a m = some i ∨ asmBr a m = some i → decode (encode i ++ rest) = .ok i rest) ∧
    ∀ (a : Attr) (w : Width), asmWidth a = some w → (∀ s, (memAddrs w m s).length = w.bytes) ∧
      (∀ r : Reg, r.width = w → decode (encode (.subMemReg m r) ++ rest) = .ok (.subMemReg m r) rest) ∧
      (∀ imm : Imm, imm.width = w → ∀ i ∈ ([.movMemImm m imm, .testMemImm m imm] : List Instr),
        decode (encode i ++ rest) = .ok i rest) ∧
      ∀ n : Byte, ∀ i ∈ ([.shlMem w m, .test1Cl (.mem w m), .clr1Cl (.mem w m), .set1Cl (.mem w m), .not1Cl (.mem w m),
          .test1Imm (.mem w m) n, .clr1Imm (.mem w m) n, .set1Imm (.mem w m) n, .not1Imm (.mem w m) n] : List Instr),
        decode (encode i ++ rest) = .ok i rest

/-- The operand of an assembler text addresses the sum of the variable's offset, every bracketed constant and the registers in
the brackets, modulo 2^16, whichever displacement size the assembler picks (R69, D30; log 29). -/
def Obligations.AssembledOperandAddressesTheSum : Prop :=
  ∀ (short : Bool) (x : AsmMem) (s : State), ea (asmOperand short x) s =
    (match x.base with | none => 0 | some .bp => s.regs.bp | some .bw => s.regs.bw) +
    (match x.index with | none => 0 | some .ix => s.regs.ix | some .iy => s.regs.iy) + x.var.getD 0 + x.consts.sum

/-- The displacement the assembler computes for a label takes the branch to the label, in two bytes always and in one byte
exactly when the distance is from -128 to 127 (R71, R84; log 29). -/
def Obligations.LabelDisplacementReachesTheLabel : Prop :=
  ∀ (label : Word) (s : State), exec (.brNear (asmNear label s.pc)) s = .next { s with pc := label } ∧
    (∀ d, asmShort label s.pc = some d → exec (.brShort d) s = .next { s with pc := label }) ∧
    ((∃ d, asmShort label s.pc = some d) ↔ -128 ≤ (label - s.pc).toInt ∧ (label - s.pc).toInt ≤ 127)

end
end

