-- ==== Sys2Proof/Laws/Memory.lean ====
section
/-! SUPPORT. Memory as a list of cells: a read after a write, what a write leaves alone, and that every operation keeps the
canonical form. -/

namespace Sys2Proof.Machine

theorem memGet_memPut (m : List Host.Cell) (a b : Nat) (v : Byte) :
    memGet (memPut m a v) b = if b = a then some v else memGet m b := by
  induction m with
  | nil => simp [memPut, memGet]
  | cons c m ih =>
    obtain ⟨d, w⟩ := c
    simp only [memPut]
    split
    · simp [memGet]
    · split
      · subst a; simp only [memGet]; split <;> rfl
      · simp only [memGet, ih]
        split <;> split <;> first | rfl | omega

theorem memGet_memDrop_other {a b : Nat} (h : b ≠ a) (m : List Host.Cell) : memGet (memDrop m a) b = memGet m b := by
  induction m with
  | nil => rfl
  | cons c m ih =>
    obtain ⟨d, w⟩ := c
    by_cases hd : d = a
    · subst hd; simpa [memDrop, memGet, h] using ih
    · simp only [memDrop] at ih
      simp [memDrop, hd, memGet, ih]

theorem memGet_memDrop_same (m : List Host.Cell) (a : Nat) : memGet (memDrop m a) a = unlistedByte a := by
  induction m with
  | nil => rfl
  | cons c m ih =>
    obtain ⟨d, w⟩ := c
    simp only [memDrop] at ih
    by_cases hd : d = a
    · simpa [memDrop, hd] using ih
    · simp [memDrop, hd, memGet, ih, Ne.symm hd]

/-- A byte read after a store to the same address is the byte stored. -/
@[simp] theorem memGet_memSet_same (m : List Host.Cell) (a : Nat) (v : Byte) : memGet (memSet m a v) a = some v := by
  unfold memSet; split
  · simp [memGet_memDrop_same, *]
  · simp [memGet_memPut]

/-- A store leaves every other address alone. -/
theorem memGet_memSet_other {a b : Nat} (h : b ≠ a) (m : List Host.Cell) (v : Byte) :
    memGet (memSet m a v) b = memGet m b := by
  unfold memSet; split
  · exact memGet_memDrop_other h m
  · simp [memGet_memPut, h]

theorem mem_memPut {m : List Host.Cell} {a : Nat} {v : Byte} {c : Host.Cell} (h : c ∈ memPut m a v) :
    c = (a, v) ∨ c ∈ m := by
  induction m with
  | nil => simpa [memPut] using h
  | cons d m ih =>
    simp only [memPut] at h
    split at h
    · simpa using h
    · split at h
      · simp only [List.mem_cons] at h ⊢; tauto
      · simp only [List.mem_cons] at h ⊢
        rcases h with h | h
        · exact .inr (.inl h)
        · rcases ih h with h | h <;> tauto

theorem memPut_pairwise {m : List Host.Cell} (h : m.Pairwise fun c d => c.1 < d.1) (a : Nat) (v : Byte) :
    (memPut m a v).Pairwise fun c d => c.1 < d.1 := by
  induction m with
  | nil => simp [memPut]
  | cons d m ih =>
    obtain ⟨hd, hm⟩ := List.pairwise_cons.mp h
    simp only [memPut]
    split
    · rename_i hlt
      refine List.pairwise_cons.mpr ⟨fun c hc => ?_, h⟩
      rcases List.mem_cons.mp hc with rfl | hc
      · exact hlt
      · exact lt_trans hlt (hd c hc)
    · split
      · rename_i heq
        exact List.pairwise_cons.mpr ⟨fun c hc => by simpa [heq] using hd c hc, hm⟩
      · refine List.pairwise_cons.mpr ⟨fun c hc => ?_, ih hm⟩
        rcases mem_memPut hc with rfl | hc
        · simp only; omega
        · exact hd c hc

/-- A store keeps the canonical form. -/
theorem memSet_wf {m : List Host.Cell} (h : MemWf m) {a : Nat} (ha : a < addrSpace) (v : Byte) : MemWf (memSet m a v) := by
  unfold memSet
  split
  · exact ⟨h.1.filter _, fun c hc => h.2 c (List.mem_of_mem_filter hc)⟩
  · rename_i hu
    refine ⟨memPut_pairwise h.1 a v, fun c hc => ?_⟩
    rcases mem_memPut hc with rfl | hc
    · exact ⟨ha, hu⟩
    · exact h.2 c hc

theorem phys_lt (seg off : Word) : phys seg off < addrSpace := Nat.mod_lt _ (by decide)

/-- The two bytes of a word lie at different addresses. -/
theorem phys_succ_ne (seg off : Word) : phys seg (off + 1) ≠ phys seg off := by
  have h1 := seg.isLt
  have h2 := off.isLt
  have h3 : (off + 1).toNat = (off.toNat + 1) % 65536 := by rw [BitVec.toNat_add]; rfl
  simp only [phys, addrSpace, h3]
  omega

/-- Memory right after reset, which lists nothing, has the canonical form. -/
theorem reset_memWf : MemWf State.reset.mem := by decide

end Sys2Proof.Machine
end

