-- ==== Sys2Proof/Laws/State.lean ====
section
/-! SUPPORT. One lemma per field of State and per update: what each operation on a state leaves as it was, and what it puts
there. Later proofs cite these and never unfold a record update. -/

namespace Sys2Proof.Machine

variable (s : State)

@[simp] theorem setW_segs (r : WReg) (v : Word) : (setW r v s).segs = s.segs := rfl
@[simp] theorem setW_pc (r : WReg) (v : Word) : (setW r v s).pc = s.pc := rfl
@[simp] theorem setW_flags (r : WReg) (v : Word) : (setW r v s).flags = s.flags := rfl
@[simp] theorem setW_dir (r : WReg) (v : Word) : (setW r v s).dir = s.dir := rfl
@[simp] theorem setW_idb (r : WReg) (v : Word) : (setW r v s).idb = s.idb := rfl
@[simp] theorem setW_mem (r : WReg) (v : Word) : (setW r v s).mem = s.mem := rfl
@[simp] theorem setW_sfrLog (r : WReg) (v : Word) : (setW r v s).sfrLog = s.sfrLog := rfl
@[simp] theorem setW_codeRegion (r : WReg) (v : Word) : (setW r v s).codeRegion = s.codeRegion := rfl
@[simp] theorem setW_strictBitImm (r : WReg) (v : Word) : (setW r v s).strictBitImm = s.strictBitImm := rfl
@[simp] theorem setW_tick (r : WReg) (v : Word) : (setW r v s).tick = s.tick := rfl
@[simp] theorem setW_regs (r : WReg) (v : Word) : (setW r v s).regs = regsSet r v s.regs := rfl

@[simp] theorem setB_segs (r : BReg) (v : Byte) : (setB r v s).segs = s.segs := rfl
@[simp] theorem setB_pc (r : BReg) (v : Byte) : (setB r v s).pc = s.pc := rfl
@[simp] theorem setB_flags (r : BReg) (v : Byte) : (setB r v s).flags = s.flags := rfl
@[simp] theorem setB_dir (r : BReg) (v : Byte) : (setB r v s).dir = s.dir := rfl
@[simp] theorem setB_idb (r : BReg) (v : Byte) : (setB r v s).idb = s.idb := rfl
@[simp] theorem setB_mem (r : BReg) (v : Byte) : (setB r v s).mem = s.mem := rfl
@[simp] theorem setB_sfrLog (r : BReg) (v : Byte) : (setB r v s).sfrLog = s.sfrLog := rfl
@[simp] theorem setB_codeRegion (r : BReg) (v : Byte) : (setB r v s).codeRegion = s.codeRegion := rfl
@[simp] theorem setB_strictBitImm (r : BReg) (v : Byte) : (setB r v s).strictBitImm = s.strictBitImm := rfl
@[simp] theorem setB_tick (r : BReg) (v : Byte) : (setB r v s).tick = s.tick := rfl

@[simp] theorem setR_segs (r : Reg) (v : BitVec r.width.bits) : (setR r v s).segs = s.segs := by cases r <;> rfl
@[simp] theorem setR_pc (r : Reg) (v : BitVec r.width.bits) : (setR r v s).pc = s.pc := by cases r <;> rfl
@[simp] theorem setR_flags (r : Reg) (v : BitVec r.width.bits) : (setR r v s).flags = s.flags := by cases r <;> rfl
@[simp] theorem setR_dir (r : Reg) (v : BitVec r.width.bits) : (setR r v s).dir = s.dir := by cases r <;> rfl
@[simp] theorem setR_idb (r : Reg) (v : BitVec r.width.bits) : (setR r v s).idb = s.idb := by cases r <;> rfl
@[simp] theorem setR_mem (r : Reg) (v : BitVec r.width.bits) : (setR r v s).mem = s.mem := by cases r <;> rfl
@[simp] theorem setR_sfrLog (r : Reg) (v : BitVec r.width.bits) : (setR r v s).sfrLog = s.sfrLog := by cases r <;> rfl
@[simp] theorem setR_codeRegion (r : Reg) (v : BitVec r.width.bits) : (setR r v s).codeRegion = s.codeRegion := by cases r <;> rfl
@[simp] theorem setR_strictBitImm (r : Reg) (v : BitVec r.width.bits) : (setR r v s).strictBitImm = s.strictBitImm := by cases r <;> rfl
@[simp] theorem setR_tick (r : Reg) (v : BitVec r.width.bits) : (setR r v s).tick = s.tick := by cases r <;> rfl

@[simp] theorem setAcc_segs (w : Width) (v : BitVec w.bits) : (setAcc w v s).segs = s.segs := by cases w <;> rfl
@[simp] theorem setAcc_pc (w : Width) (v : BitVec w.bits) : (setAcc w v s).pc = s.pc := by cases w <;> rfl
@[simp] theorem setAcc_flags (w : Width) (v : BitVec w.bits) : (setAcc w v s).flags = s.flags := by cases w <;> rfl
@[simp] theorem setAcc_dir (w : Width) (v : BitVec w.bits) : (setAcc w v s).dir = s.dir := by cases w <;> rfl
@[simp] theorem setAcc_idb (w : Width) (v : BitVec w.bits) : (setAcc w v s).idb = s.idb := by cases w <;> rfl
@[simp] theorem setAcc_mem (w : Width) (v : BitVec w.bits) : (setAcc w v s).mem = s.mem := by cases w <;> rfl
@[simp] theorem setAcc_sfrLog (w : Width) (v : BitVec w.bits) : (setAcc w v s).sfrLog = s.sfrLog := by cases w <;> rfl
@[simp] theorem setAcc_codeRegion (w : Width) (v : BitVec w.bits) : (setAcc w v s).codeRegion = s.codeRegion := by cases w <;> rfl
@[simp] theorem setAcc_strictBitImm (w : Width) (v : BitVec w.bits) : (setAcc w v s).strictBitImm = s.strictBitImm := by cases w <;> rfl
@[simp] theorem setAcc_tick (w : Width) (v : BitVec w.bits) : (setAcc w v s).tick = s.tick := by cases w <;> rfl

@[simp] theorem stepReg_segs (w : Width) (r : WReg) : (stepReg w r s).segs = s.segs := rfl
@[simp] theorem stepReg_pc (w : Width) (r : WReg) : (stepReg w r s).pc = s.pc := rfl
@[simp] theorem stepReg_flags (w : Width) (r : WReg) : (stepReg w r s).flags = s.flags := rfl
@[simp] theorem stepReg_dir (w : Width) (r : WReg) : (stepReg w r s).dir = s.dir := rfl
@[simp] theorem stepReg_idb (w : Width) (r : WReg) : (stepReg w r s).idb = s.idb := rfl
@[simp] theorem stepReg_mem (w : Width) (r : WReg) : (stepReg w r s).mem = s.mem := rfl
@[simp] theorem stepReg_sfrLog (w : Width) (r : WReg) : (stepReg w r s).sfrLog = s.sfrLog := rfl
@[simp] theorem stepReg_codeRegion (w : Width) (r : WReg) : (stepReg w r s).codeRegion = s.codeRegion := rfl
@[simp] theorem stepReg_strictBitImm (w : Width) (r : WReg) : (stepReg w r s).strictBitImm = s.strictBitImm := rfl
@[simp] theorem stepReg_tick (w : Width) (r : WReg) : (stepReg w r s).tick = s.tick := rfl

@[simp] theorem setFlags_regs (f : Flags) : (setFlags f s).regs = s.regs := rfl
@[simp] theorem setFlags_segs (f : Flags) : (setFlags f s).segs = s.segs := rfl
@[simp] theorem setFlags_pc (f : Flags) : (setFlags f s).pc = s.pc := rfl
@[simp] theorem setFlags_dir (f : Flags) : (setFlags f s).dir = s.dir := rfl
@[simp] theorem setFlags_idb (f : Flags) : (setFlags f s).idb = s.idb := rfl
@[simp] theorem setFlags_mem (f : Flags) : (setFlags f s).mem = s.mem := rfl
@[simp] theorem setFlags_sfrLog (f : Flags) : (setFlags f s).sfrLog = s.sfrLog := rfl
@[simp] theorem setFlags_codeRegion (f : Flags) : (setFlags f s).codeRegion = s.codeRegion := rfl
@[simp] theorem setFlags_strictBitImm (f : Flags) : (setFlags f s).strictBitImm = s.strictBitImm := rfl
@[simp] theorem setFlags_tick (f : Flags) : (setFlags f s).tick = s.tick := rfl
@[simp] theorem setFlags_flags (f : Flags) : (setFlags f s).flags = f := rfl

@[simp] theorem setPc_regs (v : Word) : (setPc v s).regs = s.regs := rfl
@[simp] theorem setPc_segs (v : Word) : (setPc v s).segs = s.segs := rfl
@[simp] theorem setPc_flags (v : Word) : (setPc v s).flags = s.flags := rfl
@[simp] theorem setPc_dir (v : Word) : (setPc v s).dir = s.dir := rfl
@[simp] theorem setPc_idb (v : Word) : (setPc v s).idb = s.idb := rfl
@[simp] theorem setPc_mem (v : Word) : (setPc v s).mem = s.mem := rfl
@[simp] theorem setPc_sfrLog (v : Word) : (setPc v s).sfrLog = s.sfrLog := rfl
@[simp] theorem setPc_codeRegion (v : Word) : (setPc v s).codeRegion = s.codeRegion := rfl
@[simp] theorem setPc_strictBitImm (v : Word) : (setPc v s).strictBitImm = s.strictBitImm := rfl
@[simp] theorem setPc_tick (v : Word) : (setPc v s).tick = s.tick := rfl
@[simp] theorem setPc_pc (v : Word) : (setPc v s).pc = v := rfl

@[simp] theorem setPsPc_regs (seg off : Word) : (setPsPc seg off s).regs = s.regs := rfl
@[simp] theorem setPsPc_flags (seg off : Word) : (setPsPc seg off s).flags = s.flags := rfl
@[simp] theorem setPsPc_dir (seg off : Word) : (setPsPc seg off s).dir = s.dir := rfl
@[simp] theorem setPsPc_idb (seg off : Word) : (setPsPc seg off s).idb = s.idb := rfl
@[simp] theorem setPsPc_mem (seg off : Word) : (setPsPc seg off s).mem = s.mem := rfl
@[simp] theorem setPsPc_sfrLog (seg off : Word) : (setPsPc seg off s).sfrLog = s.sfrLog := rfl
@[simp] theorem setPsPc_codeRegion (seg off : Word) : (setPsPc seg off s).codeRegion = s.codeRegion := rfl
@[simp] theorem setPsPc_strictBitImm (seg off : Word) : (setPsPc seg off s).strictBitImm = s.strictBitImm := rfl
@[simp] theorem setPsPc_tick (seg off : Word) : (setPsPc seg off s).tick = s.tick := rfl
@[simp] theorem setPsPc_pc (seg off : Word) : (setPsPc seg off s).pc = off := rfl
@[simp] theorem setPsPc_segs (seg off : Word) : (setPsPc seg off s).segs = { s.segs with ps := seg } := rfl

@[simp] theorem noteRead_regs (a : Nat) : (noteRead a s).regs = s.regs := by unfold noteRead; split <;> rfl
@[simp] theorem noteRead_segs (a : Nat) : (noteRead a s).segs = s.segs := by unfold noteRead; split <;> rfl
@[simp] theorem noteRead_pc (a : Nat) : (noteRead a s).pc = s.pc := by unfold noteRead; split <;> rfl
@[simp] theorem noteRead_flags (a : Nat) : (noteRead a s).flags = s.flags := by unfold noteRead; split <;> rfl
@[simp] theorem noteRead_dir (a : Nat) : (noteRead a s).dir = s.dir := by unfold noteRead; split <;> rfl
@[simp] theorem noteRead_idb (a : Nat) : (noteRead a s).idb = s.idb := by unfold noteRead; split <;> rfl
@[simp] theorem noteRead_mem (a : Nat) : (noteRead a s).mem = s.mem := by unfold noteRead; split <;> rfl
@[simp] theorem noteRead_codeRegion (a : Nat) : (noteRead a s).codeRegion = s.codeRegion := by unfold noteRead; split <;> rfl
@[simp] theorem noteRead_strictBitImm (a : Nat) : (noteRead a s).strictBitImm = s.strictBitImm := by unfold noteRead; split <;> rfl
@[simp] theorem noteRead_tick (a : Nat) : (noteRead a s).tick = s.tick := by unfold noteRead; split <;> rfl

@[simp] theorem pokeByte_regs (a : Nat) (v : Byte) : (pokeByte a v s).regs = s.regs := by unfold pokeByte; split <;> rfl
@[simp] theorem pokeByte_segs (a : Nat) (v : Byte) : (pokeByte a v s).segs = s.segs := by unfold pokeByte; split <;> rfl
@[simp] theorem pokeByte_pc (a : Nat) (v : Byte) : (pokeByte a v s).pc = s.pc := by unfold pokeByte; split <;> rfl
@[simp] theorem pokeByte_flags (a : Nat) (v : Byte) : (pokeByte a v s).flags = s.flags := by unfold pokeByte; split <;> rfl
@[simp] theorem pokeByte_dir (a : Nat) (v : Byte) : (pokeByte a v s).dir = s.dir := by unfold pokeByte; split <;> rfl
@[simp] theorem pokeByte_idb (a : Nat) (v : Byte) : (pokeByte a v s).idb = s.idb := by unfold pokeByte; split <;> rfl
@[simp] theorem pokeByte_codeRegion (a : Nat) (v : Byte) : (pokeByte a v s).codeRegion = s.codeRegion := by unfold pokeByte; split <;> rfl
@[simp] theorem pokeByte_strictBitImm (a : Nat) (v : Byte) : (pokeByte a v s).strictBitImm = s.strictBitImm := by unfold pokeByte; split <;> rfl
@[simp] theorem pokeByte_tick (a : Nat) (v : Byte) : (pokeByte a v s).tick = s.tick := by unfold pokeByte; split <;> rfl

@[simp] theorem afterRead_regs (w : Width) (seg off : Word) : (afterRead w seg off s).regs = s.regs := by cases w <;> simp [afterRead]
@[simp] theorem afterRead_segs (w : Width) (seg off : Word) : (afterRead w seg off s).segs = s.segs := by cases w <;> simp [afterRead]
@[simp] theorem afterRead_pc (w : Width) (seg off : Word) : (afterRead w seg off s).pc = s.pc := by cases w <;> simp [afterRead]
@[simp] theorem afterRead_flags (w : Width) (seg off : Word) : (afterRead w seg off s).flags = s.flags := by cases w <;> simp [afterRead]
@[simp] theorem afterRead_dir (w : Width) (seg off : Word) : (afterRead w seg off s).dir = s.dir := by cases w <;> simp [afterRead]
@[simp] theorem afterRead_idb (w : Width) (seg off : Word) : (afterRead w seg off s).idb = s.idb := by cases w <;> simp [afterRead]
@[simp] theorem afterRead_mem (w : Width) (seg off : Word) : (afterRead w seg off s).mem = s.mem := by cases w <;> simp [afterRead]
@[simp] theorem afterRead_codeRegion (w : Width) (seg off : Word) : (afterRead w seg off s).codeRegion = s.codeRegion := by cases w <;> simp [afterRead]
@[simp] theorem afterRead_strictBitImm (w : Width) (seg off : Word) : (afterRead w seg off s).strictBitImm = s.strictBitImm := by cases w <;> simp [afterRead]
@[simp] theorem afterRead_tick (w : Width) (seg off : Word) : (afterRead w seg off s).tick = s.tick := by cases w <;> simp [afterRead]

@[simp] theorem poke_regs (w : Width) (seg off : Word) (v : BitVec w.bits) : (poke w seg off v s).regs = s.regs := by cases w <;> simp [poke]
@[simp] theorem poke_segs (w : Width) (seg off : Word) (v : BitVec w.bits) : (poke w seg off v s).segs = s.segs := by cases w <;> simp [poke]
@[simp] theorem poke_pc (w : Width) (seg off : Word) (v : BitVec w.bits) : (poke w seg off v s).pc = s.pc := by cases w <;> simp [poke]
@[simp] theorem poke_flags (w : Width) (seg off : Word) (v : BitVec w.bits) : (poke w seg off v s).flags = s.flags := by cases w <;> simp [poke]
@[simp] theorem poke_dir (w : Width) (seg off : Word) (v : BitVec w.bits) : (poke w seg off v s).dir = s.dir := by cases w <;> simp [poke]
@[simp] theorem poke_idb (w : Width) (seg off : Word) (v : BitVec w.bits) : (poke w seg off v s).idb = s.idb := by cases w <;> simp [poke]
@[simp] theorem poke_codeRegion (w : Width) (seg off : Word) (v : BitVec w.bits) : (poke w seg off v s).codeRegion = s.codeRegion := by cases w <;> simp [poke]
@[simp] theorem poke_strictBitImm (w : Width) (seg off : Word) (v : BitVec w.bits) : (poke w seg off v s).strictBitImm = s.strictBitImm := by cases w <;> simp [poke]
@[simp] theorem poke_tick (w : Width) (seg off : Word) (v : BitVec w.bits) : (poke w seg off v s).tick = s.tick := by cases w <;> simp [poke]

@[simp] theorem branchNear_regs (d : Word) : (branchNear d s).regs = s.regs := rfl
@[simp] theorem branchNear_segs (d : Word) : (branchNear d s).segs = s.segs := rfl
@[simp] theorem branchNear_flags (d : Word) : (branchNear d s).flags = s.flags := rfl
@[simp] theorem branchNear_dir (d : Word) : (branchNear d s).dir = s.dir := rfl
@[simp] theorem branchNear_idb (d : Word) : (branchNear d s).idb = s.idb := rfl
@[simp] theorem branchNear_mem (d : Word) : (branchNear d s).mem = s.mem := rfl
@[simp] theorem branchNear_sfrLog (d : Word) : (branchNear d s).sfrLog = s.sfrLog := rfl
@[simp] theorem branchNear_codeRegion (d : Word) : (branchNear d s).codeRegion = s.codeRegion := rfl
@[simp] theorem branchNear_strictBitImm (d : Word) : (branchNear d s).strictBitImm = s.strictBitImm := rfl
@[simp] theorem branchNear_tick (d : Word) : (branchNear d s).tick = s.tick := rfl
@[simp] theorem branchNear_pc (d : Word) : (branchNear d s).pc = s.pc + d := rfl

@[simp] theorem branchShort_regs (d : Byte) : (branchShort d s).regs = s.regs := rfl
@[simp] theorem branchShort_segs (d : Byte) : (branchShort d s).segs = s.segs := rfl
@[simp] theorem branchShort_flags (d : Byte) : (branchShort d s).flags = s.flags := rfl
@[simp] theorem branchShort_dir (d : Byte) : (branchShort d s).dir = s.dir := rfl
@[simp] theorem branchShort_idb (d : Byte) : (branchShort d s).idb = s.idb := rfl
@[simp] theorem branchShort_mem (d : Byte) : (branchShort d s).mem = s.mem := rfl
@[simp] theorem branchShort_sfrLog (d : Byte) : (branchShort d s).sfrLog = s.sfrLog := rfl
@[simp] theorem branchShort_codeRegion (d : Byte) : (branchShort d s).codeRegion = s.codeRegion := rfl
@[simp] theorem branchShort_strictBitImm (d : Byte) : (branchShort d s).strictBitImm = s.strictBitImm := rfl
@[simp] theorem branchShort_tick (d : Byte) : (branchShort d s).tick = s.tick := rfl
@[simp] theorem branchShort_pc (d : Byte) : (branchShort d s).pc = s.pc + sext16 d := rfl

@[simp] theorem branchIf_regs (c : Bool) (d : Byte) : (branchIf c d s).regs = s.regs := by cases c <;> rfl
@[simp] theorem branchIf_segs (c : Bool) (d : Byte) : (branchIf c d s).segs = s.segs := by cases c <;> rfl
@[simp] theorem branchIf_flags (c : Bool) (d : Byte) : (branchIf c d s).flags = s.flags := by cases c <;> rfl
@[simp] theorem branchIf_dir (c : Bool) (d : Byte) : (branchIf c d s).dir = s.dir := by cases c <;> rfl
@[simp] theorem branchIf_idb (c : Bool) (d : Byte) : (branchIf c d s).idb = s.idb := by cases c <;> rfl
@[simp] theorem branchIf_mem (c : Bool) (d : Byte) : (branchIf c d s).mem = s.mem := by cases c <;> rfl
@[simp] theorem branchIf_sfrLog (c : Bool) (d : Byte) : (branchIf c d s).sfrLog = s.sfrLog := by cases c <;> rfl
@[simp] theorem branchIf_codeRegion (c : Bool) (d : Byte) : (branchIf c d s).codeRegion = s.codeRegion := by cases c <;> rfl
@[simp] theorem branchIf_strictBitImm (c : Bool) (d : Byte) : (branchIf c d s).strictBitImm = s.strictBitImm := by cases c <;> rfl
@[simp] theorem branchIf_tick (c : Bool) (d : Byte) : (branchIf c d s).tick = s.tick := by cases c <;> rfl
@[simp] theorem branchIf_pc (c : Bool) (d : Byte) : (branchIf c d s).pc = if c then s.pc + sext16 d else s.pc := by cases c <;> rfl

@[simp] theorem noteFetch_regs (n : Nat) (off : Word) : (noteFetch n off s).regs = s.regs := by
  induction n generalizing off s <;> simp [noteFetch, *]
@[simp] theorem noteFetch_segs (n : Nat) (off : Word) : (noteFetch n off s).segs = s.segs := by
  induction n generalizing off s <;> simp [noteFetch, *]
@[simp] theorem noteFetch_pc (n : Nat) (off : Word) : (noteFetch n off s).pc = s.pc := by
  induction n generalizing off s <;> simp [noteFetch, *]
@[simp] theorem noteFetch_flags (n : Nat) (off : Word) : (noteFetch n off s).flags = s.flags := by
  induction n generalizing off s <;> simp [noteFetch, *]
@[simp] theorem noteFetch_dir (n : Nat) (off : Word) : (noteFetch n off s).dir = s.dir := by
  induction n generalizing off s <;> simp [noteFetch, *]
@[simp] theorem noteFetch_idb (n : Nat) (off : Word) : (noteFetch n off s).idb = s.idb := by
  induction n generalizing off s <;> simp [noteFetch, *]
@[simp] theorem noteFetch_mem (n : Nat) (off : Word) : (noteFetch n off s).mem = s.mem := by
  induction n generalizing off s <;> simp [noteFetch, *]
@[simp] theorem noteFetch_codeRegion (n : Nat) (off : Word) : (noteFetch n off s).codeRegion = s.codeRegion := by
  induction n generalizing off s <;> simp [noteFetch, *]
@[simp] theorem noteFetch_strictBitImm (n : Nat) (off : Word) : (noteFetch n off s).strictBitImm = s.strictBitImm := by
  induction n generalizing off s <;> simp [noteFetch, *]
@[simp] theorem noteFetch_tick (n : Nat) (off : Word) : (noteFetch n off s).tick = s.tick := by
  induction n generalizing off s <;> simp [noteFetch, *]

@[simp] theorem advance_regs (n : Nat) : (advance n s).regs = s.regs := rfl
@[simp] theorem advance_segs (n : Nat) : (advance n s).segs = s.segs := rfl
@[simp] theorem advance_flags (n : Nat) : (advance n s).flags = s.flags := rfl
@[simp] theorem advance_dir (n : Nat) : (advance n s).dir = s.dir := rfl
@[simp] theorem advance_idb (n : Nat) : (advance n s).idb = s.idb := rfl
@[simp] theorem advance_mem (n : Nat) : (advance n s).mem = s.mem := rfl
@[simp] theorem advance_sfrLog (n : Nat) : (advance n s).sfrLog = s.sfrLog := rfl
@[simp] theorem advance_codeRegion (n : Nat) : (advance n s).codeRegion = s.codeRegion := rfl
@[simp] theorem advance_strictBitImm (n : Nat) : (advance n s).strictBitImm = s.strictBitImm := rfl
@[simp] theorem advance_pc (n : Nat) : (advance n s).pc = s.pc + BitVec.ofNat 16 n := rfl
@[simp] theorem advance_tick (n : Nat) : (advance n s).tick = s.tick + 1 := rfl

end Sys2Proof.Machine
end

