-- ==== Sys2Proof/Laws/Regs.lean ====
section
/-! SUPPORT. Reading a register after writing one (spec/10_state.md R10 to R12). -/

namespace Sys2Proof

/-- The value of a word from its halves. -/
theorem joinBytes_toNat (hi lo : Byte) : (joinBytes hi lo).toNat = hi.toNat * 256 + lo.toNat := by
  have := lo.isLt
  simp only [joinBytes, BitVec.toNat_append]
  rw [← Nat.shiftLeft_add_eq_or_of_lt (by omega), Nat.shiftLeft_eq]

theorem loByte_toNat (w : Word) : (loByte w).toNat = w.toNat % 256 := by simp [loByte]

theorem hiByte_toNat (w : Word) : (hiByte w).toNat = w.toNat / 256 := by
  have := w.isLt
  simp [hiByte, Nat.shiftRight_eq_div_pow]; omega

@[simp] theorem loByte_joinBytes (hi lo : Byte) : loByte (joinBytes hi lo) = lo := by
  have := lo.isLt
  apply BitVec.eq_of_toNat_eq
  rw [loByte_toNat, joinBytes_toNat]; omega

@[simp] theorem hiByte_joinBytes (hi lo : Byte) : hiByte (joinBytes hi lo) = hi := by
  have := lo.isLt
  apply BitVec.eq_of_toNat_eq
  rw [hiByte_toNat, joinBytes_toNat]; omega

@[simp] theorem joinBytes_hiByte_loByte (w : Word) : joinBytes (hiByte w) (loByte w) = w := by
  apply BitVec.eq_of_toNat_eq
  rw [joinBytes_toNat, hiByte_toNat, loByte_toNat]; omega

namespace Machine

theorem regsGet_regsSet (q r : WReg) (v : Word) (g : Regs) :
    regsGet q (regsSet r v g) = if q = r then v else regsGet q g := by
  cases q <;> cases r <;> rfl

@[simp] theorem regsGet_regsSet_same (r : WReg) (v : Word) (g : Regs) : regsGet r (regsSet r v g) = v := by
  simp [regsGet_regsSet]

@[simp] theorem getW_setW_same (r : WReg) (v : Word) (s : State) : getW r (setW r v s) = v := by
  simp [getW]

theorem getW_setW_other {q r : WReg} (h : q ≠ r) (v : Word) (s : State) : getW q (setW r v s) = getW q s := by
  simp [getW, regsGet_regsSet, h]

/-- A register read sees the register file only. -/
theorem getW_congr {s t : State} (h : t.regs = s.regs) (r : WReg) : getW r t = getW r s := by simp [getW, h]

theorem getB_congr {s t : State} (h : t.regs = s.regs) (r : BReg) : getB r t = getB r s := by simp [getB, getW, h]

@[simp] theorem getB_setB_same (r : BReg) (v : Byte) (s : State) : getB r (setB r v s) = v := by
  cases r <;> simp [getB, setB, bregIsHigh]

/-- A write of a byte register leaves every other byte register (R12). -/
theorem getB_setB_other {q r : BReg} (h : q ≠ r) (v : Byte) (s : State) : getB q (setB r v s) = getB q s := by
  cases r <;> cases q <;> first | exact absurd rfl h | simp [getB, setB, bregIsHigh, bregWord, getW, regsGet_regsSet]

/-- A write of a byte register leaves every word register it is no half of (R12). -/
theorem getW_setB_other {q : WReg} {r : BReg} (h : q ≠ bregWord r) (v : Byte) (s : State) :
    getW q (setB r v s) = getW q s := getW_setW_other h _ _

theorem getW_stepReg_other {q r : WReg} (h : q ≠ r) (w : Width) (s : State) : getW q (stepReg w r s) = getW q s :=
  getW_setW_other h _ _

end Machine

end Sys2Proof
end

