-- ==== Sys2Proof/Laws/Access.lean ====
section
/-! SUPPORT. The shared operations, each said once: when it answers a next state and which one. Proofs cite these and do not
unfold the operations. -/

namespace Sys2Proof.Machine

@[simp] theorem andThen_next {α β : Type} (a : α) (f : α → Result β) : andThen (.next a) f = f a := rfl

/-- A sequence answers a next state when both of its parts do. -/
theorem andThen_eq_next {α β : Type} {r : Result α} {f : α → Result β} {b : β} :
    andThen r f = .next b ↔ ∃ a, r = .next a ∧ f a = .next b := by
  cases r <;> simp [andThen]

theorem wraps_eq_false (w : Width) (off : Word) : wraps w off = false ↔ (w = .word → off ≠ 0xFFFF) := by
  cases w <;> simp [wraps]

theorem readable_iff (w : Width) (seg off : Word) (s : State) :
    readable w seg off s = true ↔ ∀ a ∈ addrsOf w seg off, inSfr s.idb a = true ∨ memGet s.mem a ≠ none := by
  simp [readable, byteReadable, Option.isSome_iff_ne_none]

theorem hitsCode_eq_false (w : Width) (seg off : Word) (s : State) :
    hitsCode w seg off s = false ↔ ∀ a ∈ addrsOf w seg off, inCode s a = false := by
  simp [hitsCode]

/-- A read answers exactly where the operand can be read, with its value and the state after the read. -/
theorem readAt_eq_next {w : Width} {seg off : Word} {s : State} {r : BitVec w.bits × State} :
    readAt w seg off s = .next r ↔ CanRead w seg off s ∧ r = (peek w seg off s, afterRead w seg off s) := by
  rw [CanRead, ← wraps_eq_false, ← readable_iff]
  unfold readAt
  cases wraps w off <;> cases readable w seg off s <;> simp [eq_comm]

theorem readAt_of_canRead {w : Width} {seg off : Word} {s : State} (h : CanRead w seg off s) :
    readAt w seg off s = .next (peek w seg off s, afterRead w seg off s) := readAt_eq_next.mpr ⟨h, rfl⟩

/-- A write answers exactly where the operand can be written, with the bytes stored. -/
theorem writeAt_eq_next {w : Width} {seg off : Word} {v : BitVec w.bits} {s t : State} :
    writeAt w seg off v s = .next t ↔ CanWrite w seg off s ∧ t = poke w seg off v s := by
  rw [CanWrite, ← wraps_eq_false, ← hitsCode_eq_false]
  unfold writeAt
  cases wraps w off <;> cases hitsCode w seg off s <;> simp [eq_comm]

theorem writeAt_of_canWrite {w : Width} {seg off : Word} {s : State} (h : CanWrite w seg off s) (v : BitVec w.bits) :
    writeAt w seg off v s = .next (poke w seg off v s) := writeAt_eq_next.mpr ⟨h, rfl⟩

/-- What can be read depends on IDB and memory only. -/
theorem canRead_congr {s t : State} (hi : t.idb = s.idb) (hm : t.mem = s.mem) (w : Width) (seg off : Word) :
    CanRead w seg off t ↔ CanRead w seg off s := by simp [CanRead, hi, hm]

/-- What can be written depends on the declared code region only. -/
theorem canWrite_congr {s t : State} (h : t.codeRegion = s.codeRegion) (w : Width) (seg off : Word) :
    CanWrite w seg off t ↔ CanWrite w seg off s := by simp [CanWrite, inCode, h]

/-- A pointer read answers exactly where the double word can be read: its segment word, its offset word, the state after
both reads. -/
theorem readPtr32_eq_next {seg off : Word} {s : State} {r : Word × Word × State} :
    readPtr32 seg off s = .next r ↔ CanRead32 seg off s ∧
      r = (peek .word seg (off + 2) (afterRead .word seg off s), peek .word seg off s,
        afterRead .word seg (off + 2) (afterRead .word seg off s)) := by
  unfold readPtr32 CanRead32
  by_cases h : 0xFFFC < off.toNat
  · simp [h]
  · simp only [h, ↓reduceIte, andThen_eq_next]
    constructor
    · rintro ⟨⟨o, s1⟩, h1, ⟨g, s2⟩, h2, h3⟩
      obtain ⟨c1, e1⟩ := readAt_eq_next.mp h1
      obtain ⟨rfl, rfl⟩ := Prod.mk.inj e1
      obtain ⟨c2, e2⟩ := readAt_eq_next.mp h2
      obtain ⟨rfl, rfl⟩ := Prod.mk.inj e2
      exact ⟨⟨by omega, c1, (canRead_congr (by simp) (by simp) _ _ _).mp c2⟩, (Host.Outcome.next.inj h3).symm⟩
    · rintro ⟨⟨_, c1, c2⟩, rfl⟩
      exact ⟨_, readAt_of_canRead c1, _, readAt_of_canRead ((canRead_congr (by simp) (by simp) _ _ _).mpr c2), rfl⟩

/-- A push answers exactly where the word below SP can be written. -/
theorem pushWord_eq_next {v : Word} {s t : State} :
    pushWord v s = .next t ↔ CanWrite .word s.segs.ss (getW .sp s - 2) s ∧
      t = poke .word s.segs.ss (getW .sp s - 2) v (setW .sp (getW .sp s - 2) s) := by
  unfold pushWord
  rw [writeAt_eq_next, canWrite_congr (s := s) (by simp)]
  rfl

/-- A read-modify-write answers exactly where the operand can be read and written. -/
theorem modifyMem_eq_next {w : Width} {m : MemOp} {f : BitVec w.bits → BitVec w.bits} {s : State}
    {r : BitVec w.bits × State} :
    modifyMem w m f s = .next r ↔ CanRead w (memSeg m s) (ea m s) s ∧ CanWrite w (memSeg m s) (ea m s) s ∧
      r = (peek w (memSeg m s) (ea m s) s,
        poke w (memSeg m s) (ea m s) (f (peek w (memSeg m s) (ea m s) s)) (afterRead w (memSeg m s) (ea m s) s)) := by
  simp only [modifyMem, readMem, andThen_eq_next]
  constructor
  · rintro ⟨⟨v, s1⟩, h1, s2, h2, h3⟩
    obtain ⟨c1, e1⟩ := readAt_eq_next.mp h1
    obtain ⟨rfl, rfl⟩ := Prod.mk.inj e1
    obtain ⟨c2, rfl⟩ := writeAt_eq_next.mp h2
    exact ⟨c1, (canWrite_congr (by simp) _ _ _).mp c2, (Host.Outcome.next.inj h3).symm⟩
  · rintro ⟨c1, c2, rfl⟩
    exact ⟨_, readAt_of_canRead c1, _, writeAt_of_canWrite ((canWrite_congr (by simp) _ _ _).mpr c2) _, rfl⟩

/-! ## What a store changes -/

theorem memGet_pokeByte_other {a b : Nat} (h : b ≠ a) (v : Byte) (s : State) :
    memGet (pokeByte a v s).mem b = memGet s.mem b := by
  unfold pokeByte; split
  · rfl
  · exact memGet_memSet_other h _ _

/-- A store leaves every byte outside the operand alone. -/
theorem memGet_poke_other {w : Width} {seg off : Word} {b : Nat} (h : b ∉ addrsOf w seg off) (v : BitVec w.bits)
    (s : State) : memGet (poke w seg off v s).mem b = memGet s.mem b := by
  cases w with
  | byte => exact memGet_pokeByte_other (by simpa [addrsOf] using h) _ _
  | word =>
    simp only [addrsOf, List.mem_cons, List.not_mem_nil, or_false, not_or] at h
    simp only [poke]
    rw [memGet_pokeByte_other h.2, memGet_pokeByte_other h.1]

/-- A store can change memory and the special function register history and nothing else. -/
theorem poke_frame (w : Width) (seg off : Word) (v : BitVec w.bits) (s : State) :
    poke w seg off v s = { s with mem := (poke w seg off v s).mem, sfrLog := (poke w seg off v s).sfrLog } := by
  cases w <;> simp only [poke, pokeByte] <;> (repeat' split) <;> rfl

theorem pokeByte_setW (a : Nat) (v : Byte) (r : WReg) (x : Word) (s : State) :
    pokeByte a v (setW r x s) = setW r x (pokeByte a v s) := by
  unfold pokeByte setW; simp only; split <;> rfl

/-- A store and a register write commute. -/
theorem poke_setW (w : Width) (seg off : Word) (v : BitVec w.bits) (r : WReg) (x : Word) (s : State) :
    poke w seg off v (setW r x s) = setW r x (poke w seg off v s) := by
  cases w <;> simp only [poke, pokeByte_setW]

/-- A store to the special function register area leaves memory alone. -/
theorem pokeByte_mem_of_inSfr {a : Nat} {s : State} (h : inSfr s.idb a = true) (v : Byte) :
    (pokeByte a v s).mem = s.mem := by simp [pokeByte, h]

theorem pokeByte_wf {a : Nat} (ha : a < addrSpace) {s : State} (h : MemWf s.mem) (v : Byte) : MemWf (pokeByte a v s).mem := by
  unfold pokeByte; split
  · exact h
  · exact memSet_wf h ha v

/-- A store keeps memory's canonical form. -/
theorem poke_wf (w : Width) (seg off : Word) (v : BitVec w.bits) {s : State} (h : MemWf s.mem) :
    MemWf (poke w seg off v s).mem := by
  cases w with
  | byte => exact pokeByte_wf (phys_lt _ _) h _
  | word => exact pokeByte_wf (phys_lt _ _) (pokeByte_wf (phys_lt _ _) h _) _

end Sys2Proof.Machine
end

