-- ==== Sys2Proof/Laws/Meaning.lean ====
section
/-! SUPPORT. What each meaning can answer, said once: the conditions under which it answers a next state, and that state. Proofs
about an instruction cite its lemma here and unfold neither the meaning nor the operations under it. -/

namespace Sys2Proof.Machine

/-! ## CALL and BR -/

theorem nearCall_eq_next {target : Word} {s t : State} :
    nearCall target s = .next t ↔ CanWrite .word s.segs.ss (getW .sp s - 2) s ∧
      t = setPc target (poke .word s.segs.ss (getW .sp s - 2) s.pc (setW .sp (getW .sp s - 2) s)) := by
  simp only [nearCall, andThen_eq_next, pushWord_eq_next, Host.Outcome.next.injEq]
  constructor
  · rintro ⟨_, ⟨c, rfl⟩, rfl⟩; exact ⟨c, rfl⟩
  · rintro ⟨c, rfl⟩; exact ⟨_, ⟨c, rfl⟩, rfl⟩

/-- The state between the two pushes of a far CALL. -/
abbrev afterFirstPush (s : State) : State :=
  poke .word s.segs.ss (getW .sp s - 2) s.segs.ps (setW .sp (getW .sp s - 2) s)

theorem getW_poke (w : Width) (seg off : Word) (v : BitVec w.bits) (r : WReg) (s : State) :
    getW r (poke w seg off v s) = getW r s := getW_congr (by simp) r

theorem farCall_eq_next {seg off : Word} {s t : State} :
    farCall seg off s = .next t ↔
      CanWrite .word s.segs.ss (getW .sp s - 2) s ∧ CanWrite .word s.segs.ss (getW .sp s - 4) s ∧
      t = setPsPc seg off (poke .word s.segs.ss (getW .sp s - 4) s.pc (setW .sp (getW .sp s - 4) (afterFirstPush s))) := by
  have e : getW .sp (afterFirstPush s) - 2 = getW .sp s - 4 := by
    rw [getW_poke, getW_setW_same]; bv_omega
  simp only [farCall, andThen_eq_next, Host.Outcome.next.injEq]
  constructor
  · rintro ⟨s1, h1, s2, h2, rfl⟩
    obtain ⟨c1, rfl⟩ := pushWord_eq_next.mp h1
    obtain ⟨c2, rfl⟩ := pushWord_eq_next.mp h2
    rw [e] at c2 ⊢
    simp only [poke_segs, setW_segs] at c2
    refine ⟨c1, (canWrite_congr (by simp) _ _ _).mp c2, ?_⟩
    simp only [poke_segs, setW_segs]
  · rintro ⟨c1, c2, rfl⟩
    refine ⟨_, pushWord_eq_next.mpr ⟨c1, rfl⟩, _, pushWord_eq_next.mpr ⟨?_, rfl⟩, ?_⟩
    · rw [e]; simp only [poke_segs, setW_segs]; exact (canWrite_congr (by simp) _ _ _).mpr c2
    · simp only [e, poke_segs, setW_segs]

theorem execCallReg_eq_next {r : WReg} {s t : State} :
    execCallReg r s = .next t ↔ r ≠ .sp ∧ nearCall (getW r s) s = .next t := by
  unfold execCallReg; split <;> simp [*]

theorem execCallMem16_eq_next {m : MemOp} {s t : State} :
    execCallMem16 m s = .next t ↔ CanRead .word (memSeg m s) (ea m s) s ∧
      nearCall (peek .word (memSeg m s) (ea m s) s) (afterRead .word (memSeg m s) (ea m s) s) = .next t := by
  simp only [execCallMem16, readMem, andThen_eq_next]
  constructor
  · rintro ⟨p, h, h'⟩
    obtain ⟨c, rfl⟩ := readAt_eq_next.mp h
    exact ⟨c, h'⟩
  · rintro ⟨c, h⟩; exact ⟨_, readAt_of_canRead c, h⟩

theorem execCallMem32_eq_next {m : MemOp} {s t : State} :
    execCallMem32 m s = .next t ↔ CanRead32 (memSeg m s) (ea m s) s ∧
      farCall (peek .word (memSeg m s) (ea m s + 2) (afterRead .word (memSeg m s) (ea m s) s))
        (peek .word (memSeg m s) (ea m s) s)
        (afterRead .word (memSeg m s) (ea m s + 2) (afterRead .word (memSeg m s) (ea m s) s)) = .next t := by
  simp only [execCallMem32, andThen_eq_next]
  constructor
  · rintro ⟨p, h, h'⟩
    obtain ⟨c, rfl⟩ := readPtr32_eq_next.mp h
    exact ⟨c, h'⟩
  · rintro ⟨c, h⟩; exact ⟨_, readPtr32_eq_next.mpr ⟨c, rfl⟩, h⟩

theorem execBrMem16_eq_next {m : MemOp} {s t : State} :
    execBrMem16 m s = .next t ↔ CanRead .word (memSeg m s) (ea m s) s ∧
      t = setPc (peek .word (memSeg m s) (ea m s) s) (afterRead .word (memSeg m s) (ea m s) s) := by
  simp only [execBrMem16, readMem, andThen_eq_next]
  constructor
  · rintro ⟨p, h, h'⟩
    obtain ⟨c, rfl⟩ := readAt_eq_next.mp h
    exact ⟨c, (Host.Outcome.next.inj h').symm⟩
  · rintro ⟨c, rfl⟩; exact ⟨_, readAt_of_canRead c, rfl⟩

theorem execBrMem32_eq_next {m : MemOp} {s t : State} :
    execBrMem32 m s = .next t ↔ CanRead32 (memSeg m s) (ea m s) s ∧
      t = setPsPc (peek .word (memSeg m s) (ea m s + 2) (afterRead .word (memSeg m s) (ea m s) s))
        (peek .word (memSeg m s) (ea m s) s)
        (afterRead .word (memSeg m s) (ea m s + 2) (afterRead .word (memSeg m s) (ea m s) s)) := by
  simp only [execBrMem32, andThen_eq_next]
  constructor
  · rintro ⟨p, h, h'⟩
    obtain ⟨c, rfl⟩ := readPtr32_eq_next.mp h
    exact ⟨c, (Host.Outcome.next.inj h').symm⟩
  · rintro ⟨c, rfl⟩; exact ⟨_, readPtr32_eq_next.mpr ⟨c, rfl⟩, rfl⟩

/-! ## MOV -/

theorem execMovMemImm_eq_next {m : MemOp} {imm : Imm} {s t : State} :
    execMovMemImm m imm s = .next t ↔ CanWrite imm.width (memSeg m s) (ea m s) s ∧
      t = poke imm.width (memSeg m s) (ea m s) imm.val s := writeAt_eq_next

theorem execMovAccDmem_eq_next {w : Width} {addr : Word} {s t : State} :
    execMovAccDmem w addr s = .next t ↔ CanRead w s.segs.ds0 addr s ∧
      t = setAcc w (peek w s.segs.ds0 addr s) (afterRead w s.segs.ds0 addr s) := by
  simp only [execMovAccDmem, readMem, andThen_eq_next]
  constructor
  · rintro ⟨p, h, h'⟩
    obtain ⟨c, rfl⟩ := readAt_eq_next.mp h
    exact ⟨c, (Host.Outcome.next.inj h').symm⟩
  · rintro ⟨c, rfl⟩; exact ⟨_, readAt_of_canRead c, rfl⟩

/-! ## SUB, TEST, SHL, PUSH -/

theorem execSubMemReg_eq_next {m : MemOp} {r : Reg} {s t : State} :
    execSubMemReg m r s = .next t ↔
      CanRead r.width (memSeg m s) (ea m s) s ∧ CanWrite r.width (memSeg m s) (ea m s) s ∧
      t = setFlags (subFlags (peek r.width (memSeg m s) (ea m s) s) (getR r s))
        (poke r.width (memSeg m s) (ea m s) (peek r.width (memSeg m s) (ea m s) s - getR r s)
          (afterRead r.width (memSeg m s) (ea m s) s)) := by
  simp only [execSubMemReg, andThen_eq_next]
  constructor
  · rintro ⟨p, h, h'⟩
    obtain ⟨c, c', rfl⟩ := modifyMem_eq_next.mp h
    exact ⟨c, c', (Host.Outcome.next.inj h').symm⟩
  · rintro ⟨c, c', rfl⟩; exact ⟨_, modifyMem_eq_next.mpr ⟨c, c', rfl⟩, rfl⟩

theorem execTestMemImm_eq_next {m : MemOp} {imm : Imm} {s t : State} :
    execTestMemImm m imm s = .next t ↔ CanRead imm.width (memSeg m s) (ea m s) s ∧
      t = setFlags (testFlags (peek imm.width (memSeg m s) (ea m s) s) imm.val s)
        (afterRead imm.width (memSeg m s) (ea m s) s) := by
  simp only [execTestMemImm, readMem, andThen_eq_next]
  constructor
  · rintro ⟨p, h, h'⟩
    obtain ⟨c, rfl⟩ := readAt_eq_next.mp h
    exact ⟨c, (Host.Outcome.next.inj h').symm⟩
  · rintro ⟨c, rfl⟩; exact ⟨_, readAt_of_canRead c, rfl⟩

theorem execShlMem_eq_next {w : Width} {m : MemOp} {s t : State} :
    execShlMem w m s = .next t ↔ CanRead w (memSeg m s) (ea m s) s ∧ CanWrite w (memSeg m s) (ea m s) s ∧
      t = setFlags (shlFlags (peek w (memSeg m s) (ea m s) s) s)
        (poke w (memSeg m s) (ea m s) (peek w (memSeg m s) (ea m s) s <<< 1) (afterRead w (memSeg m s) (ea m s) s)) := by
  simp only [execShlMem, andThen_eq_next]
  constructor
  · rintro ⟨p, h, h'⟩
    obtain ⟨c, c', rfl⟩ := modifyMem_eq_next.mp h
    exact ⟨c, c', (Host.Outcome.next.inj h').symm⟩
  · rintro ⟨c, c', rfl⟩; exact ⟨_, modifyMem_eq_next.mpr ⟨c, c', rfl⟩, rfl⟩

theorem execPushMem_eq_next {m : MemOp} {s t : State} :
    execPushMem m s = .next t ↔ CanRead .word (memSeg m s) (ea m s) s ∧
      CanWrite .word s.segs.ss (getW .sp s - 2) s ∧
      t = poke .word s.segs.ss (getW .sp s - 2) (peek .word (memSeg m s) (ea m s) s)
        (setW .sp (getW .sp s - 2) (afterRead .word (memSeg m s) (ea m s) s)) := by
  have e : getW .sp (afterRead .word (memSeg m s) (ea m s) s) = getW .sp s := getW_congr (by simp) _
  simp only [execPushMem, readMem, andThen_eq_next]
  constructor
  · rintro ⟨p, h, h'⟩
    obtain ⟨c, rfl⟩ := readAt_eq_next.mp h
    obtain ⟨c', rfl⟩ := pushWord_eq_next.mp h'
    rw [e, afterRead_segs] at *
    exact ⟨c, (canWrite_congr (by simp) _ _ _).mp c', rfl⟩
  · rintro ⟨c, c', rfl⟩
    refine ⟨_, readAt_of_canRead c, pushWord_eq_next.mpr ?_⟩
    rw [e, afterRead_segs]
    exact ⟨(canWrite_congr (by simp) _ _ _).mpr c', rfl⟩

/-! ## Block instructions -/

theorem execMovbk_eq_next {w : Width} {s t : State} :
    execMovbk w s = .next t ↔ CanRead w s.segs.ds0 (getW .ix s) s ∧ CanWrite w s.segs.ds1 (getW .iy s) s ∧
      t = stepReg w .iy (stepReg w .ix (poke w s.segs.ds1 (getW .iy s) (peek w s.segs.ds0 (getW .ix s) s)
        (afterRead w s.segs.ds0 (getW .ix s) s))) := by
  have e : getW .iy (afterRead w (segFor .srcBlock s) (getW .ix s) s) = getW .iy s := getW_congr (by simp) _
  have g : segFor .dstBlock (afterRead w (segFor .srcBlock s) (getW .ix s) s) = s.segs.ds1 := by
    simp [segFor, segOf, getS]
  simp only [execMovbk, readSrc, writeDst, andThen_eq_next]
  constructor
  · rintro ⟨p, h, s2, h2, h3⟩
    obtain ⟨c, rfl⟩ := readAt_eq_next.mp h
    obtain ⟨c', rfl⟩ := writeAt_eq_next.mp h2
    obtain rfl := Host.Outcome.next.inj h3
    simp only [e, g] at *
    exact ⟨c, (canWrite_congr (by simp) _ _ _).mp c', rfl⟩
  · rintro ⟨c, c', rfl⟩
    refine ⟨_, readAt_of_canRead c, _, writeAt_eq_next.mpr ⟨?_, rfl⟩, ?_⟩ <;> simp only [e, g]
    · exact (canWrite_congr (by simp) _ _ _).mpr c'
    · rfl

theorem execLdm_eq_next {w : Width} {s t : State} :
    execLdm w s = .next t ↔ CanRead w s.segs.ds0 (getW .ix s) s ∧
      t = stepReg w .ix (setAcc w (peek w s.segs.ds0 (getW .ix s) s) (afterRead w s.segs.ds0 (getW .ix s) s)) := by
  simp only [execLdm, readSrc, andThen_eq_next]
  constructor
  · rintro ⟨p, h, h'⟩
    obtain ⟨c, rfl⟩ := readAt_eq_next.mp h
    exact ⟨c, (Host.Outcome.next.inj h').symm⟩
  · rintro ⟨c, rfl⟩; exact ⟨_, readAt_of_canRead c, rfl⟩

theorem execStm_eq_next {w : Width} {s t : State} :
    execStm w s = .next t ↔ CanWrite w s.segs.ds1 (getW .iy s) s ∧
      t = stepReg w .iy (poke w s.segs.ds1 (getW .iy s) (getAcc w s) s) := by
  simp only [execStm, writeDst, andThen_eq_next]
  constructor
  · rintro ⟨p, h, h'⟩
    obtain ⟨c, rfl⟩ := writeAt_eq_next.mp h
    exact ⟨c, (Host.Outcome.next.inj h').symm⟩
  · rintro ⟨c, rfl⟩; exact ⟨_, writeAt_of_canWrite c _, rfl⟩

theorem execCmpbk_eq_next {w : Width} {s t : State} :
    execCmpbk w s = .next t ↔ CanRead w s.segs.ds0 (getW .ix s) s ∧ CanRead w s.segs.ds1 (getW .iy s) s ∧
      t = stepReg w .iy (stepReg w .ix (setFlags
        (subFlags (peek w s.segs.ds0 (getW .ix s) s)
          (peek w s.segs.ds1 (getW .iy s) (afterRead w s.segs.ds0 (getW .ix s) s)))
        (afterRead w s.segs.ds1 (getW .iy s) (afterRead w s.segs.ds0 (getW .ix s) s)))) := by
  have e : getW .iy (afterRead w (segFor .srcBlock s) (getW .ix s) s) = getW .iy s := getW_congr (by simp) _
  have g : segFor .dstBlock (afterRead w (segFor .srcBlock s) (getW .ix s) s) = s.segs.ds1 := by
    simp [segFor, segOf, getS]
  simp only [execCmpbk, readSrc, readDst, andThen_eq_next]
  constructor
  · rintro ⟨p, h, q, h2, h3⟩
    obtain ⟨c, rfl⟩ := readAt_eq_next.mp h
    obtain ⟨c', rfl⟩ := readAt_eq_next.mp h2
    obtain rfl := Host.Outcome.next.inj h3
    simp only [e, g] at *
    exact ⟨c, (canRead_congr (by simp) (by simp) _ _ _).mp c', rfl⟩
  · rintro ⟨c, c', rfl⟩
    refine ⟨_, readAt_of_canRead c, _, readAt_of_canRead ?_, ?_⟩ <;> simp only [e, g]
    · exact (canRead_congr (by simp) (by simp) _ _ _).mpr c'
    · rfl

theorem execCmpm_eq_next {w : Width} {s t : State} :
    execCmpm w s = .next t ↔ CanRead w s.segs.ds1 (getW .iy s) s ∧
      t = stepReg w .iy (setFlags (subFlags (getAcc w s) (peek w s.segs.ds1 (getW .iy s) s))
        (afterRead w s.segs.ds1 (getW .iy s) s)) := by
  simp only [execCmpm, readDst, andThen_eq_next]
  constructor
  · rintro ⟨p, h, h'⟩
    obtain ⟨c, rfl⟩ := readAt_eq_next.mp h
    exact ⟨c, (Host.Outcome.next.inj h').symm⟩
  · rintro ⟨c, rfl⟩; exact ⟨_, readAt_of_canRead c, rfl⟩

/-! ## Bit instructions and BTCLR -/

theorem immBitNumber_eq_next {w : Width} {n : Byte} {s : State} {b : Nat} :
    immBitNumber w n s = .next b ↔ (s.strictBitImm = true → n.toNat < w.bits) ∧ b = bitNumber w n := by
  unfold immBitNumber
  by_cases h : (s.strictBitImm && decide (w.bits ≤ n.toNat)) = true
  · rw [if_pos h]; simp only [Bool.and_eq_true, decide_eq_true_eq] at h
    simp [h.1, h.2]
  · rw [if_neg h]; simp only [Bool.and_eq_true, decide_eq_true_eq, not_and, not_le] at h
    exact ⟨fun e => ⟨h, (Host.Outcome.next.inj e).symm⟩, fun e => by rw [e.2]⟩

/-- Whether the operand of a bit instruction can be read. -/
def bitCanRead (o : BitOp) (s : State) : Prop :=
  match o with
  | .reg _ => True
  | .mem w m => CanRead w (memSeg m s) (ea m s) s

/-- Whether it can be written. -/
def bitCanWrite (o : BitOp) (s : State) : Prop :=
  match o with
  | .reg _ => True
  | .mem w m => CanWrite w (memSeg m s) (ea m s) s

def bitPeek (o : BitOp) (s : State) : BitVec o.width.bits :=
  match o with
  | .reg r => getR r s
  | .mem w m => peek w (memSeg m s) (ea m s) s

def bitAfterRead (o : BitOp) (s : State) : State :=
  match o with
  | .reg _ => s
  | .mem w m => afterRead w (memSeg m s) (ea m s) s

/-- The state with `v` written back to the operand, which has just been read. -/
def bitPoke (o : BitOp) (v : BitVec o.width.bits) (s : State) : State :=
  match o with
  | .reg r => setR r v s
  | .mem w m => poke w (memSeg m s) (ea m s) v (afterRead w (memSeg m s) (ea m s) s)

theorem testOperandBit_eq_next {o : BitOp} {b : Nat} {s t : State} :
    testOperandBit o b s = .next t ↔ bitCanRead o s ∧
      t = setFlags (test1Flags ((bitPeek o s).getLsbD b) s) (bitAfterRead o s) := by
  cases o with
  | reg r => exact ⟨fun h => ⟨trivial, (Host.Outcome.next.inj h).symm⟩, fun h => by rw [h.2]; rfl⟩
  | mem w m =>
    simp only [testOperandBit, readBitOp, readMem, andThen_eq_next]
    constructor
    · rintro ⟨p, h, h'⟩
      obtain ⟨c, rfl⟩ := readAt_eq_next.mp h
      exact ⟨c, (Host.Outcome.next.inj h').symm⟩
    · rintro ⟨c, rfl⟩; exact ⟨_, readAt_of_canRead c, rfl⟩

theorem modifyBitOp_eq_next {o : BitOp} {f : BitVec o.width.bits → BitVec o.width.bits} {s t : State} :
    modifyBitOp o f s = .next t ↔ bitCanRead o s ∧ bitCanWrite o s ∧ t = bitPoke o (f (bitPeek o s)) s := by
  cases o with
  | reg r => exact ⟨fun h => ⟨trivial, trivial, (Host.Outcome.next.inj h).symm⟩, fun h => by rw [h.2.2]; rfl⟩
  | mem w m =>
    simp only [modifyBitOp, andThen_eq_next]
    constructor
    · rintro ⟨p, h, h'⟩
      obtain ⟨c, c', rfl⟩ := modifyMem_eq_next.mp h
      exact ⟨c, c', (Host.Outcome.next.inj h').symm⟩
    · rintro ⟨c, c', rfl⟩; exact ⟨_, modifyMem_eq_next.mpr ⟨c, c', rfl⟩, rfl⟩

theorem testClearBranch_eq_next {a b : Nat} {d : Byte} {s t : State} :
    testClearBranch a b d s = .next t ↔ byteReadable a s = true ∧
      ¬ (inCode s a = true ∧ (peekByte a s).getLsbD b = true) ∧
      t = if (peekByte a s).getLsbD b then
          branchShort d (pokeByte a (clearBit .byte b (peekByte a s)) (noteRead a s))
        else noteRead a s := by
  unfold testClearBranch testBit
  by_cases h1 : byteReadable a s = true <;> by_cases h2 : inCode s a = true <;>
    by_cases h3 : (peekByte a s).getLsbD b = true <;> simp [h1, h2, h3, eq_comm]

/-- The meaning of every form with a bit-number byte: the number, then the form with that number. -/
theorem execTest1Imm_eq_next {o : BitOp} {n : Byte} {s t : State} :
    execTest1Imm o n s = .next t ↔ (s.strictBitImm = true → n.toNat < o.width.bits) ∧
      testOperandBit o (bitNumber o.width n) s = .next t := by
  simp only [execTest1Imm, andThen_eq_next, immBitNumber_eq_next]
  exact ⟨fun ⟨_, ⟨h, e⟩, h'⟩ => ⟨h, e ▸ h'⟩, fun ⟨h, h'⟩ => ⟨_, ⟨h, rfl⟩, h'⟩⟩

theorem execClr1Imm_eq_next {o : BitOp} {n : Byte} {s t : State} :
    execClr1Imm o n s = .next t ↔ (s.strictBitImm = true → n.toNat < o.width.bits) ∧
      modifyBitOp o (clearBit o.width (bitNumber o.width n)) s = .next t := by
  simp only [execClr1Imm, andThen_eq_next, immBitNumber_eq_next]
  exact ⟨fun ⟨_, ⟨h, e⟩, h'⟩ => ⟨h, e ▸ h'⟩, fun ⟨h, h'⟩ => ⟨_, ⟨h, rfl⟩, h'⟩⟩

theorem execSet1Imm_eq_next {o : BitOp} {n : Byte} {s t : State} :
    execSet1Imm o n s = .next t ↔ (s.strictBitImm = true → n.toNat < o.width.bits) ∧
      modifyBitOp o (setBit o.width (bitNumber o.width n)) s = .next t := by
  simp only [execSet1Imm, andThen_eq_next, immBitNumber_eq_next]
  exact ⟨fun ⟨_, ⟨h, e⟩, h'⟩ => ⟨h, e ▸ h'⟩, fun ⟨h, h'⟩ => ⟨_, ⟨h, rfl⟩, h'⟩⟩

theorem execNot1Imm_eq_next {o : BitOp} {n : Byte} {s t : State} :
    execNot1Imm o n s = .next t ↔ (s.strictBitImm = true → n.toNat < o.width.bits) ∧
      modifyBitOp o (invertBit o.width (bitNumber o.width n)) s = .next t := by
  simp only [execNot1Imm, andThen_eq_next, immBitNumber_eq_next]
  exact ⟨fun ⟨_, ⟨h, e⟩, h'⟩ => ⟨h, e ▸ h'⟩, fun ⟨h, h'⟩ => ⟨_, ⟨h, rfl⟩, h'⟩⟩

theorem execBtclr_eq_next {sfr n d : Byte} {s t : State} :
    execBtclr sfr n d s = .next t ↔ (s.strictBitImm = true → n.toNat < 8) ∧
      testClearBranch (sfrAddr s.idb sfr) (bitNumber .byte n) d s = .next t := by
  simp only [execBtclr, andThen_eq_next, immBitNumber_eq_next]
  exact ⟨fun ⟨_, ⟨h, e⟩, h'⟩ => ⟨h, e ▸ h'⟩, fun ⟨h, h'⟩ => ⟨_, ⟨h, rfl⟩, h'⟩⟩

end Sys2Proof.Machine
end

