-- ==== Sys2Proof/Laws/PerInstr.lean ====
section
/-! SUPPORT. The rows of spec/opcode_table.json (`match` and `mask`, first byte leftmost) and, per instruction, that its bytes
fit its row at every value of its operands. Beside it: no two rows overlap, and the decoder gives each row its constructor. -/

namespace Sys2Proof.Laws

/-- The leading bytes of a row, each with its mask: 1 where the row fixes the bit. -/
abbrev Row := List (Byte × Byte)

/-- Whether bytes start as a row says. -/
def Row.fits : Row → List Byte → Bool
  | [], _ => true
  | _ :: _, [] => false
  | (p, m) :: r, b :: bs => (b &&& m == p) && Row.fits r bs

/-- Whether some byte that both rows have differs in a bit that both fix. -/
def Row.disjoint : Row → Row → Bool
  | (p, m) :: r, (q, n) :: t => (p &&& n != q &&& m) || Row.disjoint r t
  | _, _ => false

/-- The row of an instruction. -/
def rowOf : Instr → Row
  | .callNear _ => [(0xE8, 0xFF)]
  | .callReg _ => [(0xFF, 0xFF), (0xD0, 0xF8)]
  | .callMem16 _ => [(0xFF, 0xFF), (0x10, 0x38)]
  | .callFar _ _ => [(0x9A, 0xFF)]
  | .callMem32 _ => [(0xFF, 0xFF), (0x18, 0x38)]
  | .brNear _ => [(0xE9, 0xFF)]
  | .brShort _ => [(0xEB, 0xFF)]
  | .brReg _ => [(0xFF, 0xFF), (0xE0, 0xF8)]
  | .brMem16 _ => [(0xFF, 0xFF), (0x20, 0x38)]
  | .brFar _ _ => [(0xEA, 0xFF)]
  | .brMem32 _ => [(0xFF, 0xFF), (0x28, 0x38)]
  | .bv _ => [(0x70, 0xFF)]
  | .bnv _ => [(0x71, 0xFF)]
  | .bc _ => [(0x72, 0xFF)]
  | .bnc _ => [(0x73, 0xFF)]
  | .be _ => [(0x74, 0xFF)]
  | .bne _ => [(0x75, 0xFF)]
  | .bnh _ => [(0x76, 0xFF)]
  | .bh _ => [(0x77, 0xFF)]
  | .bn _ => [(0x78, 0xFF)]
  | .bp _ => [(0x79, 0xFF)]
  | .bpe _ => [(0x7A, 0xFF)]
  | .bpo _ => [(0x7B, 0xFF)]
  | .blt _ => [(0x7C, 0xFF)]
  | .bge _ => [(0x7D, 0xFF)]
  | .ble _ => [(0x7E, 0xFF)]
  | .bgt _ => [(0x7F, 0xFF)]
  | .dbnzne _ => [(0xE0, 0xFF)]
  | .dbnze _ => [(0xE1, 0xFF)]
  | .dbnz _ => [(0xE2, 0xFF)]
  | .bcwz _ => [(0xE3, 0xFF)]
  | .movRegReg _ => [(0x8A, 0xFE), (0xC0, 0xC0)]
  | .movRegImm _ => [(0xB0, 0xF0)]
  | .mul _ _ _ => [(0x69, 0xFF), (0xC0, 0xC0)]
  | .movMemImm _ _ => [(0xC6, 0xFE), (0x00, 0x38)]
  | .movAccDmem _ _ => [(0xA0, 0xFE)]
  | .subMemReg _ _ => [(0x28, 0xFE)]
  | .testMemImm _ _ => [(0xF6, 0xFE), (0x00, 0x38)]
  | .shlMem _ _ => [(0xD0, 0xFE), (0x20, 0x38)]
  | .pushMem _ => [(0xFF, 0xFF), (0x30, 0x38)]
  | .movbk _ => [(0xA4, 0xFE)]
  | .cmpbk _ => [(0xA6, 0xFE)]
  | .stm _ => [(0xAA, 0xFE)]
  | .ldm _ => [(0xAC, 0xFE)]
  | .cmpm _ => [(0xAE, 0xFE)]
  | .test1Cl _ => [(0x0F, 0xFF), (0x10, 0xFE), (0x00, 0x38)]
  | .test1Imm _ _ => [(0x0F, 0xFF), (0x18, 0xFE), (0x00, 0x38)]
  | .clr1Cl _ => [(0x0F, 0xFF), (0x12, 0xFE), (0x00, 0x38)]
  | .clr1Imm _ _ => [(0x0F, 0xFF), (0x1A, 0xFE), (0x00, 0x38)]
  | .set1Cl _ => [(0x0F, 0xFF), (0x14, 0xFE), (0x00, 0x38)]
  | .set1Imm _ _ => [(0x0F, 0xFF), (0x1C, 0xFE), (0x00, 0x38)]
  | .not1Cl _ => [(0x0F, 0xFF), (0x16, 0xFE), (0x00, 0x38)]
  | .not1Imm _ _ => [(0x0F, 0xFF), (0x1E, 0xFE), (0x00, 0x38)]
  | .btclr _ _ _ => [(0x0F, 0xFF), (0x9C, 0xFF)]

def rowsBranch : List Row := [
  [(0xE8, 0xFF)],
  [(0xFF, 0xFF), (0xD0, 0xF8)],
  [(0xFF, 0xFF), (0x10, 0x38)],
  [(0x9A, 0xFF)],
  [(0xFF, 0xFF), (0x18, 0x38)],
  [(0xE9, 0xFF)],
  [(0xEB, 0xFF)],
  [(0xFF, 0xFF), (0xE0, 0xF8)],
  [(0xFF, 0xFF), (0x20, 0x38)],
  [(0xEA, 0xFF)],
  [(0xFF, 0xFF), (0x28, 0x38)]]

def rowsConditional : List Row := [
  [(0x70, 0xFF)],
  [(0x71, 0xFF)],
  [(0x72, 0xFF)],
  [(0x73, 0xFF)],
  [(0x74, 0xFF)],
  [(0x75, 0xFF)],
  [(0x76, 0xFF)],
  [(0x77, 0xFF)],
  [(0x78, 0xFF)],
  [(0x79, 0xFF)],
  [(0x7A, 0xFF)],
  [(0x7B, 0xFF)],
  [(0x7C, 0xFF)],
  [(0x7D, 0xFF)],
  [(0x7E, 0xFF)],
  [(0x7F, 0xFF)],
  [(0xE0, 0xFF)],
  [(0xE1, 0xFF)],
  [(0xE2, 0xFF)],
  [(0xE3, 0xFF)]]

def rowsMove : List Row := [
  [(0x8A, 0xFE), (0xC0, 0xC0)],
  [(0xB0, 0xF0)],
  [(0x69, 0xFF), (0xC0, 0xC0)],
  [(0xC6, 0xFE), (0x00, 0x38)],
  [(0xA0, 0xFE)]]

def rowsMemory : List Row := [
  [(0x28, 0xFE)],
  [(0xF6, 0xFE), (0x00, 0x38)],
  [(0xD0, 0xFE), (0x20, 0x38)],
  [(0xFF, 0xFF), (0x30, 0x38)],
  [(0xA4, 0xFE)],
  [(0xA6, 0xFE)],
  [(0xAA, 0xFE)],
  [(0xAC, 0xFE)],
  [(0xAE, 0xFE)]]

def rowsBit : List Row := [
  [(0x0F, 0xFF), (0x10, 0xFE), (0x00, 0x38)],
  [(0x0F, 0xFF), (0x18, 0xFE), (0x00, 0x38)],
  [(0x0F, 0xFF), (0x12, 0xFE), (0x00, 0x38)],
  [(0x0F, 0xFF), (0x1A, 0xFE), (0x00, 0x38)],
  [(0x0F, 0xFF), (0x14, 0xFE), (0x00, 0x38)],
  [(0x0F, 0xFF), (0x1C, 0xFE), (0x00, 0x38)],
  [(0x0F, 0xFF), (0x16, 0xFE), (0x00, 0x38)],
  [(0x0F, 0xFF), (0x1E, 0xFE), (0x00, 0x38)],
  [(0x0F, 0xFF), (0x9C, 0xFF)]]

/-- The 54 rows, in the table's order. -/
def rows : List Row := rowsBranch ++ rowsConditional ++ rowsMove ++ rowsMemory ++ rowsBit

/-- No bytes fit two rows, but that the rows of CALL and BR regptr16 are `mod` = 11 of the rows of CALL and BR memptr16, where
`mod` = 11 is no memory operand (R55). -/
theorem rows_disjoint : rows.Pairwise fun r t => Row.disjoint r t = true ∨
    (r, t) = ([(0xFF, 0xFF), (0xD0, 0xF8)], [(0xFF, 0xFF), (0x10, 0x38)]) ∨
    (r, t) = ([(0xFF, 0xFF), (0xE0, 0xF8)], [(0xFF, 0xFF), (0x20, 0x38)]) := by decide

/-- The fixed bits of a row as the table's number, first byte leftmost. -/
def Row.number (r : Row) : Nat := r.foldl (fun n c => n * 256 + c.1.toNat) 0

/-- The decoder gives the fixed bits of each row, every other bit zero, an instruction of that row. -/
theorem rows_decode : rows.all (fun r => (decodeTableWord (8 * r.length) r.number).map rowOf == some r) = true := by decide

namespace TableRow

/-- The instruction's bytes start as its row of the opcode table says (spec/30_encoding.md R64, R65), and that row is one of the
table's. -/
def Statement (i : Instr) : Prop := rowOf i ∈ rows ∧ Row.fits (rowOf i) (encode i) = true

theorem fits_one {a p m : Byte} (bs : List Byte) (h : a &&& m = p) : Row.fits [(p, m)] (a :: bs) = true := by
  simp [Row.fits, h]

theorem fits_two {a b p q m n : Byte} (bs : List Byte) (h : a &&& m = p) (h' : b &&& n = q) :
    Row.fits [(p, m), (q, n)] (a :: b :: bs) = true := by simp [Row.fits, h, h']

theorem fits_three {a b c p q r m n o : Byte} (bs : List Byte) (h : a &&& m = p) (h' : b &&& n = q) (h'' : c &&& o = r) :
    Row.fits [(p, m), (q, n), (r, o)] (a :: b :: c :: bs) = true := by simp [Row.fits, h, h', h'']

theorem specByte_mid : ∀ (mod : BitVec 2) (mid mem : BitVec 3), specByte mod mid mem &&& 0x38 = specByte 0 mid 0 := by decide

/-- The memory specification byte keeps the middle field it is given. -/
theorem midField_encodeMem (mid : BitVec 3) (m : MemOp) :
    ∃ b bs, encodeMem mid m = b :: bs ∧ b &&& 0x38 = specByte 0 mid 0 := by
  rcases m with a | ⟨⟨⟩⟩ | ⟨⟨⟩, ⟨⟩⟩ | ⟨⟨⟩, ⟨⟩⟩ | ⟨⟨⟩, ⟨⟩, _ | ⟨⟨⟩⟩⟩ <;>
    exact ⟨_, _, rfl, specByte_mid _ _ _⟩

theorem midField_encodeBitOp (o : BitOp) : ∃ b bs, encodeBitOp o = b :: bs ∧ b &&& 0x38 = 0 := by
  cases o with
  | reg r => rcases r with ⟨⟨⟩⟩ | ⟨⟨⟩⟩ <;> exact ⟨_, _, rfl, by decide⟩
  | mem w m => exact midField_encodeMem 0 m

theorem callNear (d : Word) : Statement (.callNear d) := ⟨by simp only [rowOf]; decide, rfl⟩
theorem callReg (r : WReg) : Statement (.callReg r) := ⟨by simp only [rowOf]; decide, by cases r <;> decide⟩
theorem callMem16 (m : MemOp) : Statement (.callMem16 m) := by
  obtain ⟨b, bs, e, h⟩ := midField_encodeMem 2 m
  exact ⟨by simp only [rowOf]; decide, by simp only [rowOf, encode]; rw [e]; exact fits_two _ (by decide) (h.trans (by decide))⟩
theorem callFar (off seg : Word) : Statement (.callFar off seg) := ⟨by simp only [rowOf]; decide, rfl⟩
theorem callMem32 (m : MemOp) : Statement (.callMem32 m) := by
  obtain ⟨b, bs, e, h⟩ := midField_encodeMem 3 m
  exact ⟨by simp only [rowOf]; decide, by simp only [rowOf, encode]; rw [e]; exact fits_two _ (by decide) (h.trans (by decide))⟩
theorem brNear (d : Word) : Statement (.brNear d) := ⟨by simp only [rowOf]; decide, rfl⟩
theorem brShort (d : Byte) : Statement (.brShort d) := ⟨by simp only [rowOf]; decide, rfl⟩
theorem brReg (r : WReg) : Statement (.brReg r) := ⟨by simp only [rowOf]; decide, by cases r <;> decide⟩
theorem brMem16 (m : MemOp) : Statement (.brMem16 m) := by
  obtain ⟨b, bs, e, h⟩ := midField_encodeMem 4 m
  exact ⟨by simp only [rowOf]; decide, by simp only [rowOf, encode]; rw [e]; exact fits_two _ (by decide) (h.trans (by decide))⟩
theorem brFar (off seg : Word) : Statement (.brFar off seg) := ⟨by simp only [rowOf]; decide, rfl⟩
theorem brMem32 (m : MemOp) : Statement (.brMem32 m) := by
  obtain ⟨b, bs, e, h⟩ := midField_encodeMem 5 m
  exact ⟨by simp only [rowOf]; decide, by simp only [rowOf, encode]; rw [e]; exact fits_two _ (by decide) (h.trans (by decide))⟩
theorem bv (d : Byte) : Statement (.bv d) := ⟨by simp only [rowOf]; decide, rfl⟩
theorem bnv (d : Byte) : Statement (.bnv d) := ⟨by simp only [rowOf]; decide, rfl⟩
theorem bc (d : Byte) : Statement (.bc d) := ⟨by simp only [rowOf]; decide, rfl⟩
theorem bnc (d : Byte) : Statement (.bnc d) := ⟨by simp only [rowOf]; decide, rfl⟩
theorem be (d : Byte) : Statement (.be d) := ⟨by simp only [rowOf]; decide, rfl⟩
theorem bne (d : Byte) : Statement (.bne d) := ⟨by simp only [rowOf]; decide, rfl⟩
theorem bnh (d : Byte) : Statement (.bnh d) := ⟨by simp only [rowOf]; decide, rfl⟩
theorem bh (d : Byte) : Statement (.bh d) := ⟨by simp only [rowOf]; decide, rfl⟩
theorem bn (d : Byte) : Statement (.bn d) := ⟨by simp only [rowOf]; decide, rfl⟩
theorem bp (d : Byte) : Statement (.bp d) := ⟨by simp only [rowOf]; decide, rfl⟩
theorem bpe (d : Byte) : Statement (.bpe d) := ⟨by simp only [rowOf]; decide, rfl⟩
theorem bpo (d : Byte) : Statement (.bpo d) := ⟨by simp only [rowOf]; decide, rfl⟩
theorem blt (d : Byte) : Statement (.blt d) := ⟨by simp only [rowOf]; decide, rfl⟩
theorem bge (d : Byte) : Statement (.bge d) := ⟨by simp only [rowOf]; decide, rfl⟩
theorem ble (d : Byte) : Statement (.ble d) := ⟨by simp only [rowOf]; decide, rfl⟩
theorem bgt (d : Byte) : Statement (.bgt d) := ⟨by simp only [rowOf]; decide, rfl⟩
theorem dbnzne (d : Byte) : Statement (.dbnzne d) := ⟨by simp only [rowOf]; decide, rfl⟩
theorem dbnze (d : Byte) : Statement (.dbnze d) := ⟨by simp only [rowOf]; decide, rfl⟩
theorem dbnz (d : Byte) : Statement (.dbnz d) := ⟨by simp only [rowOf]; decide, rfl⟩
theorem bcwz (d : Byte) : Statement (.bcwz d) := ⟨by simp only [rowOf]; decide, rfl⟩
theorem movRegReg (p : RegPair) : Statement (.movRegReg p) :=
  ⟨by simp only [rowOf]; decide, by rcases p with ⟨⟨⟩, ⟨⟩⟩ | ⟨⟨⟩, ⟨⟩⟩ <;> decide⟩
theorem movRegImm (p : RegImm) : Statement (.movRegImm p) :=
  ⟨by simp only [rowOf]; decide, by rcases p with ⟨⟨⟩, _⟩ | ⟨⟨⟩, _⟩ <;> rfl⟩
theorem mul (d x : WReg) (imm : Word) : Statement (.mul d x imm) :=
  ⟨by simp only [rowOf]; decide, by cases d <;> cases x <;> rfl⟩
theorem movMemImm (m : MemOp) (imm : Imm) : Statement (.movMemImm m imm) := by
  obtain ⟨b, bs, e, h⟩ := midField_encodeMem 0 m
  refine ⟨by simp only [rowOf]; decide, ?_⟩
  simp only [rowOf, encode]; rw [e]; exact fits_two _ (by cases imm <;> (simp only [Imm.width]; decide)) (h.trans (by decide))
theorem movAccDmem (w : Width) (a : Word) : Statement (.movAccDmem w a) :=
  ⟨by simp only [rowOf]; decide, by cases w <;> rfl⟩
theorem subMemReg (m : MemOp) (r : Reg) : Statement (.subMemReg m r) :=
  ⟨by simp only [rowOf]; decide, by cases r <;> exact fits_one _ (by simp only [Reg.width]; decide)⟩
theorem testMemImm (m : MemOp) (imm : Imm) : Statement (.testMemImm m imm) := by
  obtain ⟨b, bs, e, h⟩ := midField_encodeMem 0 m
  refine ⟨by simp only [rowOf]; decide, ?_⟩
  simp only [rowOf, encode]; rw [e]; exact fits_two _ (by cases imm <;> (simp only [Imm.width]; decide)) (h.trans (by decide))
theorem shlMem (w : Width) (m : MemOp) : Statement (.shlMem w m) := by
  obtain ⟨b, bs, e, h⟩ := midField_encodeMem 4 m
  refine ⟨by simp only [rowOf]; decide, ?_⟩
  simp only [rowOf, encode]; rw [e]; exact fits_two _ (by cases w <;> decide) (h.trans (by decide))
theorem pushMem (m : MemOp) : Statement (.pushMem m) := by
  obtain ⟨b, bs, e, h⟩ := midField_encodeMem 6 m
  exact ⟨by simp only [rowOf]; decide, by simp only [rowOf, encode]; rw [e]; exact fits_two _ (by decide) (h.trans (by decide))⟩
theorem movbk (w : Width) : Statement (.movbk w) := ⟨by simp only [rowOf]; decide, by cases w <;> decide⟩
theorem cmpbk (w : Width) : Statement (.cmpbk w) := ⟨by simp only [rowOf]; decide, by cases w <;> decide⟩
theorem stm (w : Width) : Statement (.stm w) := ⟨by simp only [rowOf]; decide, by cases w <;> decide⟩
theorem ldm (w : Width) : Statement (.ldm w) := ⟨by simp only [rowOf]; decide, by cases w <;> decide⟩
theorem cmpm (w : Width) : Statement (.cmpm w) := ⟨by simp only [rowOf]; decide, by cases w <;> decide⟩
theorem test1Cl (o : BitOp) : Statement (.test1Cl o) := by
  obtain ⟨b, bs, e, h⟩ := midField_encodeBitOp o
  refine ⟨by simp only [rowOf]; decide, ?_⟩
  simp only [rowOf, encode]; rw [e]
  exact fits_three _ (by decide) (by rcases o with ⟨⟨⟩⟩ | ⟨⟨⟩, m⟩ <;> (simp only [BitOp.width, Reg.width]; decide)) h
theorem test1Imm (o : BitOp) (n : Byte) : Statement (.test1Imm o n) := by
  obtain ⟨b, bs, e, h⟩ := midField_encodeBitOp o
  refine ⟨by simp only [rowOf]; decide, ?_⟩
  simp only [rowOf, encode]; rw [e]
  exact fits_three _ (by decide) (by rcases o with ⟨⟨⟩⟩ | ⟨⟨⟩, m⟩ <;> (simp only [BitOp.width, Reg.width]; decide)) h
theorem clr1Cl (o : BitOp) : Statement (.clr1Cl o) := by
  obtain ⟨b, bs, e, h⟩ := midField_encodeBitOp o
  refine ⟨by simp only [rowOf]; decide, ?_⟩
  simp only [rowOf, encode]; rw [e]
  exact fits_three _ (by decide) (by rcases o with ⟨⟨⟩⟩ | ⟨⟨⟩, m⟩ <;> (simp only [BitOp.width, Reg.width]; decide)) h
theorem clr1Imm (o : BitOp) (n : Byte) : Statement (.clr1Imm o n) := by
  obtain ⟨b, bs, e, h⟩ := midField_encodeBitOp o
  refine ⟨by simp only [rowOf]; decide, ?_⟩
  simp only [rowOf, encode]; rw [e]
  exact fits_three _ (by decide) (by rcases o with ⟨⟨⟩⟩ | ⟨⟨⟩, m⟩ <;> (simp only [BitOp.width, Reg.width]; decide)) h
theorem set1Cl (o : BitOp) : Statement (.set1Cl o) := by
  obtain ⟨b, bs, e, h⟩ := midField_encodeBitOp o
  refine ⟨by simp only [rowOf]; decide, ?_⟩
  simp only [rowOf, encode]; rw [e]
  exact fits_three _ (by decide) (by rcases o with ⟨⟨⟩⟩ | ⟨⟨⟩, m⟩ <;> (simp only [BitOp.width, Reg.width]; decide)) h
theorem set1Imm (o : BitOp) (n : Byte) : Statement (.set1Imm o n) := by
  obtain ⟨b, bs, e, h⟩ := midField_encodeBitOp o
  refine ⟨by simp only [rowOf]; decide, ?_⟩
  simp only [rowOf, encode]; rw [e]
  exact fits_three _ (by decide) (by rcases o with ⟨⟨⟩⟩ | ⟨⟨⟩, m⟩ <;> (simp only [BitOp.width, Reg.width]; decide)) h
theorem not1Cl (o : BitOp) : Statement (.not1Cl o) := by
  obtain ⟨b, bs, e, h⟩ := midField_encodeBitOp o
  refine ⟨by simp only [rowOf]; decide, ?_⟩
  simp only [rowOf, encode]; rw [e]
  exact fits_three _ (by decide) (by rcases o with ⟨⟨⟩⟩ | ⟨⟨⟩, m⟩ <;> (simp only [BitOp.width, Reg.width]; decide)) h
theorem not1Imm (o : BitOp) (n : Byte) : Statement (.not1Imm o n) := by
  obtain ⟨b, bs, e, h⟩ := midField_encodeBitOp o
  refine ⟨by simp only [rowOf]; decide, ?_⟩
  simp only [rowOf, encode]; rw [e]
  exact fits_three _ (by decide) (by rcases o with ⟨⟨⟩⟩ | ⟨⟨⟩, m⟩ <;> (simp only [BitOp.width, Reg.width]; decide)) h
theorem btclr (sfr n d : Byte) : Statement (.btclr sfr n d) := ⟨by simp only [rowOf]; decide, rfl⟩

end TableRow

end Sys2Proof.Laws
end

