-- ==== Sys2Proof/Laws/Step.lean ====
section
/-! SUPPORT. What fetching, a step and a run of events do, each said once. Proofs about steps and runs cite these and unfold
neither the fetch nor the run. -/

namespace Sys2Proof.Machine

/-! ## Fetch -/

/-- Fetching bytes leaves its reads of special function registers in the history, the last one first, and nothing else. -/
theorem noteFetch_from (n k : Nat) (s : State) :
    noteFetch n (s.pc + BitVec.ofNat 16 k) { s with sfrLog := fetchReads k s ++ s.sfrLog } =
      { s with sfrLog := fetchReads (k + n) s ++ s.sfrLog } := by
  induction n generalizing k with
  | zero => rfl
  | succ n ih =>
    have e : s.pc + BitVec.ofNat 16 k + 1 = s.pc + BitVec.ofNat 16 (k + 1) := by
      apply BitVec.eq_of_toNat_eq; simp [BitVec.toNat_add]; omega
    have r : noteRead (fetchAddr s k) { s with sfrLog := fetchReads k s ++ s.sfrLog } =
        { s with sfrLog := fetchReads (k + 1) s ++ s.sfrLog } := by
      unfold noteRead fetchReads
      rw [List.range_succ]
      by_cases h : inSfr s.idb (fetchAddr s k) = true <;> simp [h]
    have := ih (k + 1)
    rw [← e, ← r, show k + 1 + n = k + (n + 1) by omega] at this
    exact this

theorem noteFetch_eq (n : Nat) (s : State) : noteFetch n s.pc s = { s with sfrLog := fetchReads n s ++ s.sfrLog } := by
  have h := noteFetch_from n 0 s
  simpa [fetchReads] using h

/-- Where the code from the `k`-th byte on is `bs`, the fetch reads `bs`, and goes on after it with what it left of the history. -/
theorem fetchFrom_of_bytes (n k : Nat) (bs : List Byte) (s : State) (hn : bs.length ≤ n)
    (h : ∀ j, (hj : j < bs.length) → fetchedByte s (k + j) = some bs[j]) :
    fetchFrom n { s with sfrLog := fetchReads k s ++ s.sfrLog } (s.pc + BitVec.ofNat 16 k) =
      bs ++ fetchFrom (n - bs.length) { s with sfrLog := fetchReads (k + bs.length) s ++ s.sfrLog }
        (s.pc + BitVec.ofNat 16 (k + bs.length)) := by
  induction bs generalizing n k with
  | nil => rfl
  | cons b bs ih =>
    cases n with
    | zero => simp at hn
    | succ n =>
      have e : s.pc + BitVec.ofNat 16 k + 1 = s.pc + BitVec.ofNat 16 (k + 1) := by
        apply BitVec.eq_of_toNat_eq; simp [BitVec.toNat_add]; omega
      have r := noteFetch_from 1 k s
      have hr := ih n (k + 1) (by simpa using hn) fun j hj => by
        have := h (j + 1) (by simpa using hj)
        rwa [List.getElem_cons_succ, show k + (j + 1) = k + 1 + j by omega] at this
      have hb : fetchedByte s k = some b := h 0 (by simp)
      rw [← e, ← r] at hr
      change fetchFrom n (noteRead (fetchAddr s k) { s with sfrLog := fetchReads k s ++ s.sfrLog })
        (s.pc + BitVec.ofNat 16 k + 1) = _ at hr
      have a : phys (segFor .fetch { s with sfrLog := fetchReads k s ++ s.sfrLog }) (s.pc + BitVec.ofNat 16 k) =
        fetchAddr s k := rfl
      unfold fetchedByte at hb
      rw [fetchFrom, a, hr, List.length_cons, Nat.add_sub_add_right, Nat.add_right_comm k, Nat.add_assoc k]
      by_cases hs : inSfr s.idb (fetchAddr s k) = true
      · rw [if_pos hs, Option.some.injEq] at hb
        rw [if_pos (by simp [byteReadable, hs])]
        simp [peekByte, hs, hb]
      · rw [if_neg hs] at hb
        rw [if_pos (by simp [byteReadable, hb])]
        simp [peekByte, hs, hb]

theorem fetchBytes_of_codeAt {s : State} {bs : List Byte} (hn : bs.length ≤ maxLength) (h : CodeAt s bs) :
    fetchBytes s = bs ++ fetchFrom (maxLength - bs.length) { s with sfrLog := fetchReads bs.length s ++ s.sfrLog }
      (s.pc + BitVec.ofNat 16 bs.length) := by
  have hr := fetchFrom_of_bytes maxLength 0 bs s hn fun j hj => by rw [Nat.zero_add]; exact h j hj
  simpa [fetchReads, fetchBytes] using hr

/-- The fetch ends before the first byte that has no value. -/
theorem fetchFrom_of_unreadable {k : Nat} {s : State} (h1 : inSfr s.idb (fetchAddr s k) = false)
    (h2 : memGet s.mem (fetchAddr s k) = none) (n : Nat) (log : List SfrEvent) :
    fetchFrom n { s with sfrLog := log } (s.pc + BitVec.ofNat 16 k) = [] := by
  have h : byteReadable (fetchAddr s k) { s with sfrLog := log } = false := by simp [byteReadable, h1, h2]
  cases n with
  | zero => rfl
  | succ n => exact if_neg (Bool.eq_false_iff.mp h)

/-! ## A step -/

/-- An instruction executes on the state with its fetches in the history, PC past it and the step counted. -/
theorem executeFetched_eq (n : Nat) (i : Instr) (s : State) :
    executeFetched n i s = exec i { s with
      pc := s.pc + BitVec.ofNat 16 n, tick := s.tick + 1, sfrLog := fetchReads n s ++ s.sfrLog } := by
  rw [executeFetched, noteFetch_eq]; rfl

/-- A step answers a next state when the bytes at PC decode and the instruction does. -/
theorem step_eq_next {s t : State} : step s = .next t ↔ ∃ i rest, decode (fetchBytes s) = .ok i rest ∧
    executeFetched ((fetchBytes s).length - rest.length) i s = .next t := by
  unfold step
  cases decode (fetchBytes s) <;> simp

/-! ## A run -/

theorem runEvents_instruction_eq_next {es : List Event} {s t : State} :
    RunsTo (.instruction :: es) s t ↔ ∃ u, step s = .next u ∧ RunsTo es u t := andThen_eq_next

/-- A run in which no interrupt is taken is as many steps as it has events. -/
theorem runEvents_of_noInterruptTaken {es : List Event} (h : NoInterruptTaken es) (s : State) :
    runEvents es s = Host.Core.run core es.length s := by
  induction es generalizing s with
  | nil => rfl
  | cons e es ih =>
    obtain rfl := h e (List.mem_cons_self ..)
    have ih := ih fun e' he => h e' (List.mem_cons_of_mem _ he)
    cases hs : step s <;>
      (have hc : core.step s = _ := hs
       simp [runEvents, Host.Core.run, andThen, hs, hc, ih]
       rfl)

/-- What every step keeps, a run in which no interrupt is taken keeps. -/
theorem runsTo_induction {Kept : State → State → Prop} (refl : ∀ s, Kept s s)
    (cons : ∀ s u t, step s = .next u → Kept u t → Kept s t) {es : List Event} (h : NoInterruptTaken es) {s t : State}
    (hr : RunsTo es s t) : Kept s t := by
  induction es generalizing s with
  | nil => obtain rfl := Host.Outcome.next.inj hr; exact refl s
  | cons e es ih =>
    obtain rfl := h e (List.mem_cons_self ..)
    obtain ⟨u, hu, hr⟩ := runEvents_instruction_eq_next.mp hr
    exact cons s u t hu (ih (fun e' he => h e' (List.mem_cons_of_mem _ he)) hr)

end Sys2Proof.Machine
end

