-- ==== Sys2Proof/Tests/Slice0.lean ====
section
/-! SUPPORT. The model's own tests. Expected results are the spec's: words written out from its encodings
(spec/30_encoding.md, spec/95_test_vectors.md section 1) and its derived vectors (section 2), one step each. After them, for
every obligation with hypotheses, a state and operands that meet them (`witness_…`). -/

namespace Sys2Proof.Tests

open Sys2Proof Sys2Proof.Machine Sys2Proof.Claims

/-! ## Small states -/

/-- Lays bytes from a 20-bit address upward. -/
def put (a : Nat) : List Byte → State → State
  | [], s => s
  | b :: bs, s => put (a + 1) bs { s with mem := memSet s.mem a b }

/-- The segments of the spec's vectors, SP = 0100H. -/
def base : State :=
  { State.reset with
    segs := { ps := 0x1000, ss := 0x3000, ds0 := 0x2000, ds1 := 0x4000 }
    regs := { State.reset.regs with sp := 0x0100 } }

/-- `s` with the bytes of an instruction at PS:PC. -/
def code (bs : List Byte) (s : State) : State := put (phys s.segs.ps s.pc) bs s

def w (r : WReg) (v : Word) (s : State) : State := setW r v s

/-- What a test looks at in a next state; nothing when the machine stops. -/
def view {α : Type} (o : Host.Outcome State Fault Refusal) (f : State → α) : Option α :=
  match o with
  | .next t => some (f t)
  | .fault _ => none
  | .refused _ => none

/-- Why the machine stopped, if it did. -/
def stop (o : Host.Outcome State Fault Refusal) : Option (Fault ⊕ Refusal) :=
  match o with
  | .next _ => none
  | .fault r => some (.inl r)
  | .refused r => some (.inr r)

/-- The bytes of memory at an address and the one after it. -/
def two (s : State) (a : Nat) : Option Byte × Option Byte := (memGet s.mem a, memGet s.mem (a + 1))

/-! ## Well-formedness: the one check, and its neighbours -/

theorem test_wf_call_sp : Instr.wf (.callReg .sp) = false := by decide
theorem test_wf_others : Instr.wf (.callReg .aw) = true ∧ Instr.wf (.brReg .sp) = true := by decide

/-! ## Decoding: every constructor, from words written out bit by bit -/

/-- Whether the bytes are exactly the instruction. -/
def reads (bs : List Byte) (i : Instr) : Bool := decode bs == .ok i []

theorem test_decode_call :
    reads [0b11101000, 0xFD, 0xFF] (.callNear 0xFFFD) = true ∧
    reads [0b11111111, 0b11010000] (.callReg .aw) = true ∧
    reads [0b11111111, 0b10010100, 0x02, 0x01] (.callMem16 (.index .ix (.word 0x0102))) = true ∧
    reads [0b10011010, 0x00, 0x00, 0xFF, 0xFF] (.callFar 0x0000 0xFFFF) = true ∧
    reads [0b11111111, 0b01011110, 0xF0] (.callMem32 (.based .bp (.byte 0xF0))) = true := by decide

theorem test_decode_branch :
    reads [0b11101001, 0x00, 0x80] (.brNear 0x8000) = true ∧
    reads [0b11101011, 0xFE] (.brShort 0xFE) = true ∧
    reads [0b11111111, 0b11100011] (.brReg .bw) = true ∧
    reads [0b11111111, 0b00100110, 0x00, 0x03] (.brMem16 (.direct 0x0300)) = true ∧
    reads [0b11101010, 0x34, 0x12, 0x00, 0xF0] (.brFar 0x1234 0xF000) = true ∧
    reads [0b11111111, 0b10101011, 0x04, 0x01] (.brMem32 (.basedIndex .bp .iy (some (.word 0x0104)))) = true := by decide

theorem test_decode_conditional :
    reads [0b01110000, 1] (.bv 1) = true ∧ reads [0b01110001, 1] (.bnv 1) = true ∧
    reads [0b01110010, 1] (.bc 1) = true ∧ reads [0b01110011, 1] (.bnc 1) = true ∧
    reads [0b01110100, 1] (.be 1) = true ∧ reads [0b01110101, 1] (.bne 1) = true ∧
    reads [0b01110110, 1] (.bnh 1) = true ∧ reads [0b01110111, 1] (.bh 1) = true ∧
    reads [0b01111000, 1] (.bn 1) = true ∧ reads [0b01111001, 1] (.bp 1) = true ∧
    reads [0b01111010, 1] (.bpe 1) = true ∧ reads [0b01111011, 1] (.bpo 1) = true ∧
    reads [0b01111100, 1] (.blt 1) = true ∧ reads [0b01111101, 1] (.bge 1) = true ∧
    reads [0b01111110, 1] (.ble 1) = true ∧ reads [0b01111111, 1] (.bgt 1) = true := by decide

theorem test_decode_counting :
    reads [0b11100000, 1] (.dbnzne 1) = true ∧ reads [0b11100001, 1] (.dbnze 1) = true ∧
    reads [0b11100010, 1] (.dbnz 1) = true ∧ reads [0b11100011, 1] (.bcwz 1) = true := by decide

theorem test_decode_move :
    reads [0b10001011, 0b11101100] (.movRegReg (.word .bp .sp)) = true ∧
    reads [0b10001010, 0b11100001] (.movRegReg (.byte .ah .cl)) = true ∧
    reads [0b10110000, 0x05] (.movRegImm (.byte .al 0x05)) = true ∧
    reads [0b10111111, 0x34, 0x12] (.movRegImm (.word .iy 0x1234)) = true ∧
    reads [0b01101001, 0b11000011, 0x00, 0x10] (.mul .aw .bw 0x1000) = true ∧
    reads [0b11000111, 0b00000110, 0x00, 0x02, 0x00, 0x20] (.movMemImm (.direct 0x0200) (.word 0x2000)) = true ∧
    reads [0b10100000, 0x01, 0x02] (.movAccDmem .byte 0x0201) = true := by decide

theorem test_decode_memory :
    reads [0b00101001, 0b00000100] (.subMemReg (.indirect .ix) (.word .aw)) = true ∧
    reads [0b11110110, 0b01000100, 0x10, 0x7F] (.testMemImm (.index .ix (.byte 0x10)) (.byte 0x7F)) = true ∧
    reads [0b11010001, 0b01100110, 0x22] (.shlMem .word (.based .bp (.byte 0x22))) = true ∧
    reads [0b11111111, 0b10110010, 0x0C, 0x01] (.pushMem (.basedIndex .bp .ix (some (.word 0x010C)))) = true := by decide

theorem test_decode_block :
    reads [0b10100100] (.movbk .byte) = true ∧ reads [0b10100111] (.cmpbk .word) = true ∧
    reads [0b10101011] (.stm .word) = true ∧ reads [0b10101100] (.ldm .byte) = true ∧
    reads [0b10101111] (.cmpm .word) = true := by decide

theorem test_decode_bit :
    reads [0b00001111, 0b00010000, 0b11000000] (.test1Cl (.reg (.byte .al))) = true ∧
    reads [0b00001111, 0b00011001, 0b11000011, 9] (.test1Imm (.reg (.word .bw)) 9) = true ∧
    reads [0b00001111, 0b00010011, 0b01000100, 0x20] (.clr1Cl (.mem .word (.index .ix (.byte 0x20)))) = true ∧
    reads [0b00001111, 0b00011010, 0b00000111, 2] (.clr1Imm (.mem .byte (.indirect .bw)) 2) = true ∧
    reads [0b00001111, 0b00010100, 0b11000101] (.set1Cl (.reg (.byte .ch))) = true ∧
    reads [0b00001111, 0b00011101, 0b01000110, 0x10, 9] (.set1Imm (.mem .word (.based .bp (.byte 0x10))) 9) = true ∧
    reads [0b00001111, 0b00010111, 0b00000001] (.not1Cl (.mem .word (.basedIndex .bw .iy none))) = true ∧
    reads [0b00001111, 0b00011110, 0b11000001, 5] (.not1Imm (.reg (.byte .cl)) 5) = true ∧
    reads [0b00001111, 0b10011100, 0x4C, 7, 0x02] (.btclr 0x4C 7 0x02) = true := by decide

/-- The decoder refusals of spec/95_test_vectors.md section 2.10. -/
theorem test_decode_refusals :
    decode [0xFF, 0xF8] = .refused .unknownEncoding ∧ decode [0xFF, 0xE8] = .refused .unknownEncoding ∧
    decode [0xFF, 0xD8] = .refused .unknownEncoding ∧ decode [0x0F, 0x00] = .refused .unknownEncoding ∧
    decode [0xC7, 0xC0, 0x00, 0x20] = .refused .unknownEncoding ∧ decode [0x26, 0x8A, 0x04] = .refused .prefixNotModelled ∧
    decode [0xF0, 0x29, 0x04] = .refused .prefixNotModelled ∧ decode [0x90] = .refused .unknownEncoding ∧
    decode [0xFF, 0xD4] = .refused .callSp ∧ decode [0xEB] = .truncated := by decide

/-! ## The host's two words -/

theorem test_table_word : decodeTableWord 16 0xFFD0 = some (.callReg .aw) ∧ decodeTableWord 8 0xE8 = some (.callNear 0) ∧
    decodeTableWord 24 0x0F1800 = some (.test1Imm (.mem .byte (.basedIndex .bw .ix none)) 0) := by decide

/-- The placed word is the next instruction that runs: BR far-label from reset, where the special function register area has to
make way; elsewhere IDB stays. -/
theorem test_with_fetch_word : view (step (State.reset.withFetchWord 40 0xEA341200F0)) (fun t => (t.pc, t.segs.ps, t.idb)) =
    some (0x1234, 0xF000, 0x7F) ∧
    view (step (base.withFetchWord 40 0xEA341200F0)) (fun t => (t.pc, t.segs.ps, t.idb)) = some (0x1234, 0xF000, 0xFF) := by decide

/-- Right after reset the fetch reads at FFFF0H, in the special function register area: the bytes are the oracle's, the second
one's after the first one's read (spec/20_memory.md R42, spec/92_eei_decisions.md D29). -/
theorem test_fetch_from_sfr_area (h0 : Config.sfrRead 0 [] 0xFFFF0 = 0xEB)
    (h1 : Config.sfrRead 0 [.read 0xFFFF0] 0xFFFF1 = 0xFE) :
    CodeAt State.reset [0xEB, 0xFE] ∧ fetchReads 2 State.reset = [.read 0xFFFF1, .read 0xFFFF0] := by
  refine ⟨fun k hk => ?_, by decide⟩
  match k, hk with
  | 0, _ => rw [fetchedByte, show fetchAddr State.reset 0 = 0xFFFF0 by decide, if_pos (by decide)]; exact congrArg some h0
  | 1, _ => rw [fetchedByte, show fetchAddr State.reset 1 = 0xFFFF1 by decide, if_pos (by decide)]; exact congrArg some h1

theorem test_fetch_wraps_to_zero : phys 0xFFFF 0x0010 = 0x00000 ∧ phys 0xFFFF 0x000F = 0xFFFFF ∧ phys 0x1234 0x5678 = 0x179B8 := by
  decide

/-! ## CALL and BR (sections 2.2 to 2.4) -/

theorem test_call_near : view (step (code [0xE8, 0xFD, 0xFF] { base with pc := 0x0200 }))
    (fun t => (t.pc, t.regs.sp, two t 0x300FE)) = some (0x0200, 0x00FE, some 0x03, some 0x02) := by decide

theorem test_call_reg : view (step (code [0xFF, 0xD0] (w .aw 0xFFFF base)))
    (fun t => (t.pc, t.regs.sp, two t 0x300FE)) = some (0xFFFF, 0x00FE, some 0x02, some 0x00) := by decide

theorem test_call_reg_sp : stop (step (code [0xFF, 0xD4] base)) = some (.inr .callSp) := by decide

theorem test_call_mem16 : view (step (code [0xFF, 0x16, 0x00, 0x03] (put 0x20300 [0x00, 0x10] base)))
    (fun t => (t.pc, t.regs.sp, two t 0x300FE)) = some (0x1000, 0x00FE, some 0x04, some 0x00) := by decide

theorem test_call_far : view (step (code [0x9A, 0x00, 0x00, 0xFF, 0xFF] { base with pc := 0x0010 }))
    (fun t => (t.pc, t.segs.ps, t.regs.sp, two t 0x300FE, two t 0x300FC)) =
    some (0x0000, 0xFFFF, 0x00FC, (some 0x00, some 0x10), some 0x15, some 0x00) := by decide

/-- Program E of section 3. -/
theorem test_call_mem32 : view (step (code [0xFF, 0x5E, 0xF0] (w .bp 0x0110 (put 0x30100 [0x10, 0x00, 0x00, 0x50]
      (w .sp 0x0200 base)))))
    (fun t => (t.pc, t.segs.ps, t.regs.sp, two t 0x301FE, two t 0x301FC)) =
    some (0x0010, 0x5000, 0x01FC, (some 0x00, some 0x10), some 0x03, some 0x00) := by decide

theorem test_br_near_wraps : view (step (code [0xE9, 0x00, 0x80] { base with pc := 0x9000 })) (·.pc) = some 0x1003 := by decide

theorem test_br_short_backwards : view (step (code [0xEB, 0x80] { base with pc := 0x0010 })) (·.pc) = some 0xFF92 := by decide

theorem test_br_short_wraps : view (step (code [0xEB, 0x7F] { base with pc := 0xFFF0 })) (fun t => (t.pc, t.segs.ps)) =
    some (0x0071, 0x1000) := by decide

theorem test_br_reg : view (step (code [0xFF, 0xE4] (w .sp 0x0123 base))) (·.pc) = some 0x0123 := by decide

theorem test_br_mem16 : view (step (code [0xFF, 0x27] (w .bw 0x0300 (put 0x20300 [0x78, 0x56] base)))) (·.pc) =
    some 0x5678 := by decide

theorem test_br_mem16_wrap : stop (step (code [0xFF, 0x27] (w .bw 0xFFFF base))) = some (.inr .offsetWrapInAccess) := by decide

theorem test_br_far : view (step (code [0xEA, 0x34, 0x12, 0x00, 0xF0] base)) (fun t => (t.pc, t.segs.ps)) =
    some (0x1234, 0xF000) := by decide

theorem test_br_mem32_last : view (step (code [0xFF, 0x2D] (w .iy 0xFFFC (put 0x2FFFC [0x00, 0x01, 0x00, 0x02] base))))
    (fun t => (t.pc, t.segs.ps)) = some (0x0100, 0x0200) := by decide

theorem test_br_mem32_wrap : stop (step (code [0xFF, 0x2D] (w .iy 0xFFFD base))) = some (.inr .offsetWrapInAccess) := by decide

/-! ## Conditional branches (section 2.2, spec/30_encoding.md R65) -/

/-- PC after a branch of two bytes at PC 0 with displacement 10H, under flags. -/
def after (op : Byte) (cy p z s v : Bool) : Option Word :=
  view (step (code [op, 0x10] { base with flags := { cy, p, z, s, v, ac := false } })) (·.pc)

theorem test_branch_v : after 0x70 false false false false true = some 0x12 ∧ after 0x71 false false false false true = some 2 := by
  decide
theorem test_branch_cy : after 0x72 true false false false false = some 0x12 ∧ after 0x73 true false false false false = some 2 := by
  decide
theorem test_branch_z : after 0x74 false false true false false = some 0x12 ∧ after 0x75 false false true false false = some 2 := by
  decide
theorem test_branch_h : after 0x76 false false true false false = some 0x12 ∧ after 0x77 false false false false false = some 0x12 ∧
    after 0x77 true false false false false = some 2 := by decide
theorem test_branch_s : after 0x78 false false false true false = some 0x12 ∧ after 0x79 false false false true false = some 2 := by
  decide
theorem test_branch_p : after 0x7A false true false false false = some 0x12 ∧ after 0x7B false true false false false = some 2 := by
  decide
theorem test_branch_lt : after 0x7C false false false true false = some 0x12 ∧ after 0x7D false false false true true = some 0x12 := by
  decide
theorem test_branch_le : after 0x7E false false true true true = some 0x12 ∧ after 0x7F false false true true true = some 2 := by
  decide

/-- CW and PC after a counting branch. -/
def counted (op : Byte) (cw : Word) (z : Bool) : Option (Word × Word) :=
  view (step (code [op, 0xFE] (w .cw cw { base with flags := { base.flags with z } }))) fun t => (t.regs.cw, t.pc)

theorem test_dbnz : counted 0xE2 1 false = some (0, 2) ∧ counted 0xE2 0 false = some (0xFFFF, 0) := by decide
theorem test_dbnze : counted 0xE1 2 true = some (1, 0) ∧ counted 0xE1 2 false = some (1, 2) := by decide
theorem test_dbnzne : counted 0xE0 2 true = some (1, 2) ∧ counted 0xE0 2 false = some (1, 0) := by decide
theorem test_bcwz : counted 0xE3 0 false = some (0, 0) ∧ counted 0xE3 1 false = some (1, 2) := by decide

/-! ## MOV and MUL (section 2.6) -/

theorem test_mov_reg_reg_byte : view (step (code [0x8A, 0xE1] (w .cw 0x007F (w .aw 0x0034 base)))) (·.regs.aw) = some 0x7F34 := by
  decide
theorem test_mov_reg_reg_word : view (step (code [0x8B, 0xEC] base)) (·.regs.bp) = some 0x0100 := by decide
theorem test_mov_reg_imm_byte : view (step (code [0xB0, 0x05] (w .aw 0xFF00 base))) (·.regs.aw) = some 0xFF05 := by decide
theorem test_mov_reg_imm_word : view (step (code [0xBF, 0x34, 0x12] base)) (·.regs.iy) = some 0x1234 := by decide
theorem test_mul_fits : view (step (code [0x69, 0xC3, 0x00, 0x10] (w .bw 0x0003 base)))
    (fun t => (t.regs.aw, t.flags.cy, t.flags.v)) = some (0x3000, false, false) := by decide
theorem test_mul_overflows : view (step (code [0x69, 0xC3, 0x00, 0x10] (w .bw 0x0010 base)))
    (fun t => (t.regs.aw, t.flags.cy, t.flags.v)) = some (0x0000, true, true) := by decide
theorem test_mov_mem_imm_word : view (step (code [0xC7, 0x06, 0x00, 0x02, 0x00, 0x20] base)) (two · 0x20200) =
    some (some 0x00, some 0x20) := by decide
theorem test_mov_mem_imm_last_byte : view (step (code [0xC6, 0x06, 0xFF, 0xFF, 0xAA] base)) (fun t => memGet t.mem 0x2FFFF) =
    some (some 0xAA) := by decide
theorem test_mov_acc_byte : view (step (code [0xA0, 0x01, 0x02] (w .aw 0xFF00 (put 0x20201 [0x20] base)))) (·.regs.aw) =
    some 0xFF20 := by decide
theorem test_mov_acc_word : view (step (code [0xA1, 0x00, 0x02] (put 0x20200 [0x00, 0x20] base))) (·.regs.aw) = some 0x2000 := by
  decide

/-! ## SUB, TEST, SHL, PUSH (section 2.7) -/

theorem test_sub : view (step (code [0x29, 0x04] (w .ix 0x0300 (w .aw 1 (put 0x20300 [0x00, 0x10] base)))))
    (fun t => (two t 0x20300, t.flags)) =
    some ((some 0xFF, some 0x0F), { cy := false, p := true, ac := true, z := false, s := false, v := false }) := by decide
theorem test_sub_borrows : view (step (code [0x29, 0x04] (w .ix 0x0300 (w .aw 1 (put 0x20300 [0x00, 0x00] base)))))
    (fun t => (two t 0x20300, t.flags.cy, t.flags.z, t.flags.s, t.flags.v)) =
    some ((some 0xFF, some 0xFF), true, false, true, false) := by decide
theorem test_test : view (step (code [0xF6, 0x44, 0x10, 0x7F] (w .ix 0x0005 (put 0x20015 [0x80] base))))
    (fun t => (memGet t.mem 0x20015, t.flags.z, t.flags.s, t.flags.cy, t.flags.v)) =
    some (some 0x80, true, false, false, false) := by decide
theorem test_shl : view (step (code [0xD0, 0x66, 0x10] (w .bp 0x0020 (put 0x30030 [0x81] base))))
    (fun t => (memGet t.mem 0x30030, t.flags.cy, t.flags.v, t.flags.z, t.flags.s)) =
    some (some 0x02, true, true, false, false) := by decide
theorem test_shl_to_zero : view (step (code [0xD0, 0x66, 0x10] (w .bp 0x0020 (put 0x30030 [0x80] base))))
    (fun t => (memGet t.mem 0x30030, t.flags.cy, t.flags.z)) = some (some 0x00, true, true) := by decide
theorem test_push : view (step (code [0xFF, 0xB2, 0x00, 0x01] (w .bp 0x0010 (w .ix 0x0004 (put 0x30114 [0xCD, 0xAB] base)))))
    (fun t => (t.regs.sp, two t 0x300FE)) = some (0x00FE, some 0xCD, some 0xAB) := by decide

/-! ## Block instructions (section 2.8) -/

theorem test_movbk_up : view (step (code [0xA4] (w .ix 0x0010 (w .iy 0x0020 (put 0x20010 [0x5A] base)))))
    (fun t => (memGet t.mem 0x40020, t.regs.ix, t.regs.iy)) = some (some 0x5A, 0x0011, 0x0021) := by decide
theorem test_movbk_down : view (step (code [0xA5] (w .ix 0x0010 (put 0x20010 [0x34, 0x12] { base with dir := true }))))
    (fun t => (two t 0x40000, t.regs.ix, t.regs.iy)) = some ((some 0x34, some 0x12), 0x000E, 0xFFFE) := by decide
theorem test_ldm : view (step (code [0xAC] (put 0x20000 [0x77] { base with dir := true }))) (fun t => (t.regs.aw, t.regs.ix)) =
    some (0x0077, 0xFFFF) := by decide
theorem test_stm : view (step (code [0xAB] (w .iy 0xFFFE (w .aw 0xBEEF base)))) (fun t => (two t 0x4FFFE, t.regs.iy)) =
    some ((some 0xEF, some 0xBE), 0x0000) := by decide
theorem test_cmpbk : view (step (code [0xA6] (w .ix 5 (w .iy 5 (put 0x20005 [1] (put 0x40005 [1] base))))))
    (fun t => (t.flags.z, t.flags.cy, t.regs.ix, t.regs.iy)) = some (true, false, 6, 6) := by decide
theorem test_cmpm : view (step (code [0xAF] (w .iy 0x0100 (put 0x40100 [0x01, 0x00] { base with dir := true }))))
    (fun t => (t.flags.cy, t.flags.z, t.regs.iy)) = some (true, false, 0x00FE) := by decide
theorem test_repeat_prefix : stop (step (code [0xF3, 0xA4] base)) = some (.inr .prefixNotModelled) := by decide

/-! ## Bit instructions (section 2.9) -/

theorem test_test1_cl_byte : view (step (code [0x0F, 0x10, 0xC0] (w .aw 0x0020 (w .cw 0x003D base))))
    (fun t => (t.flags.z, t.flags.cy, t.regs)) =
    some (false, false, { base.regs with aw := 0x0020, cw := 0x003D }) := by decide
theorem test_test1_cl_word : view (step (code [0x0F, 0x11, 0xC0] (w .aw 0x2000 (w .cw 0x003D base)))) (·.flags.z) = some false := by
  decide
theorem test_test1_imm : view (step (code [0x0F, 0x18, 0xC0, 0x05] (w .aw 0x00DF base))) (·.flags.z) = some true := by decide
theorem test_not1_imm : view (step (code [0x0F, 0x1E, 0xC1, 0x05] (w .cw 0x001D base))) (·.regs.cw) = some 0x003D := by decide
theorem test_not1_cl_of_cl : view (step (code [0x0F, 0x16, 0xC1] (w .cw 0x0003 base))) (·.regs.cw) = some 0x000B := by decide
theorem test_clr1_cl : view (step (code [0x0F, 0x13, 0x04] (w .ix 0x0300 (w .cw 0x001D (put 0x20300 [0xFF, 0xFF] base)))))
    (two · 0x20300) = some (some 0xFF, some 0xDF) := by decide
theorem test_clr1_imm : view (step (code [0x0F, 0x1B, 0xC0, 0x09] (w .aw 0xFFFF base))) (·.regs.aw) = some 0xFDFF := by decide
theorem test_set1_imm : view (step (code [0x0F, 0x1D, 0x46, 0x10, 0x09] (w .bp 0x0020 (put 0x30030 [0x00, 0x00] base))))
    (two · 0x30030) = some (some 0x00, some 0x02) := by decide
theorem test_set1_imm_masked : view (step (code [0x0F, 0x1C, 0xC0, 0x0F] base)) (·.regs.aw) = some 0x0080 ∧
    stop (step (code [0x0F, 0x1C, 0xC0, 0x0F] { base with strictBitImm := true })) = some (.inr .strictBitImm) := by decide
theorem test_set1_cl : view (step (code [0x0F, 0x14, 0xC5] (w .cw 0x0002 base))) (·.regs.cw) = some 0x0402 := by decide

/-! ## Special function registers (section 2.9) -/

theorem test_sfr_addr : sfrAddr 0xFF 0x4C = 0xFFF4C ∧ sfrAddr 0x00 0x00 = 0x00F00 ∧ sfrAddr 0x12 0xFF = 0x12FFF := by decide

/-- BTCLR at offset 0 executes with PC at 5 (R16). -/
def atBtclr : State := { base with pc := 0x0005 }

/-- Bit 7 is 1: the register is written with it cleared, the branch is taken. -/
theorem test_btclr_taken (h : Config.sfrRead 0 [] 0xFFF4C = 0x80) : exec (.btclr 0x4C 7 0x02) atBtclr =
    .next { atBtclr with pc := 0x0007, sfrLog := [.write 0xFFF4C 0x00, .read 0xFFF4C] } := by
  have a : sfrAddr atBtclr.idb 0x4C = 0xFFF4C := by decide
  have e : peekByte (sfrAddr atBtclr.idb 0x4C) atBtclr = 0x80 := by rw [a, peekByte, if_pos (by decide)]; exact h
  refine execBtclr_eq_next.mpr ⟨by decide, testClearBranch_eq_next.mpr ⟨?_, ?_, ?_⟩⟩
  · decide
  · decide
  · rw [e]; rfl

/-- Bit 7 is 0: nothing is written. -/
theorem test_btclr_not_taken (h : Config.sfrRead 0 [] 0xFFF4C = 0x7F) : exec (.btclr 0x4C 7 0x02) atBtclr =
    .next { atBtclr with sfrLog := [.read 0xFFF4C] } := by
  have a : sfrAddr atBtclr.idb 0x4C = 0xFFF4C := by decide
  have e : peekByte (sfrAddr atBtclr.idb 0x4C) atBtclr = 0x7F := by rw [a, peekByte, if_pos (by decide)]; exact h
  refine execBtclr_eq_next.mpr ⟨by decide, testClearBranch_eq_next.mpr ⟨?_, ?_, ?_⟩⟩
  · decide
  · decide
  · rw [e, if_neg (by decide), a]; decide

/-! ## Stops -/

theorem test_unwritten : stop (step base) = some (.inl .unwritten) ∧
    stop (step (code [0xA0, 0x01, 0x02] base)) = some (.inl .unwritten) := by decide
theorem test_store_into_code : stop (step (code [0xC6, 0x06, 0x00, 0x02, 0xAA]
    { base with codeRegion := [{ first := 0x20200, last := 0x20200 }] })) = some (.inr .storeIntoCode) := by decide

/-! ## The assembler (spec/30_encoding.md R69, R70, spec/95_test_vectors.md section 1) -/

/-- TEST WORD_VAR [IX] [8] with WORD_VAR at 0020H; PUSH WORD_VAR [BP] [4] [IX] [8] with WORD_VAR at 0100H; CALL WORD PTR [IX]. -/
theorem test_asm_operand :
    asmOperand true { var := some 0x0020, base := none, index := some .ix, consts := [8] } = .index .ix (.byte 0x28) ∧
    asmOperand true { var := some 0x0100, base := some .bp, index := some .ix, consts := [4, 8] } =
      .basedIndex .bp .ix (some (.word 0x010C)) ∧
    (asmCall .word (asmOperand true { var := none, base := none, index := some .ix, consts := [] })).map encode =
      some [0xFF, 0x14] := by decide

/-! ## The hypotheses of the obligations are met -/

/-- Data at DS0:IX, at DS1:IY, below SP, at the end of DS0 and of SS. -/
def rich : State :=
  put 0x20300 [0x34, 0x12, 0x78, 0x56] (put 0x40400 [0x05, 0x06] (put 0x300FC [0, 0, 0, 0] (put 0x2FFFC [1, 2, 3, 4]
    (w .ix 0x0300 (w .iy 0x0400 base)))))

/-- Whether the instruction takes a next state. -/
def runs (i : Instr) (s : State) : Bool := (view (exec i s) fun _ => ()).isSome

theorem next_of_runs {i : Instr} {s : State} (h : runs i s = true) : ∃ t, exec i s = .next t := by
  unfold runs view at h
  cases e : exec i s with
  | next t => exact ⟨t, rfl⟩
  | fault r => rw [e] at h; exact absurd h (by simp)
  | refused r => rw [e] at h; exact absurd h (by simp)

theorem witness_DecodeOfEncodeGivesInstruction : Instr.wf (.callReg .iy) = true := by decide
theorem witness_DecodedBytesAreTheEncoding : decode [0xFF, 0xD0, 0x90] = .ok (.callReg .aw) [0x90] := by decide
theorem witness_PrefixBytesRefused : (0x26 : Byte).toNat ∈ prefixBytes ∧ (0xF3 : Byte).toNat ∈ prefixBytes ∧
    CodeAt (code [0xF3] base) [0xF3] := by unfold CodeAt; decide
theorem witness_UnknownEncodingsRefused_first : (0x90 : Byte).toNat ∉ firstBytes ∧ (0x90 : Byte).toNat ∉ prefixBytes ∧
    (0x6F : Byte).toNat ∉ firstBytes ∧ (0x6F : Byte).toNat ∉ prefixBytes := by decide
theorem witness_UnknownEncodingsRefused_middle : (1 : BitVec 3).toNat < 2 ∧ (7 : BitVec 3).toNat = 7 ∧ (3 : BitVec 3).toNat = 3 ∧
    (6 : BitVec 3).toNat = 6 ∧ ((0xC7 : Byte).toNat ∈ [0xC6, 0xC7, 0xF6, 0xF7] ∧ (1 : BitVec 3).toNat ≠ 0) ∧
    ((0xD1 : Byte).toNat ∈ [0xD0, 0xD1] ∧ (5 : BitVec 3).toNat ≠ 4) ∧
    0x10 ≤ (0x1F : Byte).toNat ∧ (0x1F : Byte).toNat ≤ 0x1F ∧ (7 : BitVec 3).toNat ≠ 0 := by decide
theorem witness_UnknownEncodingsRefused_second : (0x0F : Byte).toNat ∉ secondBytes ∧ (0x20 : Byte).toNat ∉ secondBytes ∧
    (0x28 : Byte).toNat ∈ [0x28, 0x29, 0xC6, 0xC7, 0xD0, 0xD1, 0xF6, 0xF7] ∧
    (0x69 : Byte).toNat ∈ [0x8A, 0x8B, 0x69] ∧ (2 : BitVec 2).toNat ≠ 3 := by decide
theorem witness_CallThroughSpRefused : CodeAt (code [0xFF, 0xD4] base) [0xFF, 0xD4] := by unfold CodeAt; decide
theorem witness_MemorySpecificationTable : (5 : BitVec 3) ≠ 6 ∧ (7 : BitVec 3) ≠ 6 := by decide
theorem witness_StepExecutesInstructionAtPc : Instr.wf (.brShort 0xFE) = true ∧
    CodeAt (code (encode (.brShort 0xFE)) base) (encode (.brShort 0xFE)) := by unfold CodeAt; decide

/-- No byte at all, and five bytes of the six of MOV mem, imm. -/
theorem witness_StepFaultsWhereNothingIsWritten : ∀ bs ∈ ([[], [0xC7, 0x86, 0x00, 0x10, 0x34]] : List (List Byte)),
    CodeAt (code bs base) bs ∧ decode bs = .truncated ∧ inSfr (code bs base).idb (fetchAddr (code bs base) bs.length) = false ∧
    memGet (code bs base).mem (fetchAddr (code bs base) bs.length) = none := by unfold CodeAt; decide
theorem witness_RegisterIndirectAddress : (Imm.word 0x1234).width = .word ∧ decodeMem (specByte 0 7 4) [0x90] =
    .ok (.indirect .ix) [0x90] := by decide
theorem witness_MemoryReadsLittleEndian : PlainAt .byte 0x2000 0xFFFF rich ∧ memGet rich.mem (phys 0x2000 0xFFFF) = some 4 ∧
    PlainAt .word 0x2000 0xFFFE rich ∧ (0xFFFE : Word) ≠ 0xFFFF ∧ memGet rich.mem (phys 0x2000 0xFFFE) = some 3 ∧
    memGet rich.mem (phys 0x2000 (0xFFFE + 1)) = some 4 := by unfold PlainAt; decide
theorem witness_ReadAfterWriteGivesTheValue : CanWrite .word 0x2000 0xFFFE rich ∧ PlainAt .word 0x2000 0xFFFE rich ∧
    CanWrite .byte 0x2000 0xFFFF rich ∧ PlainAt .byte 0x2000 0xFFFF rich := by unfold CanWrite PlainAt; decide
theorem witness_WriteStoresTheOperand : CanWrite .word 0xF000 0xFF00 rich ∧ CanWrite .byte 0x2000 0xFFFF rich := by
  unfold CanWrite; decide
theorem witness_RegisterFieldNamesTheOperand : (Reg.byte .bh).width = .byte ∧ (Reg.word .iy).width = .word ∧
    (code [0x90] base).regs = base.regs ∧ (code [0x90] base).segs = base.segs ∧
    decodeMem (specByte 1 3 6) [0x10, 0x90] = .ok (.based .bp (.byte 0x10)) [0x90] := by decide
theorem witness_AttributesSelectTheOpcode : asmCall .dword (.indirect .ix) = some (.callMem32 (.indirect .ix)) ∧
    asmBr .word (.direct 0xFFFF) = some (.brMem16 (.direct 0xFFFF)) ∧ asmWidth .byte = some .byte ∧
    (Reg.byte .al).width = .byte ∧ (Imm.word 0xFFFF).width = .word := by decide
theorem witness_SfrWindowBelongsToTheOracle : inSfr rich.idb (phys 0xF000 0xFF00) = true ∧
    inSfr rich.idb (phys 0xF000 0xFFFF) = true ∧ inCode rich (phys 0xF000 0xFF00) = false := by decide
theorem witness_SfrAreaLiesWhereIdbSays : ∃ t, exec (.callNear 0) rich = .next t := next_of_runs (by decide)
theorem witness_AccessPastSegmentEndRefused : ea (.direct 0xFFFF) rich = 0xFFFF ∧ BitImmTaken .word 0xFF rich ∧
    0xFFFD ≤ (ea (.direct 0xFFFD) rich).toNat ∧ getW .ix (w .ix 0xFFFF rich) = 0xFFFF ∧ getW .iy (w .iy 0xFFFF rich) = 0xFFFF ∧
    getW .sp (w .sp 0x0001 rich) = 0x0001 ∧ WReg.aw ≠ .sp := by unfold BitImmTaken; decide

/-- The accesses before a second one that wraps go through: a block source, a pointer, the first push. -/
theorem witness_AccessPastSegmentEndRefused_second :
    CanRead .word (w .iy 0xFFFF rich).segs.ds0 (w .iy 0xFFFF rich).regs.ix (w .iy 0xFFFF rich) ∧
    CanRead .word (memSeg (.indirect .ix) (w .sp 1 rich)) (ea (.indirect .ix) (w .sp 1 rich)) (w .sp 1 rich) ∧
    CanRead32 (memSeg (.direct 0xFFFC) (w .sp 1 rich)) (ea (.direct 0xFFFC) (w .sp 1 rich)) (w .sp 1 rich) ∧
    getW .sp (w .sp 3 rich) = 3 ∧ CanWrite .word (w .sp 3 rich).segs.ss 0x0001 (w .sp 3 rich) ∧
    CanRead32 (memSeg (.indirect .ix) (w .sp 3 rich)) (ea (.indirect .ix) (w .sp 3 rich)) (w .sp 3 rich) := by
  unfold CanRead32 CanRead CanWrite; decide
theorem witness_UnwrittenOperandFaults : (Width.word = .word → ea (.direct 0xFFFE) base ≠ 0xFFFF) ∧
    ¬ CanRead .word (memSeg (.direct 0xFFFE) base) (ea (.direct 0xFFFE) base) base ∧
    ¬ CanRead .byte (memSeg (.direct 0xFFFF) base) (ea (.direct 0xFFFF) base) base ∧ BitImmTaken .word 0xFF base := by
  unfold CanRead BitImmTaken; decide

/-- A pointer at FFFCH, a direct operand at the end of DS0, block operands at FFFFH, FFFEH; of CMPBK the second alone. -/
theorem witness_UnwrittenOperandFaults_pointer_and_block : (ea (.direct 0xFFFC) base).toNat ≤ 0xFFFC ∧
    ¬ CanRead32 (memSeg (.direct 0xFFFC) base) (ea (.direct 0xFFFC) base) base ∧
    ¬ CanRead .word base.segs.ds0 0xFFFE base ∧
    ¬ CanRead .byte (w .ix 0xFFFF base).segs.ds0 (w .ix 0xFFFF base).regs.ix (w .ix 0xFFFF base) ∧
    ¬ CanRead .word (w .iy 0xFFFE rich).segs.ds1 (w .iy 0xFFFE rich).regs.iy (w .iy 0xFFFE rich) ∧
    CanRead .word (w .iy 0xFFFE rich).segs.ds0 (w .iy 0xFFFE rich).regs.ix (w .iy 0xFFFE rich) := by
  unfold CanRead32 CanRead; decide

/-- The bytes at DS0:IX are declared code. -/
def guarded : State := { rich with codeRegion := [{ first := 0x20300, last := 0x20303 }] }

theorem witness_StoreIntoCodeRefused : (Width.word = .word → ea (.indirect .ix) guarded ≠ 0xFFFF) ∧
    0x20301 ∈ memAddrs .word (.indirect .ix) guarded ∧ inCode guarded 0x20301 = true ∧
    CanRead .word (memSeg (.indirect .ix) guarded) (ea (.indirect .ix) guarded) guarded ∧ BitImmTaken .word 0xFF guarded := by
  unfold CanRead BitImmTaken; decide

/-- The last byte of DS1, the two words below SP and two special function registers are declared code. -/
def guardedElsewhere : State := { rich with
  codeRegion := [{ first := 0x4FFFF, last := 0x4FFFF }, { first := 0x300FC, last := 0x300FC },
    { first := 0x30100, last := 0x30101 }, { first := 0xFFF00, last := 0xFFFFF }] }

theorem witness_StoreIntoCodeRefused_block : 0x4FFFF ∈ addrsOf .word 0x4000 (w .iy 0xFFFE guardedElsewhere).regs.iy ∧
    0x4FFFF ∈ addrsOf .byte 0x4000 (w .iy 0xFFFF guardedElsewhere).regs.iy ∧ inCode guardedElsewhere 0x4FFFF = true ∧
    CanRead .word guardedElsewhere.segs.ds0 guardedElsewhere.regs.ix guardedElsewhere := by unfold CanRead; decide
theorem witness_StoreIntoCodeRefused_link : getW .sp guardedElsewhere ≠ 0x0001 ∧ getW .sp guardedElsewhere ≠ 0x0003 ∧
    0x300FC ∈ addrsOf .word guardedElsewhere.segs.ss (getW .sp guardedElsewhere - 4) ∧ inCode guardedElsewhere 0x300FC = true ∧
    0x30101 ∈ addrsOf .word 0x3000 (getW .sp (w .sp 0x0102 guardedElsewhere) - 2) ∧ inCode guardedElsewhere 0x30101 = true ∧
    CanRead32 (memSeg (.indirect .ix) guardedElsewhere) (ea (.indirect .ix) guardedElsewhere) guardedElsewhere := by
  unfold CanRead32 CanRead; decide
theorem witness_StoreIntoCodeRefused_btclr : BitImmTaken .byte 7 guardedElsewhere ∧ inCode guardedElsewhere 0xFFFFF = true ∧
    0xFFFFF = guardedElsewhere.idb.toNat * 0x1000 + 0xF00 + (0xFF : Byte).toNat := by unfold BitImmTaken; decide
theorem witness_StepKeepsMemoryCanonical : MemWf (code [0xEB, 0xFE] rich).mem ∧
    view (step (code [0xEB, 0xFE] rich)) (fun _ => ()) = some () := by decide
theorem witness_PointerBranchTargets :
    CanRead .word (memSeg (.indirect .ix) rich) (ea (.indirect .ix) rich) rich ∧
    CanRead32 (memSeg (.direct 0xFFFC) rich) (ea (.direct 0xFFFC) rich) rich := by unfold CanRead32 CanRead; decide

/-- The stack wraps: SP = 0 for one word, SP = 2 for two. -/
theorem witness_NearCallsLinkAndBranch : CanWrite .word (w .sp 0 rich).segs.ss (getW .sp (w .sp 0 rich) - 2) (w .sp 0 rich) ∧
    WReg.iy ≠ .sp := by unfold CanWrite; decide
theorem witness_PointerCallLinksAndBranches :
    CanRead .word (memSeg (.indirect .ix) rich) (ea (.indirect .ix) rich) rich ∧
    CanWrite .word rich.segs.ss (getW .sp rich - 2) rich := by unfold CanRead CanWrite; decide
theorem witness_FarCallLinksAndBranches : CanLinkFar (w .sp 2 rich) := by unfold CanLinkFar CanWrite; decide
theorem witness_FarPointerCallLinksAndBranches :
    CanRead32 (memSeg (.indirect .ix) rich) (ea (.indirect .ix) rich) rich ∧ CanLinkFar rich := by
  unfold CanRead32 CanRead CanLinkFar CanWrite; decide
theorem witness_LinkReadsBackFromStack : PlainAt .word rich.segs.ss (getW .sp rich - 2) rich ∧
    (∃ t, exec (.callNear 0x0010) rich = .next t) ∧ (∃ t, exec (.callReg .iy) rich = .next t) ∧
    ∃ t, exec (.callMem16 (.indirect .ix)) rich = .next t :=
  ⟨by unfold PlainAt; decide, next_of_runs (by decide), next_of_runs (by decide), next_of_runs (by decide)⟩
theorem witness_MultiplyKeepsLowWord : -32768 ≤ (getW .bw base).toInt * (0x1000 : Word).toInt ∧
    (getW .bw base).toInt * (0x1000 : Word).toInt ≤ 32767 ∧
    ¬ (getW .bw (w .bw 0x0010 base)).toInt * (0x1000 : Word).toInt ≤ 32767 := by decide
theorem witness_MoveImmediateToMemory : CanWrite .word (memSeg (.direct 0xFFFE) rich) (ea (.direct 0xFFFE) rich) rich ∧
    CanWrite .byte (memSeg (.direct 0xFFFF) rich) (ea (.direct 0xFFFF) rich) rich := by unfold CanWrite; decide
theorem witness_LoadAccumulatorDirect : CanRead .byte rich.segs.ds0 0xFFFF rich ∧ CanRead .word rich.segs.ds0 0xFFFE rich := by
  unfold CanRead; decide

/-- The operand at DS0:IX can be read and written, as a byte and as a word. -/
theorem witness_memory_operand : CanRead .byte (memSeg (.indirect .ix) rich) (ea (.indirect .ix) rich) rich ∧
    CanWrite .byte (memSeg (.indirect .ix) rich) (ea (.indirect .ix) rich) rich ∧
    CanRead .word (memSeg (.indirect .ix) rich) (ea (.indirect .ix) rich) rich ∧
    CanWrite .word (memSeg (.indirect .ix) rich) (ea (.indirect .ix) rich) rich := by unfold CanRead CanWrite; decide
theorem witness_SubtractFromMemory : CanRead (Reg.word .aw).width (memSeg (.indirect .ix) rich) (ea (.indirect .ix) rich) rich ∧
    CanWrite (Reg.word .aw).width (memSeg (.indirect .ix) rich) (ea (.indirect .ix) rich) rich := witness_memory_operand.2.2
theorem witness_TestMemoryWithImmediate :
    CanRead (Imm.byte 0x7F).width (memSeg (.indirect .ix) rich) (ea (.indirect .ix) rich) rich := witness_memory_operand.1
theorem witness_ShiftMemoryLeft : CanRead .byte (memSeg (.indirect .ix) rich) (ea (.indirect .ix) rich) rich ∧
    CanWrite .byte (memSeg (.indirect .ix) rich) (ea (.indirect .ix) rich) rich :=
  ⟨witness_memory_operand.1, witness_memory_operand.2.1⟩
theorem witness_PushMemoryWord : CanRead .word (memSeg (.indirect .ix) rich) (ea (.indirect .ix) rich) rich ∧
    CanWrite .word rich.segs.ss (getW .sp rich - 2) rich := witness_PointerCallLinksAndBranches
theorem witness_MoveBlockElement : CanRead .word rich.segs.ds0 rich.regs.ix rich ∧
    CanWrite .word rich.segs.ds1 rich.regs.iy rich := by unfold CanRead CanWrite; decide
theorem witness_LoadAndStoreBlockElement : CanRead .byte rich.segs.ds0 rich.regs.ix rich ∧
    CanWrite .byte rich.segs.ds1 rich.regs.iy rich := by unfold CanRead CanWrite; decide
theorem witness_CompareBlockElements : CanRead .word rich.segs.ds0 rich.regs.ix rich ∧
    CanRead .word rich.segs.ds1 rich.regs.iy rich := by unfold CanRead; decide
theorem witness_DirectionFlagSelectsIncrementOrDecrement : (∃ t, exec (.movbk .word) rich = .next t) ∧
    (∃ t, exec (.cmpbk .byte) rich = .next t) ∧ (∃ t, exec (.ldm .word) { rich with dir := true } = .next t) ∧
    (∃ t, exec (.stm .byte) rich = .next t) ∧ ∃ t, exec (.cmpm .word) { rich with dir := true } = .next t :=
  ⟨next_of_runs (by decide), next_of_runs (by decide), next_of_runs (by decide), next_of_runs (by decide),
    next_of_runs (by decide)⟩
theorem witness_BitInstructionsTouchOneBit : BitModifiable (.reg (.byte .cl)) rich ∧ BitModifiable (.mem .word (.indirect .ix)) rich ∧
    BitReadable (.mem .byte (.indirect .ix)) rich ∧ BitImmTaken .word 15 { rich with strictBitImm := true } ∧
    BitImmTaken .byte 0xFF rich :=
  ⟨trivial, witness_memory_operand.2.2, witness_memory_operand.1, by unfold BitImmTaken; decide, by unfold BitImmTaken; decide⟩
theorem witness_BitTestFlags : BitReadable (.mem .word (.indirect .ix)) rich ∧ BitImmTaken .word 9 rich :=
  ⟨witness_memory_operand.2.2.1, by unfold BitImmTaken; decide⟩
theorem witness_InvertingTwiceRestores : (∃ t, exec (.not1Imm (.mem .word (.indirect .ix)) 9) rich = .next t ∧
      ∃ u, exec (.not1Imm (.mem .word (.indirect .ix)) 9) t = .next u) ∧
    (∃ t, exec (.not1Cl (.mem .word (.indirect .ix))) rich = .next t ∧
      ∃ u, exec (.not1Cl (.mem .word (.indirect .ix))) t = .next u) ∧
    (∃ t, exec (.not1Cl (.reg (.byte .ch))) rich = .next t ∧ ∃ u, exec (.not1Cl (.reg (.byte .ch))) t = .next u) ∧
    BitOp.reg (.byte .ch) ≠ .reg (.byte .cl) ∧ BitOp.reg (.byte .ch) ≠ .reg (.word .cw) ∧
    ∀ v m, BitOp.mem .word (.indirect .ix) = .mem v m → PlainAt v (memSeg m rich) (ea m rich) rich :=
  ⟨⟨_, rfl, next_of_runs (by decide)⟩, ⟨_, rfl, next_of_runs (by decide)⟩, ⟨_, rfl, next_of_runs (by decide)⟩, by decide, by decide,
    fun v m e => by cases e; unfold PlainAt; decide⟩
theorem witness_StrictBitNumberRefused : ({ rich with strictBitImm := true } : State).strictBitImm = true ∧
    Width.word.bits ≤ (16 : Byte).toNat ∧ 8 ≤ (8 : Byte).toNat := by decide
theorem witness_BitTestClearAndBranch : BitImmTaken .byte 7 { rich with strictBitImm := true } ∧
    inCode rich (sfrAddr rich.idb 0x4C) = false := by unfold BitImmTaken; decide
theorem witness_OnlyBranchesReplacePcAndFarFormsPs : (∃ t, exec (.movbk .byte) rich = .next t) ∧ isBranch (.movbk .byte) = false ∧
    (∃ t, exec (.callNear 2) rich = .next t) ∧ isFar (.callNear 2) = false :=
  ⟨next_of_runs (by decide), rfl, next_of_runs (by decide), rfl⟩
theorem witness_OtherInstructionsKeepFlags : (∃ t, exec (.stm .word) rich = .next t) ∧ writesFlags (.stm .word) = false :=
  ⟨next_of_runs (by decide), rfl⟩
theorem witness_OtherRegistersUnchanged : (∃ t, exec (.ldm .word) rich = .next t) ∧ WReg.iy ∉ writtenRegs (.ldm .word) :=
  ⟨next_of_runs (by decide), by decide⟩
theorem witness_OtherBytesUnchanged : (∃ t, exec (.movbk .word) rich = .next t) ∧ 0x40402 ∉ storedAddrs (.movbk .word) rich ∧
    0x40401 ∈ storedAddrs (.movbk .word) rich := ⟨next_of_runs (by decide), by decide, by decide⟩
theorem witness_SfrHistoryOnlyGrows : view (step (code [0x8A, 0xC1] rich)) (fun _ => ()) = some () := by decide

/-- A loop over one instruction whose bytes are declared code. -/
def looping : State := { code [0xEB, 0xFE] base with codeRegion := [{ first := 0x10000, last := 0x10001 }] }

theorem next_of_view {o : Host.Outcome State Fault Refusal} {t : State} (h : view o id = some t) : o = .next t := by
  cases o with
  | next u => exact congrArg _ (Option.some.inj h)
  | fault r => exact absurd h (by simp [view])
  | refused r => exact absurd h (by simp [view])

theorem looping_one : RunsTo [.instruction] looping { looping with tick := 1 } := next_of_view (by decide)
theorem looping_two : RunsTo [.instruction, .instruction] looping { looping with tick := 2 } := next_of_view (by decide)

theorem witness_CodeRegionNeverChanges : NoInterruptTaken [.instruction, .instruction] ∧
    RunsTo [.instruction, .instruction] looping { looping with tick := 2 } ∧ inCode looping 0x10001 = true :=
  ⟨by unfold NoInterruptTaken; decide, looping_two, by decide⟩
theorem witness_RunKeepsDirIdbAndDataSegments : NoInterruptTaken [.instruction, .instruction] ∧
    RunsTo [.instruction, .instruction] looping { looping with tick := 2 } :=
  ⟨by unfold NoInterruptTaken; decide, looping_two⟩
theorem witness_EndOfRunIsASelfBranch : EndOfRun looping ∧ CodeInMemory 2 looping ∧
    NoInterruptTaken [.instruction, .instruction] := by
  unfold EndOfRun CodeAt CodeInMemory NoInterruptTaken; decide

/-- The launch premises can all be met at once (spec/70_reset_and_hazards.md R182), and an interrupt breaks one of them. -/
theorem test_launch_premises : LaunchPremises (fun _ => True)
    [.segment .ps 0x1000, .pc 0x0000, .word .sp 0x0100, .byte .al 0x00, .dir false, .idb 0xFF, .flag .z false]
    [.instruction, .instruction] looping ∧ ¬ NoInterruptTaken [.instruction, .interrupt looping] := by
  refine ⟨⟨⟨_, looping_two⟩, by unfold NoInterruptTaken; decide, fun k t h => ?_, trivial, by
    simp only [RegistersWritten, LaunchValue.Holds, List.forall_mem_cons]
    exact ⟨by decide, by decide, by decide, by decide, rfl, rfl, rfl, by simp⟩⟩, by unfold NoInterruptTaken; decide⟩
  have untouched : ∀ u : State, u.mem = looping.mem → u.sfrLog = looping.sfrLog → CodeUntouched looping u :=
    fun u hm hl => ⟨fun a _ => by rw [hm], [], by rw [hl, List.nil_append], by simp⟩
  have declared : ∀ u : State, u.segs = looping.segs → u.pc = looping.pc → u.codeRegion = looping.codeRegion →
      decode (fetchBytes u) = .ok (.brShort 0xFE) [] →
      ∀ i rest, decode (fetchBytes u) = .ok i rest → CodeDeclared (instrLength i) u := by
    intro u h1 h2 h3 h i rest h'
    obtain ⟨rfl, -⟩ := Decoded.ok.inj (h.symm.trans h')
    simp only [CodeDeclared, fetchAddr, inCode, h1, h2, h3]
    decide
  rcases k with _ | _ | k
  · have h : looping = t := Host.Outcome.next.inj h
    subst h
    exact ⟨untouched _ rfl rfl, fun _ => declared _ rfl rfl rfl (by decide)⟩
  · have h := looping_one.symm.trans h
    have h : { looping with tick := 1 } = t := Host.Outcome.next.inj h
    subst h
    exact ⟨untouched _ rfl rfl, fun _ => declared _ rfl rfl rfl (by decide)⟩
  · have h : runEvents [.instruction, .instruction] looping = .next t := by simpa [RunsTo] using h
    have h := Host.Outcome.next.inj (looping_two.symm.trans h)
    subst h
    exact ⟨untouched _ rfl rfl, fun hk => absurd hk (by simp)⟩

theorem witness_LabelDisplacementReachesTheLabel : asmShort 0x007F 0x0000 = some 0x7F ∧ asmShort 0xFF80 0x0000 = some 0x80 ∧
    asmShort 0x0080 0x0000 = none := by decide

end Sys2Proof.Tests
end

section
/-! PROOFS. What no instruction writes: IDB, DIR, SS, DS0, DS1, the launch parameters and the step count
(spec/10_state.md R17, R19), and with it where the special function register area lies. -/

namespace Sys2Proof.Machine

/-- The part of the state that only the launch and the step itself set, and no instruction's meaning. -/
structure Settings where
  dir : Bool
  idb : Byte
  ss : Word
  ds0 : Word
  ds1 : Word
  codeRegion : List CodeRange
  strictBitImm : Bool
  tick : Nat

def State.settings (s : State) : Settings where
  dir := s.dir
  idb := s.idb
  ss := s.segs.ss
  ds0 := s.segs.ds0
  ds1 := s.segs.ds1
  codeRegion := s.codeRegion
  strictBitImm := s.strictBitImm
  tick := s.tick

/-! ## The shared operations keep it -/

section
variable {s t : State}

@[simp] theorem settings_setW (r : WReg) (v : Word) : (setW r v s).settings = s.settings := rfl
@[simp] theorem settings_setB (r : BReg) (v : Byte) : (setB r v s).settings = s.settings := rfl
@[simp] theorem settings_setR (r : Reg) (v : BitVec r.width.bits) : (setR r v s).settings = s.settings := by
  simp [State.settings]
@[simp] theorem settings_setAcc (w : Width) (v : BitVec w.bits) : (setAcc w v s).settings = s.settings := by
  simp [State.settings]
@[simp] theorem settings_stepReg (w : Width) (r : WReg) : (stepReg w r s).settings = s.settings := rfl
@[simp] theorem settings_setFlags (f : Flags) : (setFlags f s).settings = s.settings := rfl
@[simp] theorem settings_setPc (v : Word) : (setPc v s).settings = s.settings := rfl
@[simp] theorem settings_setPsPc (seg off : Word) : (setPsPc seg off s).settings = s.settings := rfl
@[simp] theorem settings_branchShort (d : Byte) : (branchShort d s).settings = s.settings := rfl
@[simp] theorem settings_branchIf (c : Bool) (d : Byte) : (branchIf c d s).settings = s.settings := by
  simp [State.settings]
@[simp] theorem settings_decCw : (decCw s).settings = s.settings := rfl
@[simp] theorem settings_noteRead (a : Nat) : (noteRead a s).settings = s.settings := by simp [State.settings]
@[simp] theorem settings_afterRead (w : Width) (seg off : Word) : (afterRead w seg off s).settings = s.settings := by
  simp [State.settings]
@[simp] theorem settings_pokeByte (a : Nat) (v : Byte) : (pokeByte a v s).settings = s.settings := by
  simp [State.settings]
@[simp] theorem settings_poke (w : Width) (seg off : Word) (v : BitVec w.bits) :
    (poke w seg off v s).settings = s.settings := by
  simp [State.settings]

/-! ## The meanings that several instructions share keep it -/

theorem nearCall_settings {target : Word} (h : nearCall target s = .next t) : t.settings = s.settings := by
  obtain ⟨-, rfl⟩ := nearCall_eq_next.mp h
  simp

theorem farCall_settings {seg off : Word} (h : farCall seg off s = .next t) : t.settings = s.settings := by
  obtain ⟨-, -, rfl⟩ := farCall_eq_next.mp h
  simp

theorem testOperandBit_settings {o : BitOp} {b : Nat} (h : testOperandBit o b s = .next t) :
    t.settings = s.settings := by
  obtain ⟨-, rfl⟩ := testOperandBit_eq_next.mp h
  cases o <;> simp [bitAfterRead]

theorem modifyBitOp_settings {o : BitOp} {f : BitVec o.width.bits → BitVec o.width.bits}
    (h : modifyBitOp o f s = .next t) : t.settings = s.settings := by
  obtain ⟨-, -, rfl⟩ := modifyBitOp_eq_next.mp h
  cases o <;> simp [bitPoke]

theorem testClearBranch_settings {a b : Nat} {d : Byte} (h : testClearBranch a b d s = .next t) :
    t.settings = s.settings := by
  obtain ⟨-, -, rfl⟩ := testClearBranch_eq_next.mp h
  split <;> simp

/-! ## Every instruction keeps it -/

/-- No instruction writes DIR, IDB, SS, DS0, DS1, a launch parameter or the step count (R17, R19). -/
theorem exec_settings {i : Instr} (h : exec i s = .next t) : t.settings = s.settings := by
  cases i with
  | callNear d => exact nearCall_settings h
  | callReg r => exact nearCall_settings (execCallReg_eq_next.mp h).2
  | callMem16 m =>
    obtain ⟨-, hcall⟩ := execCallMem16_eq_next.mp h
    simpa using nearCall_settings hcall
  | callFar off seg => exact farCall_settings h
  | callMem32 m =>
    obtain ⟨-, hcall⟩ := execCallMem32_eq_next.mp h
    simpa using farCall_settings hcall
  | brNear | brShort | brReg | brFar =>
    obtain rfl := Host.Outcome.next.inj h
    rfl
  | brMem16 m => obtain ⟨-, rfl⟩ := execBrMem16_eq_next.mp h; simp
  | brMem32 m => obtain ⟨-, rfl⟩ := execBrMem32_eq_next.mp h; simp
  | bv | bnv | bc | bnc | be | bne | bnh | bh | bn | bp | bpe | bpo | blt | bge | ble | bgt | dbnzne | dbnze | dbnz
  | bcwz =>
    obtain rfl := Host.Outcome.next.inj h
    simp
  | movRegReg p | movRegImm p => cases p <;> (obtain rfl := Host.Outcome.next.inj h; simp)
  | mul dst src imm =>
    obtain rfl := Host.Outcome.next.inj h
    simp
  | movMemImm m imm => obtain ⟨-, rfl⟩ := execMovMemImm_eq_next.mp h; simp
  | movAccDmem w addr => obtain ⟨-, rfl⟩ := execMovAccDmem_eq_next.mp h; simp
  | subMemReg m r => obtain ⟨-, -, rfl⟩ := execSubMemReg_eq_next.mp h; simp
  | testMemImm m imm => obtain ⟨-, rfl⟩ := execTestMemImm_eq_next.mp h; simp
  | shlMem w m => obtain ⟨-, -, rfl⟩ := execShlMem_eq_next.mp h; simp
  | pushMem m => obtain ⟨-, -, rfl⟩ := execPushMem_eq_next.mp h; simp
  | movbk w => obtain ⟨-, -, rfl⟩ := execMovbk_eq_next.mp h; simp
  | cmpbk w => obtain ⟨-, -, rfl⟩ := execCmpbk_eq_next.mp h; simp
  | stm w => obtain ⟨-, rfl⟩ := execStm_eq_next.mp h; simp
  | ldm w => obtain ⟨-, rfl⟩ := execLdm_eq_next.mp h; simp
  | cmpm w => obtain ⟨-, rfl⟩ := execCmpm_eq_next.mp h; simp
  | test1Cl o => exact testOperandBit_settings h
  | test1Imm o n => exact testOperandBit_settings (execTest1Imm_eq_next.mp h).2
  | clr1Cl | set1Cl | not1Cl => exact modifyBitOp_settings h
  | clr1Imm o n => exact modifyBitOp_settings (execClr1Imm_eq_next.mp h).2
  | set1Imm o n => exact modifyBitOp_settings (execSet1Imm_eq_next.mp h).2
  | not1Imm o n => exact modifyBitOp_settings (execNot1Imm_eq_next.mp h).2
  | btclr sfr n d => exact testClearBranch_settings (execBtclr_eq_next.mp h).2

/-- No instruction writes IDB (R19). -/
theorem exec_idb {i : Instr} (h : exec i s = .next t) : t.idb = s.idb := congrArg Settings.idb (exec_settings h)

end

/-! ## The special function register area -/

/-- The area is the addresses whose last three hexadecimal digits are F00H to FFFH below the digits of IDB (R19, R41). -/
theorem inSfr_iff_digits (idb : Byte) (a : Nat) :
    inSfr idb a = true ↔ a / 0x1000 = idb.toNat ∧ 0xF00 ≤ a % 0x1000 ∧ a % 0x1000 ≤ 0xFFF := by
  rw [inSfr, Bool.and_eq_true, decide_eq_true_iff, decide_eq_true_iff, sfrBase]
  omega

/-- Settles O16: the area by the digits of its addresses, IDB by the frame of `exec`. -/
theorem sfrAreaLiesWhereIdbSays : Obligations.SfrAreaLiesWhereIdbSays :=
  ⟨inSfr_iff_digits, fun _ _ _ => exec_idb⟩

end Sys2Proof.Machine
end

section
/-! PROOFS. The decoder reads back what the encoder writes: the fields of a byte, the parts of an instruction, and the
forms with a memory or bit operand (spec/30_encoding.md R52, R55, R57, R62, R70). -/

namespace Sys2Proof

/-! ## The fields of a byte -/

@[simp] theorem modField_specByte (mod : BitVec 2) (mid mem : BitVec 3) : modField (specByte mod mid mem) = mod.toNat := by
  rw [modField, specByte, BitVec.extractLsb'_append_eq_of_le (by decide), BitVec.extractLsb'_append_eq_of_le (by decide),
    BitVec.extractLsb'_eq_self]

@[simp] theorem midField_specByte (mod : BitVec 2) (mid mem : BitVec 3) : midField (specByte mod mid mem) = mid.toNat := by
  rw [midField, specByte, BitVec.extractLsb'_append_eq_of_le (by decide), BitVec.extractLsb'_append_eq_of_add_le (by decide),
    BitVec.extractLsb'_eq_self]

@[simp] theorem memField_specByte (mod : BitVec 2) (mid mem : BitVec 3) : memField (specByte mod mid mem) = mem.toNat := by
  rw [memField, specByte, BitVec.extractLsb'_append_eq_of_add_le (by decide), BitVec.extractLsb'_eq_self]

@[simp] theorem wregOfCode_wregCode (r : WReg) : wregOfCode (wregCode r).toNat = r := by cases r <;> rfl

@[simp] theorem bregOfCode_bregCode (r : BReg) : bregOfCode (bregCode r).toNat = r := by cases r <;> rfl

@[simp] theorem regOfCode_regCode (r : Reg) : regOfCode r.width (regCode r).toNat = r := by
  cases r with
  | byte r => exact congrArg Reg.byte (bregOfCode_bregCode r)
  | word r => exact congrArg Reg.word (wregOfCode_wregCode r)

/-! ## The parts of an instruction -/

@[simp] theorem Decoded.andThen_ok {α β : Type} (a : α) (rest : List Byte) (f : α → List Byte → Decoded β) :
    (Decoded.ok a rest).andThen f = f a rest := rfl

@[simp] theorem Decoded.map_ok {α β : Type} (a : α) (rest : List Byte) (f : α → β) :
    (Decoded.ok a rest).map f = .ok (f a) rest := rfl

@[simp] theorem takeByte_cons (b : Byte) (bs : List Byte) : takeByte (b :: bs) = .ok b bs := rfl

@[simp] theorem takeWord_wordBytes (v : Word) (rest : List Byte) : takeWord (wordBytes v ++ rest) = .ok v rest := by
  simp [takeWord, wordBytes]

@[simp] theorem takeImm_immBytes (imm : Imm) (rest : List Byte) :
    takeImm imm.width (immBytes imm ++ rest) = .ok imm rest := by
  cases imm <;> simp [takeImm, immBytes]

/-! ## Memory operands -/

/-- The column `mod` = 00 of R55's table. -/
theorem decodeMem_specByte_zero (mid mem : BitVec 3) (bs : List Byte) :
    decodeMem (specByte 0 mid mem) bs = memNoDisp mem.toNat bs := by
  simp [decodeMem]

/-- The columns `mod` = 01 and 10 of R55's table. -/
theorem decodeMem_specByte_dispMod (d : Disp) (mid mem : BitVec 3) (rest : List Byte) :
    decodeMem (specByte (dispMod d) mid mem) (dispBytes d ++ rest) = .ok (memWithDisp mem.toNat d) rest := by
  cases d <;> simp [decodeMem, dispMod, dispBytes]

theorem dispMod_toNat_ne_three (d : Disp) : (dispMod d).toNat ≠ 3 := by cases d <;> simp [dispMod]

/-- What the decoder uses of the bytes `b :: bs` of the memory operand `m`: the middle field is `mid`, `mod` is not 11, and
the operand is read back from them (R55). -/
structure IsMemBytes (mid : BitVec 3) (m : MemOp) (b : Byte) (bs : List Byte) : Prop where
  mid_eq : midField b = mid.toNat
  mod_ne : modField b ≠ 3
  reads : ∀ rest, decodeMem b (bs ++ rest) = .ok m rest

theorem isMemBytes_noDisp {mid mem : BitVec 3} {m : MemOp} {bs : List Byte}
    (h : ∀ rest, memNoDisp mem.toNat (bs ++ rest) = .ok m rest) : IsMemBytes mid m (specByte 0 mid mem) bs where
  mid_eq := midField_specByte ..
  mod_ne := by simp
  reads rest := (decodeMem_specByte_zero ..).trans (h rest)

theorem isMemBytes_withDisp {mid mem : BitVec 3} {m : MemOp} {d : Disp} (h : memWithDisp mem.toNat d = m) :
    IsMemBytes mid m (specByte (dispMod d) mid mem) (dispBytes d) where
  mid_eq := midField_specByte ..
  mod_ne := by simp [dispMod_toNat_ne_three]
  reads rest := h ▸ decodeMem_specByte_dispMod d mid mem rest

theorem encodeMem_eq_cons (mid : BitVec 3) (m : MemOp) :
    ∃ b bs, encodeMem mid m = b :: bs ∧ IsMemBytes mid m b bs := by
  cases m with
  | direct a => exact ⟨_, wordBytes a, rfl, isMemBytes_noDisp fun rest => by simp [memNoDisp]⟩
  | indirect r => cases r <;> exact ⟨_, [], rfl, isMemBytes_noDisp fun _ => rfl⟩
  | index r d => cases r <;> exact ⟨_, _, rfl, isMemBytes_withDisp rfl⟩
  | based r d => cases r <;> exact ⟨_, _, rfl, isMemBytes_withDisp rfl⟩
  | basedIndex b i d =>
    cases d with
    | none => cases b <;> cases i <;> exact ⟨_, [], rfl, isMemBytes_noDisp fun _ => rfl⟩
    | some d => cases b <;> cases i <;> exact ⟨_, _, rfl, isMemBytes_withDisp rfl⟩

theorem decodeMemExt_encodeMem {n : Nat} {mid : BitVec 3} (hn : mid.toNat = n) (m : MemOp) (rest : List Byte) :
    decodeMemExt n (encodeMem mid m ++ rest) = .ok m rest := by
  obtain ⟨b, bs, hbytes, hmid, -, hreads⟩ := encodeMem_eq_cons mid m
  simp [hbytes, decodeMemExt, hmid, hn, hreads]

theorem decodeSub_encodeMem (m : MemOp) (r : Reg) (rest : List Byte) :
    decodeSub r.width (encodeMem (regCode r) m ++ rest) = .ok (.subMemReg m r) rest := by
  obtain ⟨b, bs, hbytes, hmid, -, hreads⟩ := encodeMem_eq_cons (regCode r) m
  simp [hbytes, decodeSub, hmid, hreads]

theorem decodeBitOp_encodeBitOp (o : BitOp) (rest : List Byte) :
    decodeBitOp o.width (encodeBitOp o ++ rest) = .ok o rest := by
  cases o with
  | reg r => simp [encodeBitOp, decodeBitOp]
  | mem w m =>
    obtain ⟨b, bs, hbytes, hmid, hmod, hreads⟩ := encodeMem_eq_cons 0 m
    rw [encodeBitOp, hbytes]
    simp [decodeBitOp, hmid, hmod, hreads]

/-! ## What the opcode byte selects (R64, R65) -/

theorem decode_FF (bs : List Byte) : decode (0xFF :: bs) = decodeFF bs := rfl

theorem decode_opW_sub (w : Width) (bs : List Byte) : decode (opW 0x14 w :: bs) = decodeSub w bs := by cases w <;> rfl

theorem decode_opW_movMemImm (w : Width) (bs : List Byte) : decode (opW 0x63 w :: bs) =
    (decodeMemExt 0 bs).andThen fun m bs => (takeImm w bs).map (.movMemImm m) := by cases w <;> rfl

theorem decode_opW_testMemImm (w : Width) (bs : List Byte) : decode (opW 0x7B w :: bs) =
    (decodeMemExt 0 bs).andThen fun m bs => (takeImm w bs).map (.testMemImm m) := by cases w <;> rfl

theorem decode_opW_shlMem (w : Width) (bs : List Byte) :
    decode (opW 0x68 w :: bs) = (decodeMemExt 4 bs).map (.shlMem w) := by cases w <;> rfl

/-! ## The instructions with a memory or bit operand -/

section
variable (m : MemOp) (o : BitOp) (n : Byte) (rest : List Byte)

/-- An instruction that the middle field behind FF selects. -/
theorem decode_FF_encodeMem {mid : BitVec 3} {f : MemOp → Instr}
    (hop : ∀ b bs, midField b = mid.toNat → modField b ≠ 3 → decodeFF (b :: bs) = (decodeMem b bs).map f) :
    decode (0xFF :: encodeMem mid m ++ rest) = .ok (f m) rest := by
  obtain ⟨b, bs, hbytes, hmid, hmod, hreads⟩ := encodeMem_eq_cons mid m
  rw [hbytes, List.cons_append, decode_FF, List.cons_append, hop _ _ hmid hmod, hreads, Decoded.map_ok]

theorem decode_encode_callMem16 : decode (encode (.callMem16 m) ++ rest) = .ok (.callMem16 m) rest :=
  decode_FF_encodeMem m rest fun b bs hmid hmod => by simp [decodeFF, hmid, hmod]

theorem decode_encode_callMem32 : decode (encode (.callMem32 m) ++ rest) = .ok (.callMem32 m) rest :=
  decode_FF_encodeMem m rest fun b bs hmid _ => by simp [decodeFF, hmid]

theorem decode_encode_brMem16 : decode (encode (.brMem16 m) ++ rest) = .ok (.brMem16 m) rest :=
  decode_FF_encodeMem m rest fun b bs hmid hmod => by simp [decodeFF, hmid, hmod]

theorem decode_encode_brMem32 : decode (encode (.brMem32 m) ++ rest) = .ok (.brMem32 m) rest :=
  decode_FF_encodeMem m rest fun b bs hmid _ => by simp [decodeFF, hmid]

theorem decode_encode_subMemReg (r : Reg) : decode (encode (.subMemReg m r) ++ rest) = .ok (.subMemReg m r) rest := by
  rw [encode, List.cons_append, decode_opW_sub, decodeSub_encodeMem]

theorem decode_encode_movMemImm (imm : Imm) :
    decode (encode (.movMemImm m imm) ++ rest) = .ok (.movMemImm m imm) rest := by
  rw [encode, List.cons_append, decode_opW_movMemImm, List.append_assoc, decodeMemExt_encodeMem (n := 0) rfl]
  simp

theorem decode_encode_testMemImm (imm : Imm) :
    decode (encode (.testMemImm m imm) ++ rest) = .ok (.testMemImm m imm) rest := by
  rw [encode, List.cons_append, decode_opW_testMemImm, List.append_assoc, decodeMemExt_encodeMem (n := 0) rfl]
  simp

theorem decode_encode_shlMem (w : Width) : decode (encode (.shlMem w m) ++ rest) = .ok (.shlMem w m) rest := by
  rw [encode, List.cons_append, decode_opW_shlMem, decodeMemExt_encodeMem (n := 4) rfl, Decoded.map_ok]

/-- A bit instruction whose opcode selects the form with CL. -/
theorem decode_bitCl {op : BitVec 7} {f : BitOp → Instr}
    (hop : ∀ w bs, decode (0x0F :: opW op w :: bs) = (decodeBitOp w bs).map f) :
    decode (0x0F :: opW op o.width :: encodeBitOp o ++ rest) = .ok (f o) rest := by
  rw [List.cons_append, List.cons_append, hop, decodeBitOp_encodeBitOp, Decoded.map_ok]

/-- A bit instruction whose opcode selects the form with a bit-number byte. -/
theorem decode_bitImm {op : BitVec 7} {f : BitOp → Byte → Instr}
    (hop : ∀ w bs, decode (0x0F :: opW op w :: bs) =
      (decodeBitOp w bs).andThen fun o bs => (takeByte bs).map (f o)) :
    decode (0x0F :: opW op o.width :: (encodeBitOp o ++ [n]) ++ rest) = .ok (f o n) rest := by
  rw [List.cons_append, List.cons_append, hop, List.append_assoc, decodeBitOp_encodeBitOp]
  simp

theorem decode_encode_test1Cl : decode (encode (.test1Cl o) ++ rest) = .ok (.test1Cl o) rest :=
  decode_bitCl o rest fun w _ => by cases w <;> rfl

theorem decode_encode_clr1Cl : decode (encode (.clr1Cl o) ++ rest) = .ok (.clr1Cl o) rest :=
  decode_bitCl o rest fun w _ => by cases w <;> rfl

theorem decode_encode_set1Cl : decode (encode (.set1Cl o) ++ rest) = .ok (.set1Cl o) rest :=
  decode_bitCl o rest fun w _ => by cases w <;> rfl

theorem decode_encode_not1Cl : decode (encode (.not1Cl o) ++ rest) = .ok (.not1Cl o) rest :=
  decode_bitCl o rest fun w _ => by cases w <;> rfl

theorem decode_encode_test1Imm : decode (encode (.test1Imm o n) ++ rest) = .ok (.test1Imm o n) rest :=
  decode_bitImm o n rest fun w _ => by cases w <;> rfl

theorem decode_encode_clr1Imm : decode (encode (.clr1Imm o n) ++ rest) = .ok (.clr1Imm o n) rest :=
  decode_bitImm o n rest fun w _ => by cases w <;> rfl

theorem decode_encode_set1Imm : decode (encode (.set1Imm o n) ++ rest) = .ok (.set1Imm o n) rest :=
  decode_bitImm o n rest fun w _ => by cases w <;> rfl

theorem decode_encode_not1Imm : decode (encode (.not1Imm o n) ++ rest) = .ok (.not1Imm o n) rest :=
  decode_bitImm o n rest fun w _ => by cases w <;> rfl

end

end Sys2Proof

namespace Sys2Proof.Machine

/-! ## What WORD PTR and DWORD PTR select (R70) -/

theorem memAddrs_length (w : Width) (m : MemOp) (s : State) : (memAddrs w m s).length = w.bytes := by
  cases w <;> rfl

theorem asmCall_decodes {a : Attr} {m : MemOp} {i : Instr} (h : asmCall a m = some i) (rest : List Byte) :
    decode (encode i ++ rest) = .ok i rest := by
  cases a with
  | byte => cases h
  | word => cases h; exact decode_encode_callMem16 m rest
  | dword => cases h; exact decode_encode_callMem32 m rest

theorem asmBr_decodes {a : Attr} {m : MemOp} {i : Instr} (h : asmBr a m = some i) (rest : List Byte) :
    decode (encode i ++ rest) = .ok i rest := by
  cases a with
  | byte => cases h
  | word => cases h; exact decode_encode_brMem16 m rest
  | dword => cases h; exact decode_encode_brMem32 m rest

/-- Settles O31: the choice of form by the assembler's definition, what the processor reads by the round trip of each form. -/
theorem attributesSelectTheOpcode : Obligations.AttributesSelectTheOpcode := by
  intro m rest
  refine ⟨rfl, rfl, rfl, rfl, rfl, rfl, fun a i h => h.elim (asmCall_decodes · rest) (asmBr_decodes · rest),
    fun a w _ => ⟨memAddrs_length w m, fun r _ => decode_encode_subMemReg m rest r, fun imm _ => ?_, fun n => ?_⟩⟩
  · simp only [List.forall_mem_cons]
    exact ⟨decode_encode_movMemImm m rest imm, decode_encode_testMemImm m rest imm, by simp⟩
  · simp only [List.forall_mem_cons]
    exact ⟨decode_encode_shlMem m rest w, decode_encode_test1Cl _ rest, decode_encode_clr1Cl _ rest,
      decode_encode_set1Cl _ rest, decode_encode_not1Cl _ rest, decode_encode_test1Imm _ n rest,
      decode_encode_clr1Imm _ n rest, decode_encode_set1Imm _ n rest, decode_encode_not1Imm _ n rest, by simp⟩

end Sys2Proof.Machine
end

section
/-! PROOFS. What the decoder does, said once: what each part reads from the bytes, and which row of the opcode table the
first byte, and behind 0F the second, selects (spec/30_encoding.md R52 to R67). From it the round trip of encoder and decoder
in both directions, the refused bytes, the lengths. -/

namespace Sys2Proof

open Sys2Proof.Claims

/-! ## The fields of a byte -/

theorem specByte_fields (b : Byte) : specByte (b.extractLsb' 6 2) (b.extractLsb' 3 3) (b.extractLsb' 0 3) = b := by
  rw [specByte, BitVec.extractLsb'_append_extractLsb'_eq_extractLsb' (by decide),
    BitVec.extractLsb'_append_extractLsb'_eq_extractLsb' (by decide), BitVec.extractLsb'_eq_self]

/-- Every byte is a memory specification byte. -/
theorem exists_specByte (b : Byte) : ∃ mod mid mem, b = specByte mod mid mem := ⟨_, _, _, (specByte_fields b).symm⟩

theorem bitVec2_cases : ∀ c : BitVec 2, c = 0 ∨ c = 1 ∨ c = 2 ∨ c = 3 := by decide

theorem bitVec3_cases :
    ∀ c : BitVec 3, c = 0 ∨ c = 1 ∨ c = 2 ∨ c = 3 ∨ c = 4 ∨ c = 5 ∨ c = 6 ∨ c = 7 := by decide

@[simp] theorem wregCode_wregOfCode (c : BitVec 3) : wregCode (wregOfCode c.toNat) = c := by revert c; decide

@[simp] theorem bregCode_bregOfCode (c : BitVec 3) : bregCode (bregOfCode c.toNat) = c := by revert c; decide

@[simp] theorem regOfCode_width (w : Width) (c : Nat) : (regOfCode w c).width = w := by cases w <;> rfl

@[simp] theorem regCode_regOfCode (w : Width) (c : BitVec 3) : regCode (regOfCode w c.toNat) = c := by
  cases w <;> simp [regOfCode, regCode]

theorem regOfCode_eq_iff {w : Width} {c : BitVec 3} {r : Reg} (hr : r.width = w) :
    regOfCode w c.toNat = r ↔ c = regCode r := by
  subst hr
  exact ⟨fun h => by rw [← h, regCode_regOfCode], fun h => by rw [h, regOfCode_regCode]⟩

/-! ## What the parts read -/

theorem Decoded.andThen_eq_ok {α β : Type} {d : Decoded α} {f : α → List Byte → Decoded β} {b : β} {rest : List Byte} :
    d.andThen f = .ok b rest ↔ ∃ a mid, d = .ok a mid ∧ f a mid = .ok b rest := by
  cases d <;> simp [andThen]

theorem Decoded.map_eq_ok {α β : Type} {d : Decoded α} {f : α → β} {b : β} {rest : List Byte} :
    d.map f = .ok b rest ↔ ∃ a, d = .ok a rest ∧ f a = b := by
  cases d <;> simp [map, andThen, and_comm]

theorem takeByte_eq_ok {bs rest : List Byte} {b : Byte} : takeByte bs = .ok b rest ↔ bs = b :: rest := by
  cases bs <;> simp [takeByte]

theorem takeWord_eq_ok {bs rest : List Byte} {v : Word} : takeWord bs = .ok v rest ↔ bs = wordBytes v ++ rest := by
  constructor
  · intro h
    simp only [takeWord, Decoded.andThen_eq_ok, takeByte_eq_ok] at h
    obtain ⟨lo, _, rfl, hi, _, rfl, h⟩ := h
    cases h
    simp [wordBytes]
  · rintro rfl; exact takeWord_wordBytes v rest

theorem takeImm_eq_ok {w : Width} {bs rest : List Byte} {imm : Imm} :
    takeImm w bs = .ok imm rest ↔ imm.width = w ∧ bs = immBytes imm ++ rest := by
  constructor
  · intro h
    cases w <;> (simp only [takeImm, Decoded.map_eq_ok, takeByte_eq_ok, takeWord_eq_ok] at h; obtain ⟨v, rfl, rfl⟩ := h)
    · exact ⟨rfl, rfl⟩
    · exact ⟨rfl, rfl⟩
  · rintro ⟨rfl, rfl⟩; exact takeImm_immBytes imm rest

/-- The column `mod` = 11 of R55's table: no memory operand. -/
theorem decodeMem_specByte_three (mid mem : BitVec 3) (bs : List Byte) :
    decodeMem (specByte 3 mid mem) bs = .refused .unknownEncoding := by
  simp [decodeMem]

theorem encodeMem_of_memNoDisp {mem : BitVec 3} {bs rest : List Byte} {m : MemOp} (mid : BitVec 3)
    (h : memNoDisp mem.toNat bs = .ok m rest) : specByte 0 mid mem :: bs = encodeMem mid m ++ rest := by
  rcases bitVec3_cases mem with rfl | rfl | rfl | rfl | rfl | rfl | rfl | rfl
  on_goal 7 =>
    obtain ⟨a, ha, rfl⟩ := Decoded.map_eq_ok.mp h
    rw [takeWord_eq_ok.mp ha]; rfl
  all_goals cases h; rfl

theorem encodeMem_memWithDisp (mid mem : BitVec 3) (d : Disp) :
    encodeMem mid (memWithDisp mem.toNat d) = specByte (dispMod d) mid mem :: dispBytes d := by
  rcases bitVec3_cases mem with rfl | rfl | rfl | rfl | rfl | rfl | rfl | rfl <;> cases d <;> rfl

/-- A memory operand is read from its encoding and from nothing else, whatever the middle field is (R55). -/
theorem decodeMem_eq_ok {b : Byte} {bs rest : List Byte} {m : MemOp} :
    decodeMem b bs = .ok m rest ↔ ∃ mid : BitVec 3, midField b = mid.toNat ∧ b :: bs = encodeMem mid m ++ rest := by
  constructor
  · intro h
    obtain ⟨mod, mid, mem, rfl⟩ := exists_specByte b
    refine ⟨mid, midField_specByte .., ?_⟩
    rcases bitVec2_cases mod with rfl | rfl | rfl | rfl
    · rw [decodeMem_specByte_zero] at h
      exact encodeMem_of_memNoDisp mid h
    · simp [decodeMem, Decoded.map_eq_ok, takeByte_eq_ok] at h
      obtain ⟨d, rfl, rfl⟩ := h
      rw [encodeMem_memWithDisp]; rfl
    · simp [decodeMem, Decoded.map_eq_ok, takeWord_eq_ok] at h
      obtain ⟨d, rfl, rfl⟩ := h
      rw [encodeMem_memWithDisp]; rfl
    · exact absurd h (by simp [decodeMem])
  · rintro ⟨mid, -, h⟩
    obtain ⟨b', bs', hbytes, -, -, hreads⟩ := encodeMem_eq_cons mid m
    rw [hbytes, List.cons_append, List.cons.injEq] at h
    rw [h.1, h.2, hreads]

theorem decodeMem_specByte_eq_ok {mod : BitVec 2} {mid mem : BitVec 3} {bs rest : List Byte} {m : MemOp} :
    decodeMem (specByte mod mid mem) bs = .ok m rest ↔ specByte mod mid mem :: bs = encodeMem mid m ++ rest := by
  simp only [decodeMem_eq_ok, midField_specByte]
  constructor
  · rintro ⟨mid', hmid, h⟩
    rwa [← BitVec.eq_of_toNat_eq hmid] at h
  · exact fun h => ⟨mid, rfl, h⟩

theorem takeByte_andThen_eq_ok {α : Type} {f : Byte → List Byte → Decoded α} {bs rest : List Byte} {a : α} :
    (takeByte bs).andThen f = .ok a rest ↔ ∃ b tail, bs = b :: tail ∧ f b tail = .ok a rest := by
  simp only [Decoded.andThen_eq_ok, takeByte_eq_ok]

/-- A part that begins with a memory specification byte. -/
theorem exists_specByte_of_andThen {α : Type} {f : Byte → List Byte → Decoded α} {bs rest : List Byte} {a : α}
    (h : (takeByte bs).andThen f = .ok a rest) :
    ∃ mod mid mem tail, bs = specByte mod mid mem :: tail ∧ f (specByte mod mid mem) tail = .ok a rest := by
  obtain ⟨b, tail, rfl, h⟩ := takeByte_andThen_eq_ok.mp h
  obtain ⟨mod, mid, mem, rfl⟩ := exists_specByte b
  exact ⟨mod, mid, mem, tail, rfl, h⟩

theorem decodeMemExt_eq_ok {n : Nat} {mid : BitVec 3} (hn : mid.toNat = n) {bs rest : List Byte} {m : MemOp} :
    decodeMemExt n bs = .ok m rest ↔ bs = encodeMem mid m ++ rest := by
  constructor
  · intro h
    obtain ⟨mod, mid', mem, tail, rfl, hm⟩ := exists_specByte_of_andThen h
    rw [midField_specByte] at hm
    split at hm
    next hmid =>
      obtain rfl : mid' = mid := BitVec.eq_of_toNat_eq (hmid.trans hn.symm)
      exact decodeMem_specByte_eq_ok.mp hm
    next => cases hm
  · rintro rfl; exact decodeMemExt_encodeMem hn m rest

theorem decodeBitOp_eq_ok {w : Width} {bs rest : List Byte} {o : BitOp} :
    decodeBitOp w bs = .ok o rest ↔ o.width = w ∧ bs = encodeBitOp o ++ rest := by
  constructor
  · intro h
    obtain ⟨mod, mid, mem, tail, rfl, ho⟩ := exists_specByte_of_andThen h
    simp only [midField_specByte, modField_specByte, memField_specByte] at ho
    split at ho
    next hmid =>
      obtain rfl : mid = 0 := BitVec.eq_of_toNat_eq hmid
      split at ho
      next hmod =>
        obtain rfl : mod = 3 := BitVec.eq_of_toNat_eq hmod
        cases ho
        simp [encodeBitOp]
      next =>
        obtain ⟨m, hm, rfl⟩ := Decoded.map_eq_ok.mp ho
        exact ⟨rfl, decodeMem_specByte_eq_ok.mp hm⟩
    next => cases ho
  · rintro ⟨rfl, rfl⟩; exact decodeBitOp_encodeBitOp o rest

end Sys2Proof
end

section
/-! PROOFS. The opcode map (spec/30_encoding.md R64, R65) as a relation with a constructor per row, tied to the decoder in
both directions; the round trip, the refused bytes and the lengths are read off it. -/

namespace Sys2Proof

open Sys2Proof.Claims

/-! ## Which row the opcode bytes select -/

/-- What the bytes behind 0F and the second byte `op` are decoded as. -/
inductive SecondByteSelects : Byte → List Byte → Decoded Instr → Prop
  | test1Cl (w : Width) (bs) : SecondByteSelects (opW 0x08 w) bs ((decodeBitOp w bs).map .test1Cl)
  | clr1Cl (w : Width) (bs) : SecondByteSelects (opW 0x09 w) bs ((decodeBitOp w bs).map .clr1Cl)
  | set1Cl (w : Width) (bs) : SecondByteSelects (opW 0x0A w) bs ((decodeBitOp w bs).map .set1Cl)
  | not1Cl (w : Width) (bs) : SecondByteSelects (opW 0x0B w) bs ((decodeBitOp w bs).map .not1Cl)
  | test1Imm (w : Width) (bs) : SecondByteSelects (opW 0x0C w) bs
      ((decodeBitOp w bs).andThen fun o bs => (takeByte bs).map (.test1Imm o))
  | clr1Imm (w : Width) (bs) : SecondByteSelects (opW 0x0D w) bs
      ((decodeBitOp w bs).andThen fun o bs => (takeByte bs).map (.clr1Imm o))
  | set1Imm (w : Width) (bs) : SecondByteSelects (opW 0x0E w) bs
      ((decodeBitOp w bs).andThen fun o bs => (takeByte bs).map (.set1Imm o))
  | not1Imm (w : Width) (bs) : SecondByteSelects (opW 0x0F w) bs
      ((decodeBitOp w bs).andThen fun o bs => (takeByte bs).map (.not1Imm o))
  | btclr (bs) : SecondByteSelects 0x9C bs
      ((takeByte bs).andThen fun sfr bs => (takeByte bs).andThen fun n bs => (takeByte bs).map (.btclr sfr n))
  | unknown {op : Byte} (bs) (h : op.toNat ∉ secondBytes) : SecondByteSelects op bs (.refused .unknownEncoding)

/-- What the bytes behind the first byte `op` are decoded as. -/
inductive FirstByteSelects : Byte → List Byte → Decoded Instr → Prop
  | refusedByName {op : Byte} (bs) (h : op.toNat ∈ prefixBytes) : FirstByteSelects op bs (.refused .prefixNotModelled)
  | ff (bs) : FirstByteSelects 0xFF bs (decodeFF bs)
  | of (bs) : FirstByteSelects 0x0F bs (decode0F bs)
  | movRegImmByte (c : BitVec 3) (bs) : FirstByteSelects (0xB0 + c.setWidth 8) bs
      ((takeByte bs).map fun v => .movRegImm (.byte (bregOfCode c.toNat) v))
  | movRegImmWord (c : BitVec 3) (bs) : FirstByteSelects (0xB8 + c.setWidth 8) bs
      ((takeWord bs).map fun v => .movRegImm (.word (wregOfCode c.toNat) v))
  | cond {op : Byte} {f : Byte → Instr} (bs) (h : condBranchOfOpcode op.toNat = some f) :
      FirstByteSelects op bs ((takeByte bs).map f)
  | callNear (bs) : FirstByteSelects 0xE8 bs ((takeWord bs).map .callNear)
  | callFar (bs) : FirstByteSelects 0x9A bs (takeFar .callFar bs)
  | brNear (bs) : FirstByteSelects 0xE9 bs ((takeWord bs).map .brNear)
  | brShort (bs) : FirstByteSelects 0xEB bs ((takeByte bs).map .brShort)
  | brFar (bs) : FirstByteSelects 0xEA bs (takeFar .brFar bs)
  | movRegReg (w : Width) (bs) : FirstByteSelects (opW 0x45 w) bs (decodeMovRegReg w bs)
  | mul (bs) : FirstByteSelects 0x69 bs (decodeMul bs)
  | movMemImm (w : Width) (bs) : FirstByteSelects (opW 0x63 w) bs
      ((decodeMemExt 0 bs).andThen fun m bs => (takeImm w bs).map (.movMemImm m))
  | movAccDmem (w : Width) (bs) : FirstByteSelects (opW 0x50 w) bs ((takeWord bs).map (.movAccDmem w))
  | subMemReg (w : Width) (bs) : FirstByteSelects (opW 0x14 w) bs (decodeSub w bs)
  | testMemImm (w : Width) (bs) : FirstByteSelects (opW 0x7B w) bs
      ((decodeMemExt 0 bs).andThen fun m bs => (takeImm w bs).map (.testMemImm m))
  | shlMem (w : Width) (bs) : FirstByteSelects (opW 0x68 w) bs ((decodeMemExt 4 bs).map (.shlMem w))
  | movbk (w : Width) (bs) : FirstByteSelects (opW 0x52 w) bs (.ok (.movbk w) bs)
  | cmpbk (w : Width) (bs) : FirstByteSelects (opW 0x53 w) bs (.ok (.cmpbk w) bs)
  | stm (w : Width) (bs) : FirstByteSelects (opW 0x55 w) bs (.ok (.stm w) bs)
  | ldm (w : Width) (bs) : FirstByteSelects (opW 0x56 w) bs (.ok (.ldm w) bs)
  | cmpm (w : Width) (bs) : FirstByteSelects (opW 0x57 w) bs (.ok (.cmpm w) bs)
  | unknown {op : Byte} (bs) (h : op.toNat ∉ firstBytes) (h' : op.toNat ∉ prefixBytes) :
      FirstByteSelects op bs (.refused .unknownEncoding)

theorem isPrefixByte_iff (op : Byte) : isPrefixByte op = true ↔ op.toNat ∈ prefixBytes := by
  simp only [isPrefixByte, prefixBytes, List.contains_iff_mem, List.mem_cons]
  tauto

/-- The bytes that start MOV reg, imm carry W in bit 3 and the register below it (R64). -/
theorem eq_of_and_F0_eq_B0 : ∀ op : Byte, op &&& 0xF0 = 0xB0 →
    op = (if op.getLsbD 3 then 0xB8 else 0xB0) + (op.extractLsb' 0 3).setWidth 8 := by decide

theorem and_F0_eq_B0_of_mem : ∀ op : Byte, op.toNat ∈ (List.range 16).map (0xB0 + ·) → op &&& 0xF0 = 0xB0 := by decide

theorem condBranchOfOpcode_isSome : ∀ n ∈ (List.range 16).map (0x70 + ·) ++ (List.range 4).map (0xE0 + ·),
    (condBranchOfOpcode n).isSome = true := by decide

theorem eq_ofNat_of_toNat_eq {op : Byte} {n : Nat} (h : op.toNat = n) : op = BitVec.ofNat 8 n := by simp [← h]

theorem firstByteSelects (op : Byte) (bs : List Byte) : FirstByteSelects op bs (decodeOp op bs) := by
  unfold decodeOp
  split
  · exact .refusedByName bs ((isPrefixByte_iff op).mp ‹_›)
  split
  · subst op; exact .ff bs
  split
  · subst op; exact .of bs
  split
  · rename_i hB0
    have hop := eq_of_and_F0_eq_B0 op hB0
    unfold decodeMovRegImm widthBit3
    split at hop <;> (rename_i hw; simp only [hw])
    · have := FirstByteSelects.movRegImmWord (op.extractLsb' 0 3) bs
      rwa [← hop] at this
    · have := FirstByteSelects.movRegImmByte (op.extractLsb' 0 3) bs
      rwa [← hop] at this
  split
  · exact .cond bs ‹_›
  rename_i hprefix hFF h0F hB0 _ hcond
  split
  on_goal 29 =>
    refine .unknown bs (fun hmem => ?_) fun hmem => hprefix ((isPrefixByte_iff op).mpr hmem)
    simp only [firstBytes, List.append_assoc, List.mem_append] at hmem
    rcases hmem with hmem | hmem | hmem | hmem
    · rw [BitVec.toNat_eq] at hFF h0F
      simp_all
    · simpa [hcond] using condBranchOfOpcode_isSome _ (List.mem_append_left _ hmem)
    · simpa [hcond] using condBranchOfOpcode_isSome _ (List.mem_append_right _ hmem)
    · exact hB0 (and_F0_eq_B0_of_mem op hmem)
  all_goals obtain rfl := eq_ofNat_of_toNat_eq ‹op.toNat = _›
  exacts [.callNear bs, .callFar bs, .brNear bs, .brShort bs, .brFar bs, .movRegReg .byte bs, .movRegReg .word bs, .mul bs,
    .movMemImm .byte bs, .movMemImm .word bs, .movAccDmem .byte bs, .movAccDmem .word bs, .subMemReg .byte bs,
    .subMemReg .word bs, .testMemImm .byte bs, .testMemImm .word bs, .shlMem .byte bs, .shlMem .word bs, .movbk .byte bs,
    .movbk .word bs, .cmpbk .byte bs, .cmpbk .word bs, .stm .byte bs, .stm .word bs, .ldm .byte bs, .ldm .word bs,
    .cmpm .byte bs, .cmpm .word bs]

theorem secondByteSelects (op : Byte) (bs : List Byte) : SecondByteSelects op bs (decode0F (op :: bs)) := by
  simp only [decode0F, takeByte_cons, Decoded.andThen_ok]
  split
  on_goal 18 => exact .unknown bs (by simp_all [secondBytes, List.range, List.range.loop])
  all_goals obtain rfl := eq_ofNat_of_toNat_eq ‹op.toNat = _›
  exacts [.test1Cl .byte bs, .test1Cl .word bs, .clr1Cl .byte bs, .clr1Cl .word bs, .set1Cl .byte bs, .set1Cl .word bs,
    .not1Cl .byte bs, .not1Cl .word bs, .test1Imm .byte bs, .test1Imm .word bs, .clr1Imm .byte bs, .clr1Imm .word bs,
    .set1Imm .byte bs, .set1Imm .word bs, .not1Imm .byte bs, .not1Imm .word bs, .btclr bs]

/-- The first byte selects a row, and the decoder goes by that row. -/
theorem decode_cons (op : Byte) (bs : List Byte) : ∃ d, FirstByteSelects op bs d ∧ decode (op :: bs) = d :=
  ⟨_, firstByteSelects op bs, rfl⟩

theorem decode_0F_cons (op : Byte) (bs : List Byte) : ∃ d, SecondByteSelects op bs d ∧ decode (0x0F :: op :: bs) = d :=
  ⟨_, secondByteSelects op bs, rfl⟩

/-! ## Encoding what was decoded -/

/-- `i` is well-formed and `bs` is its encoding with `rest` behind it. -/
def IsEncodedIn (bs : List Byte) (i : Instr) (rest : List Byte) : Prop := i.wf = true ∧ bs = encode i ++ rest

theorem condBranch_isEncoded {op : Byte} {f : Byte → Instr} (h : condBranchOfOpcode op.toNat = some f) (d : Byte)
    (rest : List Byte) : IsEncodedIn (op :: d :: rest) (f d) rest := by
  unfold condBranchOfOpcode at h
  split at h <;> cases h <;> (obtain rfl := eq_ofNat_of_toNat_eq ‹op.toNat = _›; exact ⟨rfl, rfl⟩)

theorem takeFar_eq_ok {f : Word → Word → Instr} {bs rest : List Byte} {i : Instr} (h : takeFar f bs = .ok i rest) :
    ∃ off seg, f off seg = i ∧ bs = wordBytes off ++ wordBytes seg ++ rest := by
  simp only [takeFar, Decoded.andThen_eq_ok, Decoded.map_eq_ok, takeWord_eq_ok] at h
  obtain ⟨off, _, rfl, seg, rfl, rfl⟩ := h
  exact ⟨off, seg, rfl, (List.append_assoc ..).symm⟩

/-- A form that FF and the middle field select, with a memory operand. -/
theorem ffMem_isEncoded {mod : BitVec 2} {mid mem : BitVec 3} {f : MemOp → Instr} {bs rest : List Byte} {i : Instr}
    (hwf : ∀ m, (f m).wf = true) (henc : ∀ m, encode (f m) = 0xFF :: encodeMem mid m)
    (h : (decodeMem (specByte mod mid mem) bs).map f = .ok i rest) :
    IsEncodedIn (0xFF :: specByte mod mid mem :: bs) i rest := by
  obtain ⟨m, hm, rfl⟩ := Decoded.map_eq_ok.mp h
  exact ⟨hwf m, by rw [henc, decodeMem_specByte_eq_ok.mp hm, List.cons_append]⟩

theorem decodeFF_isEncoded {bs rest : List Byte} {i : Instr} (h : decodeFF bs = .ok i rest) :
    IsEncodedIn (0xFF :: bs) i rest := by
  obtain ⟨mod, mid, mem, tail, rfl, hi⟩ := exists_specByte_of_andThen h
  simp only [midField_specByte, modField_specByte, memField_specByte] at hi
  have isThree : mod.toNat = 3 → mod = 3 := fun hmod => BitVec.eq_of_toNat_eq hmod
  split at hi
  next hmid =>
    obtain rfl : mid = 2 := BitVec.eq_of_toNat_eq hmid
    split at hi
    next hmod =>
      obtain rfl := isThree hmod
      split at hi
      next => cases hi
      next hsp => cases hi; exact ⟨by simpa [Instr.wf] using hsp, by simp [encode]⟩
    next => exact ffMem_isEncoded (fun _ => rfl) (fun _ => rfl) hi
  next hmid =>
    obtain rfl : mid = 3 := BitVec.eq_of_toNat_eq hmid
    exact ffMem_isEncoded (fun _ => rfl) (fun _ => rfl) hi
  next hmid =>
    obtain rfl : mid = 4 := BitVec.eq_of_toNat_eq hmid
    split at hi
    next hmod => obtain rfl := isThree hmod; cases hi; exact ⟨rfl, by simp [encode]⟩
    next => exact ffMem_isEncoded (fun _ => rfl) (fun _ => rfl) hi
  next hmid =>
    obtain rfl : mid = 5 := BitVec.eq_of_toNat_eq hmid
    exact ffMem_isEncoded (fun _ => rfl) (fun _ => rfl) hi
  next hmid =>
    obtain rfl : mid = 6 := BitVec.eq_of_toNat_eq hmid
    exact ffMem_isEncoded (fun _ => rfl) (fun _ => rfl) hi
  next => cases hi

/-- A bit instruction with CL. -/
theorem bitCl_isEncoded {op : BitVec 7} {w : Width} {f : BitOp → Instr} {bs rest : List Byte} {i : Instr}
    (hwf : ∀ o, (f o).wf = true) (henc : ∀ o, encode (f o) = 0x0F :: opW op o.width :: encodeBitOp o)
    (h : (decodeBitOp w bs).map f = .ok i rest) : IsEncodedIn (0x0F :: opW op w :: bs) i rest := by
  simp only [Decoded.map_eq_ok, decodeBitOp_eq_ok] at h
  obtain ⟨o, ⟨rfl, rfl⟩, rfl⟩ := h
  exact ⟨hwf o, by rw [henc]; rfl⟩

/-- A bit instruction with a bit-number byte. -/
theorem bitImm_isEncoded {op : BitVec 7} {w : Width} {f : BitOp → Byte → Instr} {bs rest : List Byte} {i : Instr}
    (hwf : ∀ o n, (f o n).wf = true)
    (henc : ∀ o n, encode (f o n) = 0x0F :: opW op o.width :: (encodeBitOp o ++ [n]))
    (h : ((decodeBitOp w bs).andThen fun o bs => (takeByte bs).map (f o)) = .ok i rest) :
    IsEncodedIn (0x0F :: opW op w :: bs) i rest := by
  simp only [Decoded.andThen_eq_ok, Decoded.map_eq_ok, decodeBitOp_eq_ok, takeByte_eq_ok] at h
  obtain ⟨o, _, ⟨rfl, rfl⟩, n, rfl, rfl⟩ := h
  exact ⟨hwf o n, by simp [henc]⟩

theorem decode0F_isEncoded {bs rest : List Byte} {i : Instr} (h : decode0F bs = .ok i rest) :
    IsEncodedIn (0x0F :: bs) i rest := by
  obtain ⟨op, bs, rfl, -⟩ := takeByte_andThen_eq_ok.mp h
  have hs := secondByteSelects op bs
  rw [h] at hs
  generalize hd : Decoded.ok i rest = d at hs
  cases hs with
  | test1Cl w | clr1Cl w | set1Cl w | not1Cl w => exact bitCl_isEncoded (fun _ => rfl) (fun _ => rfl) hd.symm
  | test1Imm w | clr1Imm w | set1Imm w | not1Imm w =>
    exact bitImm_isEncoded (fun _ _ => rfl) (fun _ _ => rfl) hd.symm
  | btclr =>
    have hi := hd.symm
    simp only [Decoded.andThen_eq_ok, Decoded.map_eq_ok, takeByte_eq_ok] at hi
    obtain ⟨sfr, _, rfl, n, _, rfl, d, rfl, rfl⟩ := hi
    exact ⟨rfl, rfl⟩
  | unknown => cases hd

/-- What the decoder reads from a first byte and the bytes behind it is encoded in them. -/
theorem decode_cons_isEncoded {op : Byte} {bs rest : List Byte} {i : Instr} (h : decode (op :: bs) = .ok i rest) :
    IsEncodedIn (op :: bs) i rest := by
  obtain ⟨d, hs, hd⟩ := decode_cons op bs
  rw [hd] at h
  cases hs with
  | refusedByName | unknown => cases h
  | ff => exact decodeFF_isEncoded h
  | of => exact decode0F_isEncoded h
  | cond _ hf =>
    simp only [Decoded.map_eq_ok, takeByte_eq_ok] at h
    obtain ⟨d, rfl, rfl⟩ := h
    exact condBranch_isEncoded hf d rest
  | callFar | brFar =>
    obtain ⟨off, seg, rfl, rfl⟩ := takeFar_eq_ok h
    exact ⟨rfl, rfl⟩
  | movRegImmByte | movRegImmWord | callNear | brNear | brShort | movAccDmem w =>
    simp only [Decoded.map_eq_ok, takeByte_eq_ok, takeWord_eq_ok] at h
    obtain ⟨v, rfl, rfl⟩ := h
    exact ⟨rfl, by simp [encode]⟩
  | movRegReg w =>
    obtain ⟨mod, mid, mem, tail, rfl, hi⟩ := exists_specByte_of_andThen h
    simp only [midField_specByte, modField_specByte, memField_specByte] at hi
    split at hi
    next hmod =>
      obtain rfl : mod = 3 := BitVec.eq_of_toNat_eq hmod
      cases w <;> (cases hi; exact ⟨rfl, by simp [encode]; rfl⟩)
    next => cases hi
  | mul =>
    obtain ⟨mod, mid, mem, tail, rfl, hi⟩ := exists_specByte_of_andThen h
    simp only [midField_specByte, modField_specByte, memField_specByte] at hi
    split at hi
    next hmod =>
      obtain rfl : mod = 3 := BitVec.eq_of_toNat_eq hmod
      simp only [Decoded.map_eq_ok, takeWord_eq_ok] at hi
      obtain ⟨imm, rfl, rfl⟩ := hi
      exact ⟨rfl, by simp [encode]⟩
    next => cases hi
  | movMemImm w | testMemImm w =>
    simp only [Decoded.andThen_eq_ok, Decoded.map_eq_ok, takeImm_eq_ok] at h
    obtain ⟨m, _, hm, imm, ⟨rfl, rfl⟩, rfl⟩ := h
    exact ⟨rfl, by simp [encode, (decodeMemExt_eq_ok (n := 0) (mid := 0) rfl).mp hm]⟩
  | subMemReg w =>
    obtain ⟨mod, mid, mem, tail, rfl, hi⟩ := exists_specByte_of_andThen h
    obtain ⟨m, hm, rfl⟩ := Decoded.map_eq_ok.mp hi
    rw [decodeMem_specByte_eq_ok] at hm
    exact ⟨rfl, by simp [encode, hm]⟩
  | shlMem w =>
    obtain ⟨m, hm, rfl⟩ := Decoded.map_eq_ok.mp h
    exact ⟨rfl, by simp [encode, (decodeMemExt_eq_ok (n := 4) (mid := 4) rfl).mp hm]⟩
  | movbk w | cmpbk w | stm w | ldm w | cmpm w => cases h; exact ⟨rfl, rfl⟩

/-- Settles O2: by the row that the first byte selects, each of which reads its parts from their encodings and nothing else. -/
theorem decodedBytesAreTheEncoding : Obligations.DecodedBytesAreTheEncoding := by
  intro bs i rest h
  cases bs with
  | nil => cases h
  | cons op bs => exact decode_cons_isEncoded h

/-! ## Decoding what was encoded -/

theorem takeFar_wordBytes (f : Word → Word → Instr) (off seg : Word) (rest : List Byte) :
    takeFar f (wordBytes off ++ wordBytes seg ++ rest) = .ok (f off seg) rest := by
  simp [takeFar, List.append_assoc]

theorem decode_encode_callReg {r : WReg} (hr : r ≠ .sp) (rest : List Byte) :
    decode (encode (.callReg r) ++ rest) = .ok (.callReg r) rest := by
  change decodeFF (specByte 3 2 (wregCode r) :: rest) = _
  simp [decodeFF, hr]

theorem decode_encode_brReg (r : WReg) (rest : List Byte) :
    decode (encode (.brReg r) ++ rest) = .ok (.brReg r) rest := by
  change decodeFF (specByte 3 4 (wregCode r) :: rest) = _
  simp [decodeFF]

theorem decode_encode_mul (d x : WReg) (imm : Word) (rest : List Byte) :
    decode (encode (.mul d x imm) ++ rest) = .ok (.mul d x imm) rest := by
  change decodeMul (specByte 3 (wregCode d) (wregCode x) :: (wordBytes imm ++ rest)) = _
  simp [decodeMul]

theorem decode_encode_pushMem (m : MemOp) (rest : List Byte) :
    decode (encode (.pushMem m) ++ rest) = .ok (.pushMem m) rest :=
  decode_FF_encodeMem m rest fun b bs hmid _ => by simp [decodeFF, hmid]

theorem decode_encode_movRegReg (p : RegPair) (rest : List Byte) :
    decode (encode (.movRegReg p) ++ rest) = .ok (.movRegReg p) rest := by
  cases p with
  | byte d x => cases d <;> cases x <;> rfl
  | word d x => cases d <;> cases x <;> rfl

theorem decode_encode_movRegImm (p : RegImm) (rest : List Byte) :
    decode (encode (.movRegImm p) ++ rest) = .ok (.movRegImm p) rest := by
  cases p with
  | byte r v => cases r <;> rfl
  | word r v =>
    cases r <;> exact congrArg (Decoded.map · fun v => Instr.movRegImm (.word _ v)) (takeWord_wordBytes v rest)

/-- Settles O1: each form is read back part by part. -/
theorem decodeOfEncodeGivesInstruction : Obligations.DecodeOfEncodeGivesInstruction := by
  intro i rest hwf
  cases i with
  | callNear d => exact congrArg (Decoded.map · Instr.callNear) (takeWord_wordBytes d rest)
  | brNear d => exact congrArg (Decoded.map · Instr.brNear) (takeWord_wordBytes d rest)
  | movAccDmem w a =>
    cases w <;> exact congrArg (Decoded.map · (Instr.movAccDmem _)) (takeWord_wordBytes a rest)
  | callReg r => exact decode_encode_callReg (by simpa [Instr.wf] using hwf) rest
  | callMem16 m => exact decode_encode_callMem16 m rest
  | callMem32 m => exact decode_encode_callMem32 m rest
  | brReg r => exact decode_encode_brReg r rest
  | brMem16 m => exact decode_encode_brMem16 m rest
  | brMem32 m => exact decode_encode_brMem32 m rest
  | callFar off seg | brFar off seg => exact takeFar_wordBytes _ off seg rest
  | brShort | bv | bnv | bc | bnc | be | bne | bnh | bh | bn | bp | bpe | bpo | blt | bge | ble | bgt | dbnzne | dbnze
  | dbnz | bcwz | btclr => rfl
  | movbk w | cmpbk w | stm w | ldm w | cmpm w => cases w <;> rfl
  | movRegReg p => exact decode_encode_movRegReg p rest
  | movRegImm p => exact decode_encode_movRegImm p rest
  | mul d x imm => exact decode_encode_mul d x imm rest
  | movMemImm m imm => exact decode_encode_movMemImm m rest imm
  | subMemReg m r => exact decode_encode_subMemReg m rest r
  | testMemImm m imm => exact decode_encode_testMemImm m rest imm
  | shlMem w m => exact decode_encode_shlMem m rest w
  | pushMem m => exact decode_encode_pushMem m rest
  | test1Cl o => exact decode_encode_test1Cl o rest
  | test1Imm o n => exact decode_encode_test1Imm o n rest
  | clr1Cl o => exact decode_encode_clr1Cl o rest
  | clr1Imm o n => exact decode_encode_clr1Imm o n rest
  | set1Cl o => exact decode_encode_set1Cl o rest
  | set1Imm o n => exact decode_encode_set1Imm o n rest
  | not1Cl o => exact decode_encode_not1Cl o rest
  | not1Imm o n => exact decode_encode_not1Imm o n rest

/-! ## Refused bytes -/

theorem condBranchOfOpcode_mem {n : Nat} {f : Byte → Instr} (h : condBranchOfOpcode n = some f) : n ∈ firstBytes := by
  unfold condBranchOfOpcode at h
  split at h
  on_goal 21 => cases h
  all_goals decide

theorem movRegImm_mem_firstBytes : ∀ c : BitVec 3,
    (0xB0 + c.setWidth 8 : Byte).toNat ∈ firstBytes ∧ (0xB8 + c.setWidth 8 : Byte).toNat ∈ firstBytes := by decide

theorem decode_of_refusedByName {op : Byte} (h : op.toNat ∈ prefixBytes) (bs : List Byte) :
    decode (op :: bs) = .refused .prefixNotModelled := by
  change decodeOp op bs = _
  rw [decodeOp, if_pos ((isPrefixByte_iff op).mpr h)]

/-- A byte that starts no row and is refused under no name of its own is refused as unknown. -/
theorem decode_of_first_unknown {op : Byte} (h : op.toNat ∉ firstBytes) (h' : op.toNat ∉ prefixBytes) (bs : List Byte) :
    decode (op :: bs) = .refused .unknownEncoding := by
  obtain ⟨d, hs, hd⟩ := decode_cons op bs
  rw [hd]
  cases hs with
  | unknown => rfl
  | refusedByName _ hp => exact absurd hp h'
  | cond _ hf => exact absurd (condBranchOfOpcode_mem hf) h
  | movRegImmByte c => exact absurd (movRegImm_mem_firstBytes c).1 h
  | movRegImmWord c => exact absurd (movRegImm_mem_firstBytes c).2 h
  | ff | of | callNear | callFar | brNear | brShort | brFar | mul => exact absurd (by decide) h
  | movRegReg w | movMemImm w | movAccDmem w | subMemReg w | testMemImm w | shlMem w | movbk w | cmpbk w | stm w | ldm w
  | cmpm w => exact absurd (by cases w <;> decide) h

theorem decode_of_second_unknown {op : Byte} (h : op.toNat ∉ secondBytes) (bs : List Byte) :
    decode (0x0F :: op :: bs) = .refused .unknownEncoding := by
  obtain ⟨d, hs, hd⟩ := decode_0F_cons op bs
  rw [hd]
  cases hs with
  | unknown => rfl
  | btclr => exact absurd (by decide) h
  | test1Cl w | clr1Cl w | set1Cl w | not1Cl w | test1Imm w | clr1Imm w | set1Imm w | not1Imm w =>
    exact absurd (by cases w <;> decide) h

theorem decodeMemExt_of_mid_ne {n : Nat} {mid : BitVec 3} (h : mid.toNat ≠ n) (mod : BitVec 2) (mem : BitVec 3)
    (bs : List Byte) : decodeMemExt n (specByte mod mid mem :: bs) = .refused .unknownEncoding := by
  simp [decodeMemExt, h]

theorem decodeMemExt_three (n : Nat) (mid mem : BitVec 3) (bs : List Byte) :
    decodeMemExt n (specByte 3 mid mem :: bs) = .refused .unknownEncoding := by
  rw [decodeMemExt, takeByte_cons, Decoded.andThen_ok, decodeMem_specByte_three, ite_self]

theorem decodeBitOp_of_mid_ne {mid : BitVec 3} (h : mid.toNat ≠ 0) (w : Width) (mod : BitVec 2) (mem : BitVec 3)
    (bs : List Byte) : decodeBitOp w (specByte mod mid mem :: bs) = .refused .unknownEncoding := by
  simp [decodeBitOp, h]

theorem decode_of_ext0_refused {op : Byte} {bs : List Byte} {r : DecodeRefusal}
    (hop : op.toNat ∈ [0xC6, 0xC7, 0xF6, 0xF7]) (h : decodeMemExt 0 bs = .refused r) :
    decode (op :: bs) = .refused r := by
  simp only [List.mem_cons, List.not_mem_nil, or_false] at hop
  rcases hop with hop | hop | hop | hop <;> obtain rfl := eq_ofNat_of_toNat_eq hop
  · exact (decode_opW_movMemImm .byte bs).trans (by rw [h]; rfl)
  · exact (decode_opW_movMemImm .word bs).trans (by rw [h]; rfl)
  · exact (decode_opW_testMemImm .byte bs).trans (by rw [h]; rfl)
  · exact (decode_opW_testMemImm .word bs).trans (by rw [h]; rfl)

theorem decode_of_ext4_refused {op : Byte} {bs : List Byte} {r : DecodeRefusal}
    (hop : op.toNat ∈ [0xD0, 0xD1]) (h : decodeMemExt 4 bs = .refused r) : decode (op :: bs) = .refused r := by
  simp only [List.mem_cons, List.not_mem_nil, or_false] at hop
  rcases hop with hop | hop <;> obtain rfl := eq_ofNat_of_toNat_eq hop
  · exact (decode_opW_shlMem .byte bs).trans (by rw [h]; rfl)
  · exact (decode_opW_shlMem .word bs).trans (by rw [h]; rfl)

theorem decode_of_subMem_refused {op b : Byte} {bs : List Byte} {r : DecodeRefusal}
    (hop : op.toNat ∈ [0x28, 0x29]) (h : decodeMem b bs = .refused r) : decode (op :: b :: bs) = .refused r := by
  simp only [List.mem_cons, List.not_mem_nil, or_false] at hop
  rcases hop with hop | hop <;> obtain rfl := eq_ofNat_of_toNat_eq hop
  · exact (decode_opW_sub .byte (b :: bs)).trans (by simp [decodeSub, h]; rfl)
  · exact (decode_opW_sub .word (b :: bs)).trans (by simp [decodeSub, h]; rfl)

/-- A form that takes memory alone, written with `mod` = 11 (R66). -/
theorem decode_memOnly_three {op : Byte} (hop : op.toNat ∈ [0x28, 0x29, 0xC6, 0xC7, 0xD0, 0xD1, 0xF6, 0xF7])
    (mid mem : BitVec 3) (bs : List Byte) : decode (op :: specByte 3 mid mem :: bs) = .refused .unknownEncoding := by
  have hop : op.toNat ∈ [0x28, 0x29] ∨ op.toNat ∈ [0xC6, 0xC7, 0xF6, 0xF7] ∨ op.toNat ∈ [0xD0, 0xD1] := by
    simp only [List.mem_cons] at hop ⊢
    tauto
  rcases hop with hop | hop | hop
  · exact decode_of_subMem_refused hop (decodeMem_specByte_three ..)
  · exact decode_of_ext0_refused hop (decodeMemExt_three ..)
  · exact decode_of_ext4_refused hop (decodeMemExt_three ..)

/-- A form that takes registers alone, written with another `mod` than 11 (R66). -/
theorem decode_regOnly_of_mod_ne {op : Byte} (hop : op.toNat ∈ [0x8A, 0x8B, 0x69]) {mod : BitVec 2} (hmod : mod.toNat ≠ 3)
    (mid mem : BitVec 3) (bs : List Byte) : decode (op :: specByte mod mid mem :: bs) = .refused .unknownEncoding := by
  simp only [List.mem_cons, List.not_mem_nil, or_false] at hop
  rcases hop with hop | hop | hop <;> obtain rfl := eq_ofNat_of_toNat_eq hop <;>
    exact if_neg (by rwa [modField_specByte])

/-- The middle fields behind FF that the table lacks (R66). -/
theorem decodeFF_of_mid {mid : BitVec 3} (h : mid.toNat < 2 ∨ mid.toNat = 7) (mod : BitVec 2) (mem : BitVec 3)
    (bs : List Byte) : decode (0xFF :: specByte mod mid mem :: bs) = .refused .unknownEncoding := by
  rw [decode_FF, decodeFF, takeByte_cons, Decoded.andThen_ok, midField_specByte]
  have h : mid.toNat = 0 ∨ mid.toNat = 1 ∨ mid.toNat = 7 := by omega
  rcases h with h | h | h <;> rw [h] <;> rfl

/-- The middle fields behind FF that take memory alone, with `mod` = 11 (R66). -/
theorem decodeFF_three {mid : BitVec 3} (h : mid.toNat = 3 ∨ mid.toNat = 5 ∨ mid.toNat = 6) (mem : BitVec 3)
    (bs : List Byte) : decode (0xFF :: specByte 3 mid mem :: bs) = .refused .unknownEncoding := by
  rw [decode_FF, decodeFF, takeByte_cons, Decoded.andThen_ok, midField_specByte, decodeMem_specByte_three]
  rcases h with h | h | h <;> rw [h] <;> rfl

/-- A bit instruction with a middle field other than 000 (R66). -/
theorem decode_bit_of_mid_ne {op : Byte} (h1 : 0x10 ≤ op.toNat) (h2 : op.toNat ≤ 0x1F) {mid : BitVec 3}
    (hmid : mid.toNat ≠ 0) (mod : BitVec 2) (mem : BitVec 3) (bs : List Byte) :
    decode (0x0F :: op :: specByte mod mid mem :: bs) = .refused .unknownEncoding := by
  obtain ⟨d, hs, hd⟩ := decode_0F_cons op (specByte mod mid mem :: bs)
  rw [hd]
  cases hs with
  | unknown => rfl
  | btclr => exact absurd h2 (by decide)
  | test1Cl w | clr1Cl w | set1Cl w | not1Cl w => rw [decodeBitOp_of_mid_ne hmid]; rfl
  | test1Imm w | clr1Imm w | set1Imm w | not1Imm w => rw [decodeBitOp_of_mid_ne hmid]; rfl

/-- Settles O6: one lemma per clause. -/
theorem unknownEncodingsRefused : Obligations.UnknownEncodingsRefused := by
  refine ⟨fun op bs h h' => decode_of_first_unknown h h' bs, fun mod mid mem bs h => decodeFF_of_mid h mod mem bs,
    fun op bs h => decode_of_second_unknown h bs, fun mid mem bs h => decodeFF_three h mem bs,
    fun op mid mem bs h => decode_memOnly_three h mid mem bs,
    fun op mod mid mem bs h hmod => decode_regOnly_of_mod_ne h hmod mid mem bs, fun op mod mid mem bs h => ?_,
    fun op mod mid mem bs h1 h2 h => decode_bit_of_mid_ne h1 h2 h mod mem bs⟩
  rcases h with ⟨hop, hmid⟩ | ⟨hop, hmid⟩
  · exact decode_of_ext0_refused hop (decodeMemExt_of_mid_ne hmid ..)
  · exact decode_of_ext4_refused hop (decodeMemExt_of_mid_ne hmid ..)

/-! ## Lengths (R63) -/

theorem encodeMem_length (mid : BitVec 3) (m : MemOp) : (encodeMem mid m).length = 1 + memDispLength m := by
  rcases m with a | ⟨⟨⟩⟩ | ⟨⟨⟩, ⟨⟩⟩ | ⟨⟨⟩, ⟨⟩⟩ | ⟨b, i, _ | ⟨⟨⟩⟩⟩ <;> rfl

theorem memDispLength_le (m : MemOp) : memDispLength m ≤ 2 := by
  rcases m with a | r | ⟨r, ⟨⟩⟩ | ⟨r, ⟨⟩⟩ | ⟨b, i, _ | ⟨⟨⟩⟩⟩ <;> simp [memDispLength]

theorem encodeBitOp_length (o : BitOp) : (encodeBitOp o).length = 1 + bitOpDispLength o := by
  cases o with
  | reg r => rfl
  | mem w m => exact encodeMem_length 0 m

theorem bitOpDispLength_le (o : BitOp) : bitOpDispLength o ≤ 2 := by
  cases o with
  | reg r => exact Nat.zero_le _
  | mem w m => exact memDispLength_le m

theorem immBytes_length (imm : Imm) : (immBytes imm).length = imm.width.bytes := by cases imm <;> rfl

theorem encode_length (i : Instr) : (encode i).length = instrLength i := by
  cases i with
  | movRegReg p | movRegImm p => cases p <;> rfl
  | callMem16 | callMem32 | brMem16 | brMem32 | pushMem | subMemReg | shlMem | movMemImm | testMemImm =>
    simp [encode, instrLength, encodeMem_length, immBytes_length]; omega
  | test1Cl | clr1Cl | set1Cl | not1Cl | test1Imm | clr1Imm | set1Imm | not1Imm =>
    simp [encode, instrLength, encodeBitOp_length]; omega
  | _ => rfl

theorem instrLength_le (i : Instr) : instrLength i ≤ maxLength := by
  cases i with
  | movRegImm p => cases p <;> simp [instrLength, maxLength]
  | callMem16 m | callMem32 m | brMem16 m | brMem32 m | pushMem m | subMemReg m | shlMem _ m =>
    have := memDispLength_le m
    simp only [instrLength, maxLength]
    omega
  | movMemImm m imm | testMemImm m imm =>
    have := memDispLength_le m
    have : imm.width.bytes ≤ 2 := by cases imm <;> simp
    simp only [instrLength, maxLength]
    omega
  | test1Cl o | clr1Cl o | set1Cl o | not1Cl o | test1Imm o | clr1Imm o | set1Imm o | not1Imm o =>
    have := bitOpDispLength_le o
    simp only [instrLength, maxLength]
    omega
  | _ => simp only [instrLength, maxLength]; decide

theorem encode_ne_nil (i : Instr) : encode i ≠ [] := by
  cases i with
  | movRegReg p | movRegImm p => cases p <;> exact List.cons_ne_nil _ _
  | _ => exact List.cons_ne_nil _ _

/-- Settles O3: the parts' lengths added up. -/
theorem encodedLengthIsTheFormula : Obligations.EncodedLengthIsTheFormula := fun i =>
  ⟨encode_length i, encode_length i ▸ List.length_pos_iff.mpr (encode_ne_nil i), instrLength_le i⟩

/-- Settles O4, by running the decoder. -/
theorem sourceExampleWordsDecode : Obligations.SourceExampleWordsDecode := by
  unfold Obligations.SourceExampleWordsDecode
  decide

end Sys2Proof
end

section
/-! PROOFS. What the fields of the bytes name: the memory operand by R55's table (spec/30_encoding.md R55,
spec/42_memory_operand_modes.md R131), the register by R52 to R54 (spec/41_operand_register_immediate_direct.md). -/

namespace Sys2Proof

open Sys2Proof.Machine Sys2Proof.Claims

/-! ## Memory operands -/

theorem ea_memWithDisp (mem : BitVec 3) (d : Disp) (s : State) :
    ea (memWithDisp mem.toNat d) s = tableSum mem s + dispVal d := by
  rcases bitVec3_cases mem with rfl | rfl | rfl | rfl | rfl | rfl | rfl | rfl <;> rfl

theorem memSeg_memWithDisp (mem : BitVec 3) (d : Disp) (s : State) :
    memSeg (memWithDisp mem.toNat d) s = tableSeg mem s := by
  rcases bitVec3_cases mem with rfl | rfl | rfl | rfl | rfl | rfl | rfl | rfl <;> rfl

theorem memNoDisp_table {mem : BitVec 3} (hmem : mem ≠ 6) (bs : List Byte) (s : State) :
    ∃ m, memNoDisp mem.toNat bs = .ok m bs ∧ ea m s = tableSum mem s ∧ memSeg m s = tableSeg mem s := by
  rcases bitVec3_cases mem with rfl | rfl | rfl | rfl | rfl | rfl | rfl | rfl
  on_goal 7 => exact absurd rfl hmem
  all_goals exact ⟨_, rfl, by simp [ea, tableSum, dispValOpt]; rfl, rfl⟩

/-- Settles O8: the columns of the table, one lemma for `mod` = 00 and one for 01 and 10. -/
theorem memorySpecificationTable : Obligations.MemorySpecificationTable := by
  intro mid mem d lo hi bs s
  refine ⟨fun hmem => ?_, ⟨.direct (joinBytes hi lo), ?_, rfl, rfl⟩, ⟨memWithDisp mem.toNat (.byte d), ?_, ?_, ?_⟩,
    ⟨memWithDisp mem.toNat (.word (joinBytes hi lo)), ?_, ?_, ?_⟩, decodeMem_specByte_three mid mem bs⟩
  · rw [decodeMem_specByte_zero]; exact memNoDisp_table hmem bs s
  · rw [decodeMem_specByte_zero]; rfl
  · exact decodeMem_specByte_dispMod (.byte d) mid mem bs
  · exact ea_memWithDisp ..
  · exact memSeg_memWithDisp ..
  · have h := decodeMem_specByte_dispMod (.word (joinBytes hi lo)) mid mem bs
    simpa [dispBytes, wordBytes, dispMod] using h
  · exact ea_memWithDisp ..
  · exact memSeg_memWithDisp ..

/-! ## Registers -/

theorem existsUnique_regOfCode {w : Width} {r : Reg} (hr : r.width = w) : ∃! c : BitVec 3, regOfCode w c.toNat = r :=
  ⟨regCode r, (regOfCode_eq_iff hr).mpr rfl, fun _ hc => (regOfCode_eq_iff hr).mp hc⟩

theorem sregOfCode_eq_iff {c : BitVec 2} {r : SReg} : sregOfCode c.toNat = r ↔ c = sregCode r := by
  rcases bitVec2_cases c with rfl | rfl | rfl | rfl <;> cases r <;> decide

theorem decode_movRegReg (w : Width) (c c' : BitVec 3) (bs : List Byte) :
    ∃ p, decode (opcodeByW w 0x8A 0x8B :: specByte 3 c c' :: bs) = .ok (.movRegReg p) bs ∧
      pairRegs p = (regOfCode w c.toNat, regOfCode w c'.toNat) := by
  cases w with
  | byte =>
    refine ⟨.byte (bregOfCode c.toNat) (bregOfCode c'.toNat), ?_, rfl⟩
    simpa [encode, opcodeByW] using decode_encode_movRegReg (.byte (bregOfCode c.toNat) (bregOfCode c'.toNat)) bs
  | word =>
    refine ⟨.word (wregOfCode c.toNat) (wregOfCode c'.toNat), ?_, rfl⟩
    simpa [encode, opcodeByW] using decode_encode_movRegReg (.word (wregOfCode c.toNat) (wregOfCode c'.toNat)) bs

theorem decode_movRegImm_byte (c : BitVec 3) (v : Byte) (bs : List Byte) :
    decode ((0xB0 + c.setWidth 8) :: v :: bs) = .ok (.movRegImm (.byte (bregOfCode c.toNat) v)) bs := by
  simpa [encode] using decode_encode_movRegImm (.byte (bregOfCode c.toNat) v) bs

theorem decode_movRegImm_word (c : BitVec 3) (lo hi : Byte) (bs : List Byte) :
    decode ((0xB8 + c.setWidth 8) :: lo :: hi :: bs) =
      .ok (.movRegImm (.word (wregOfCode c.toNat) (joinBytes hi lo))) bs := by
  simpa [encode, wordBytes] using decode_encode_movRegImm (.word (wregOfCode c.toNat) (joinBytes hi lo)) bs

theorem decode_mul (c c' : BitVec 3) (lo hi : Byte) (bs : List Byte) :
    decode (0x69 :: specByte 3 c c' :: lo :: hi :: bs) =
      .ok (.mul (wregOfCode c.toNat) (wregOfCode c'.toNat) (joinBytes hi lo)) bs := by
  simpa [encode, wordBytes] using
    decode_encode_mul (wregOfCode c.toNat) (wregOfCode c'.toNat) (joinBytes hi lo) bs

theorem decode_subMemReg {w : Width} {mod : BitVec 2} {c mem : BitVec 3} {m : MemOp} {bs rest : List Byte}
    (h : decodeMem (specByte mod c mem) bs = .ok m rest) :
    decode (opcodeByW w 0x28 0x29 :: specByte mod c mem :: bs) = .ok (.subMemReg m (regOfCode w c.toNat)) rest := by
  have hop : opcodeByW w 0x28 0x29 = opW 0x14 w := by cases w <;> rfl
  rw [hop, decode_opW_sub]
  simp [decodeSub, h]

theorem decodeBitOp_reg (w : Width) (c : BitVec 3) (bs : List Byte) :
    decodeBitOp w (specByte 3 0 c :: bs) = .ok (.reg (regOfCode w c.toNat)) bs := by
  simp [decodeBitOp]

theorem decode_brReg (c : BitVec 3) (bs : List Byte) :
    decode (0xFF :: specByte 3 4 c :: bs) = .ok (.brReg (wregOfCode c.toNat)) bs := by
  simpa [encode] using decode_encode_brReg (wregOfCode c.toNat) bs

theorem decode_callReg (c : BitVec 3) (bs : List Byte) : decode (0xFF :: specByte 3 2 c :: bs) =
    if wregOfCode c.toNat = .sp then .refused .callSp else .ok (.callReg (wregOfCode c.toNat)) bs := by
  rw [decode_FF]
  simp [decodeFF]

theorem decode_bit_reg (w : Width) (c : BitVec 3) (n : Byte) (bs : List Byte) :
    let o : BitOp := .reg (regOfCode w c.toNat)
    let code := fun op0 op1 : Byte => 0x0F :: opcodeByW w op0 op1 :: specByte 3 0 c :: bs
    let codeImm := fun op0 op1 : Byte => 0x0F :: opcodeByW w op0 op1 :: specByte 3 0 c :: n :: bs
    decode (code 0x10 0x11) = .ok (.test1Cl o) bs ∧ decode (codeImm 0x18 0x19) = .ok (.test1Imm o n) bs ∧
    decode (code 0x12 0x13) = .ok (.clr1Cl o) bs ∧ decode (codeImm 0x1A 0x1B) = .ok (.clr1Imm o n) bs ∧
    decode (code 0x14 0x15) = .ok (.set1Cl o) bs ∧ decode (codeImm 0x1C 0x1D) = .ok (.set1Imm o n) bs ∧
    decode (code 0x16 0x17) = .ok (.not1Cl o) bs ∧ decode (codeImm 0x1E 0x1F) = .ok (.not1Imm o n) bs := by
  have cl := fun f : BitOp → Instr => congrArg (Decoded.map · f) (decodeBitOp_reg w c bs)
  have imm := fun f : BitOp → Byte → Instr =>
    congrArg (Decoded.andThen · fun o bs => (takeByte bs).map (f o)) (decodeBitOp_reg w c (n :: bs))
  cases w <;> exact ⟨cl .test1Cl, imm .test1Imm, cl .clr1Cl, imm .clr1Imm, cl .set1Cl, imm .set1Imm, cl .not1Cl,
    imm .not1Imm⟩

/-- A register operand is read from the registers alone and written to them alone. -/
theorem getR_setR (r : Reg) (v : BitVec r.width.bits) (s : State) : getR r (setR r v s) = v := by
  cases r with
  | byte r => exact getB_setB_same r v s
  | word r => exact getW_setW_same r v s

theorem getR_congr {s t : State} (h : t.regs = s.regs) (r : Reg) : getR r t = getR r s := by
  cases r with
  | byte r => exact getB_congr h r
  | word r => exact getW_congr h r

theorem setR_frame (r : Reg) (v : BitVec r.width.bits) (s : State) :
    setR r v s = { s with regs := (setR r v s).regs } := by
  cases r <;> rfl

theorem getS_congr {s t : State} (h : t.segs = s.segs) (r : SReg) : getS r t = getS r s := by
  cases r <;> simp [getS, h]

/-- Settles O23: the field that the decoder reads is the register's code, the rest the laws of the register file. -/
theorem registerFieldNamesTheOperand : Obligations.RegisterFieldNamesTheOperand :=
  ⟨fun w => ⟨fun c => regOfCode_width w c.toNat, fun _ hr => existsUnique_regOfCode hr⟩,
    fun r => ⟨sregCode r, sregOfCode_eq_iff.mpr rfl, fun _ hc => sregOfCode_eq_iff.mp hc⟩,
    fun c c' lo hi n bs => ⟨fun w => decode_movRegReg w c c' bs, ⟨_, decode_movRegImm_byte c lo bs, rfl⟩,
      ⟨_, decode_movRegImm_word c lo hi bs, rfl⟩, ⟨_, _, decode_mul c c' lo hi bs, rfl, rfl⟩,
      fun _ _ _ _ _ h => decode_subMemReg h, fun w => decode_bit_reg w c n bs,
      _, rfl, decode_brReg c bs, decode_callReg c bs⟩,
    fun s => ⟨fun _ => rfl, fun _ => rfl, fun r _ h => getR_congr h r, fun r v => ⟨getR_setR r v s, setR_frame r v s⟩,
      fun r _ h => getS_congr h r, rfl, rfl⟩⟩

end Sys2Proof
end

section
/-! PROOFS. Reads and writes of an operand in the words of the statements: what a read adds to the history, what a store puts
where, what is read back (spec/20_memory.md R34, R35, R41, R42). -/

namespace Sys2Proof.Machine

open Sys2Proof.Claims

/-! ## The bytes of an operand -/

@[simp] theorem byteAddr_zero (seg off : Word) : byteAddr seg off 0 = phys seg off := by simp [byteAddr]

@[simp] theorem byteAddr_one (seg off : Word) : byteAddr seg off 1 = phys seg (off + 1#16) := rfl

theorem addrsOf_eq_map (w : Width) (seg off : Word) : addrsOf w seg off = (List.range w.bytes).map (byteAddr seg off) := by
  cases w <;> simp [addrsOf, List.range_succ]

theorem mem_addrsOf {w : Width} {seg off : Word} {a : Nat} :
    a ∈ addrsOf w seg off ↔ ∃ k < w.bytes, a = byteAddr seg off k := by
  simp [addrsOf_eq_map, eq_comm]

@[simp] theorem byteOf_zero_byte (v : Byte) : byteOf v 0 = v := by simp [byteOf]

@[simp] theorem byteOf_zero_word (v : Word) : byteOf v 0 = loByte v := by
  apply BitVec.eq_of_toNat_eq; simp [byteOf, loByte_toNat]

@[simp] theorem byteOf_one_word (v : Word) : byteOf v 1 = hiByte v := by
  have := v.isLt
  apply BitVec.eq_of_toNat_eq; simp [byteOf, hiByte_toNat, Nat.shiftRight_eq_div_pow]; omega

/-! ## Reading -/

/-- A read leaves its entries in the history and nothing else. -/
theorem afterRead_eq_afterReading (w : Width) (seg off : Word) (s : State) :
    afterRead w seg off s = afterReading w seg off s := by
  cases w with
  | byte =>
    by_cases h0 : inSfr s.idb (phys seg off) = true <;>
      simp [afterRead, afterReading, sfrReads, noteRead, h0, List.range_succ]
  | word =>
    by_cases h0 : inSfr s.idb (phys seg off) = true <;> by_cases h1 : inSfr s.idb (phys seg (off + 1#16)) = true <;>
      simp [afterRead, afterReading, sfrReads, noteRead, h0, h1, List.range_succ]

/-- The operand's bytes hold `v`, in plain memory. -/
def Holds (w : Width) (seg off : Word) (v : BitVec w.bits) (s : State) : Prop :=
  ∀ k < w.bytes, inSfr s.idb (byteAddr seg off k) = false ∧ memGet s.mem (byteAddr seg off k) = some (byteOf v k)

theorem Holds.plain {w : Width} {seg off : Word} {v : BitVec w.bits} {s : State} (h : Holds w seg off v s) :
    PlainAt w seg off s := by
  intro a ha
  obtain ⟨k, hk, rfl⟩ := mem_addrsOf.mp ha
  exact (h k hk).1

theorem peekByte_of_plain {a : Nat} {s : State} (h : inSfr s.idb a = false) : peekByte a s = (memGet s.mem a).getD 0 := by
  simp [peekByte, h]

theorem noteRead_of_plain {a : Nat} {s : State} (h : inSfr s.idb a = false) : noteRead a s = s := by
  simp [noteRead, h]

/-- A read of plain memory changes nothing. -/
theorem afterRead_of_plain {w : Width} {seg off : Word} {s : State} (h : PlainAt w seg off s) :
    afterRead w seg off s = s := by
  have byte : ∀ a ∈ addrsOf w seg off, noteRead a s = s := fun a ha => noteRead_of_plain (h a ha)
  cases w with
  | byte => exact byte _ (by simp [addrsOf])
  | word => rw [afterRead, byte (phys seg off) (by simp [addrsOf]), byte _ (by simp [addrsOf])]

theorem peek_of_holds {w : Width} {seg off : Word} {v : BitVec w.bits} {s : State} (h : Holds w seg off v s) :
    peek w seg off s = v := by
  cases w with
  | byte =>
    obtain ⟨p0, m0⟩ := h 0 (by decide)
    simp only [byteAddr_zero, byteOf_zero_byte] at p0 m0
    simp [peek, peekByte_of_plain, p0, m0]
  | word =>
    obtain ⟨p0, m0⟩ := h 0 (by decide)
    obtain ⟨p1, m1⟩ := h 1 (by decide)
    simp only [byteAddr_zero, byteAddr_one, byteOf_zero_word, byteOf_one_word] at p0 m0 p1 m1
    simp [peek, peekByte_of_plain, noteRead_of_plain, p0, m0, p1, m1]

/-- Where an operand's bytes hold a value, a read answers it and changes nothing (R34). -/
theorem readAt_of_holds {w : Width} {seg off : Word} {v : BitVec w.bits} {s : State} (hw : w = .word → off ≠ 0xFFFF)
    (h : Holds w seg off v s) : readAt w seg off s = .next (v, s) := by
  refine readAt_eq_next.mpr ⟨⟨hw, fun a ha => ?_⟩, by rw [peek_of_holds h, afterRead_of_plain h.plain]⟩
  obtain ⟨k, hk, rfl⟩ := mem_addrsOf.mp ha
  exact .inr (by rw [(h k hk).2]; exact Option.some_ne_none _)

/-- An operand in plain memory that can be read holds the value that is read. -/
theorem holds_peek {w : Width} {seg off : Word} {s : State} (hr : CanRead w seg off s) (hp : PlainAt w seg off s) :
    Holds w seg off (peek w seg off s) s := by
  have byte : ∀ a ∈ addrsOf w seg off, memGet s.mem a = some (peekByte a s) := fun a ha => by
    have hs := (hr.2 a ha).resolve_left (Bool.eq_false_iff.mp (hp a ha))
    obtain ⟨v, hv⟩ := Option.ne_none_iff_exists'.mp hs
    simp [peekByte_of_plain (hp a ha), hv]
  intro k hk
  have ha : byteAddr seg off k ∈ addrsOf w seg off := mem_addrsOf.mpr ⟨k, hk, rfl⟩
  refine ⟨hp _ ha, (byte _ ha).trans (congrArg some ?_)⟩
  cases w with
  | byte =>
    obtain rfl : k = 0 := by simpa using hk
    simp [peek]
  | word =>
    have h0 : noteRead (phys seg off) s = s := noteRead_of_plain (hp _ (by simp [addrsOf]))
    obtain rfl | rfl : k = 0 ∨ k = 1 := by simp at hk; omega
    · simp [peek]
    · simp [peek, h0]

/-! ## Storing -/

theorem pokeByte_eq (a : Nat) (v : Byte) (s : State) : pokeByte a v s = { s with
    mem := if inSfr s.idb a then s.mem else memSet s.mem a v
    sfrLog := if inSfr s.idb a then .write a v :: s.sfrLog else s.sfrLog } := by
  unfold pokeByte; split <;> rfl

/-- A store puts each byte where it belongs (R35, R42). -/
theorem stores_poke (w : Width) (seg off : Word) (v : BitVec w.bits) (s : State) :
    Stores w seg off v s (poke w seg off v s) := by
  refine ⟨poke_frame w seg off v s, fun a ha => memGet_poke_other ha v s, fun k hk => ?_, ?_⟩
  · cases w with
    | byte =>
      obtain rfl : k = 0 := by simpa using hk
      by_cases h0 : inSfr s.idb (phys seg off) = true <;> simp [poke, pokeByte_eq, h0]
    | word =>
      have hne : phys seg off ≠ phys seg (off + 1#16) := (phys_succ_ne seg off).symm
      obtain rfl | rfl : k = 0 ∨ k = 1 := by simp at hk; omega
      all_goals
        by_cases h0 : inSfr s.idb (phys seg off) = true <;> by_cases h1 : inSfr s.idb (phys seg (off + 1#16)) = true <;>
          simp [poke, pokeByte_eq, h0, h1, memGet_memSet_other hne, memGet_memSet_other hne.symm]
  · cases w with
    | byte =>
      by_cases h0 : inSfr s.idb (phys seg off) = true <;>
        simp [poke, sfrWrites, pokeByte_eq, h0, List.range_succ]
    | word =>
      by_cases h0 : inSfr s.idb (phys seg off) = true <;> by_cases h1 : inSfr s.idb (phys seg (off + 1#16)) = true <;>
        simp [poke, sfrWrites, pokeByte_eq, h0, h1, List.range_succ]

/-- What was stored in plain memory stands there. -/
theorem holds_of_stores {w : Width} {seg off : Word} {v : BitVec w.bits} {s t : State} (h : Stores w seg off v s t)
    (hp : PlainAt w seg off s) : Holds w seg off v t := by
  obtain ⟨hframe, -, hbytes, -⟩ := h
  intro k hk
  have hplain := hp _ (mem_addrsOf.mpr ⟨k, hk, rfl⟩)
  refine ⟨by rw [hframe]; exact hplain, ?_⟩
  rw [hbytes k hk, hplain]
  rfl

/-! ## The statements about memory -/

/-- Settles O12: a plain operand's bytes are what a read answers. -/
theorem memoryReadsLittleEndian : Obligations.MemoryReadsLittleEndian := by
  intro seg off lo hi s
  refine ⟨fun hp h0 => readAt_of_holds (by simp) fun k hk => ?_, fun hp hoff h0 h1 => ?_⟩
  · obtain rfl : k = 0 := by simpa using hk
    exact ⟨hp _ (by simp [addrsOf]), by simpa using h0⟩
  · refine readAt_of_holds (w := .word) (v := joinBytes hi lo) (fun _ => hoff) fun k hk => ?_
    obtain rfl | rfl : k = 0 ∨ k = 1 := by simp at hk; omega
    · exact ⟨hp _ (by simp [addrsOf]), by simpa using h0⟩
    · exact ⟨hp _ (by simp [addrsOf]), by simpa using h1⟩

/-- Settles O14: the write pokes each byte at its address. -/
theorem writeStoresTheOperand : Obligations.WriteStoresTheOperand := fun w seg off v s h =>
  ⟨poke w seg off v s, writeAt_of_canWrite h v, stores_poke w seg off v s⟩

/-- Settles O13: the bytes stored are the bytes read. -/
theorem readAfterWriteGivesTheValue : Obligations.ReadAfterWriteGivesTheValue := fun w seg off v s h hp =>
  ⟨poke w seg off v s, writeAt_of_canWrite h v, readAt_of_holds h.1 (holds_of_stores (stores_poke w seg off v s) hp)⟩

theorem inSfr_iff_sfrAddr (idb : Byte) (a : Nat) : inSfr idb a = true ↔ ∃ sfr : Byte, a = sfrAddr idb sfr := by
  simp only [inSfr, sfrAddr, Bool.and_eq_true, decide_eq_true_eq]
  constructor
  · rintro ⟨hlo, hhi⟩
    exact ⟨BitVec.ofNat 8 (a - sfrBase idb), by rw [BitVec.toNat_ofNat]; omega⟩
  · rintro ⟨sfr, rfl⟩
    have := sfr.isLt
    omega

theorem inSfr_sfrAddr (idb sfr : Byte) : inSfr idb (sfrAddr idb sfr) = true := (inSfr_iff_sfrAddr ..).mpr ⟨sfr, rfl⟩

/-- Settles O15: the accesses by the laws of reads and writes, the area by arithmetic. -/
theorem sfrWindowBelongsToTheOracle : Obligations.SfrWindowBelongsToTheOracle := by
  refine ⟨fun seg off v s h => ⟨?_, fun hcode => ?_⟩, fun idb => ⟨fun sfr => rfl, inSfr_iff_sfrAddr idb⟩⟩
  · have hr : CanRead .byte seg off s := ⟨by simp, by simp [addrsOf, h]⟩
    rw [readAt_of_canRead hr]
    simp [peek, afterRead, peekByte, noteRead, h]
  · have hw : CanWrite .byte seg off s := ⟨by simp, by simp [addrsOf, hcode]⟩
    rw [writeAt_of_canWrite hw]
    simp [poke, pokeByte, h]

/-- The memory specification field of register indirect addressing (R131). -/
theorem decodeMem_indirect_iff (r : IndReg) (b : Byte) (bs rest : List Byte) :
    decodeMem b bs = .ok (.indirect r) rest ↔
      rest = bs ∧ ∃ mid, b = specByte 0 mid (match r with | .ix => 4 | .iy => 5 | .bw => 7) := by
  have henc : ∀ mid, encodeMem mid (.indirect r) = [specByte 0 mid (match r with | .ix => 4 | .iy => 5 | .bw => 7)] :=
    fun mid => by cases r <;> rfl
  simp only [decodeMem_eq_ok, henc, List.cons_append, List.nil_append, List.cons.injEq]
  constructor
  · rintro ⟨mid, -, hb, hbs⟩; exact ⟨hbs.symm, mid, hb⟩
  · rintro ⟨hbs, mid, hb⟩; exact ⟨mid, hb ▸ midField_specByte .., hb, hbs.symm⟩

theorem ea_indirect (r : IndReg) (s : State) : ea (.indirect r) s =
    match r with | .ix => s.regs.ix | .iy => s.regs.iy | .bw => s.regs.bw := by cases r <;> rfl

/-- Settles O9: the address is the register's contents, by which every access goes. -/
theorem registerIndirectAddress : Obligations.RegisterIndirectAddress := by
  intro r s m code x
  have hea : ea m s = x := ea_indirect r s
  refine ⟨decodeMem_indirect_iff r, hea, fun w => ⟨?_, ?_, fun imm _ => ?_, fun f => ?_⟩⟩
  · rw [memAddrs, addrsOf_eq_map, hea]
  · rw [readMem, hea]
  · rw [← hea]; rfl
  · rw [modifyMem, readMem, hea]

end Sys2Proof.Machine
end

section
/-! PROOFS. What an instruction may change, said once for all of them: `Effect` collects the frame of every part of the state,
each operation on a state extends it, and every instruction is a chain of operations (spec/10_state.md R10 to R21,
spec/20_memory.md R35, R42, R47). The frame statements and the invariants of steps and runs are read off it. -/

namespace Sys2Proof.Machine

open Sys2Proof.Claims

/-- From `s` to `t` only what the instruction `i` may change has changed: the parts of the state that `i` writes, the bytes it
stores to, none of which is declared code, and the history, which grew by accesses to the special function register area. -/
structure Effect (i : Instr) (s t : State) : Prop where
  settings : t.settings = s.settings
  pc : isBranch i = false → t.pc = s.pc
  ps : isFar i = false → t.segs.ps = s.segs.ps
  flags : writesFlags i = false → t.flags = s.flags
  regs : ∀ r ∉ writtenRegs i, getW r t = getW r s
  bytes : ∀ a ∉ storedAddrs i s, memGet t.mem a = memGet s.mem a
  declared : ∀ a, inCode s a = true → memGet t.mem a = memGet s.mem a
  memWf : MemWf s.mem → MemWf t.mem
  history : ∃ es, t.sfrLog = es ++ s.sfrLog ∧
    ∀ e ∈ es, inSfr s.idb (eventAddr e) = true ∧ ∀ a v, e = .write a v → inCode s a = false

namespace Effect

variable {i : Instr} {s t : State}

theorem refl (i : Instr) (s : State) : Effect i s s where
  settings := rfl
  pc _ := rfl
  ps _ := rfl
  flags _ := rfl
  regs _ _ := rfl
  bytes _ _ := rfl
  declared _ _ := rfl
  memWf h := h
  history := ⟨[], rfl, by simp⟩

theorem idb_eq (h : Effect i s t) : t.idb = s.idb := congrArg Settings.idb h.settings

/-! ## Each operation extends it -/

theorem setW (h : Effect i s t) {r : WReg} (hr : r ∈ writtenRegs i) (v : Word) : Effect i s (setW r v t) :=
  { h with regs := fun q hq => (getW_setW_other (fun e : q = r => hq (e ▸ hr)) v t).trans (h.regs q hq) }

theorem setB (h : Effect i s t) {r : BReg} (hr : bregWord r ∈ writtenRegs i) (v : Byte) : Effect i s (setB r v t) :=
  h.setW hr _

theorem setAcc (h : Effect i s t) (hr : WReg.aw ∈ writtenRegs i) (w : Width) (v : BitVec w.bits) :
    Effect i s (setAcc w v t) := by
  cases w with
  | byte => exact h.setB (r := .al) hr v
  | word => exact h.setW hr v

theorem stepReg (h : Effect i s t) {r : WReg} (hr : r ∈ writtenRegs i) (w : Width) : Effect i s (stepReg w r t) :=
  h.setW hr _

theorem setFlags (h : Effect i s t) (hf : writesFlags i = true) (f : Flags) : Effect i s (setFlags f t) :=
  { h with flags := fun hn => absurd hf (Bool.eq_false_iff.mp hn) }

theorem setPc (h : Effect i s t) (hb : isBranch i = true) (v : Word) : Effect i s (setPc v t) :=
  { h with pc := fun hn => absurd hb (Bool.eq_false_iff.mp hn) }

theorem setPsPc (h : Effect i s t) (hb : isBranch i = true) (hf : isFar i = true) (seg off : Word) :
    Effect i s (setPsPc seg off t) :=
  { h with
    pc := fun hn => absurd hb (Bool.eq_false_iff.mp hn)
    ps := fun hn => absurd hf (Bool.eq_false_iff.mp hn) }

theorem branchIf (h : Effect i s t) (hb : isBranch i = true) (c : Bool) (d : Byte) : Effect i s (branchIf c d t) := by
  cases c with
  | false => exact h
  | true => exact h.setPc hb _

/-- The history may grow by accesses to the area. -/
theorem note (h : Effect i s t) {es : List SfrEvent} (hes : ∀ e ∈ es, inSfr s.idb (eventAddr e) = true ∧
    ∀ a v, e = .write a v → inCode s a = false) : Effect i s { t with sfrLog := es ++ t.sfrLog } := by
  obtain ⟨es', hlog, hes'⟩ := h.history
  refine { h with history := ⟨es ++ es', by simp [hlog], fun e he => ?_⟩ }
  exact (List.mem_append.mp he).elim (hes e) (hes' e)

theorem noteRead (h : Effect i s t) (a : Nat) : Effect i s (noteRead a t) := by
  unfold Machine.noteRead
  split
  · exact h.note (es := [.read a]) (by simpa [eventAddr, ← h.idb_eq])
  · exact h

theorem afterRead (h : Effect i s t) (w : Width) (seg off : Word) : Effect i s (afterRead w seg off t) := by
  cases w with
  | byte => exact h.noteRead _
  | word => exact (h.noteRead _).noteRead _

theorem pokeByte (h : Effect i s t) {a : Nat} (hcode : inCode s a = false)
    (ha : inSfr s.idb a = true ∨ a ∈ storedAddrs i s ∧ a < addrSpace) (v : Byte) : Effect i s (pokeByte a v t) := by
  unfold Machine.pokeByte
  split
  · exact h.note (es := [.write a v]) (by simp_all [eventAddr, ← h.idb_eq])
  next hsfr =>
    obtain ⟨hmem, hlt⟩ := ha.resolve_left (h.idb_eq ▸ hsfr)
    have other : ∀ {b : Nat}, b ≠ a → memGet (memSet t.mem a v) b = memGet t.mem b := fun hb =>
      memGet_memSet_other hb t.mem v
    exact { h with
      bytes := fun b hb => (other fun e : b = a => hb (e ▸ hmem)).trans (h.bytes b hb)
      declared := fun b hb => (other fun e => by simp [e, hcode] at hb).trans (h.declared b hb)
      memWf := fun hwf => memSet_wf (h.memWf hwf) hlt v }

theorem poke (h : Effect i s t) {w : Width} {seg off : Word} (hw : CanWrite w seg off s)
    (ha : ∀ a ∈ addrsOf w seg off, a ∈ storedAddrs i s) (v : BitVec w.bits) : Effect i s (poke w seg off v t) := by
  have byte : ∀ {u : State} {o : Word}, Effect i s u → phys seg o ∈ addrsOf w seg off → ∀ v, Effect i s
      (Machine.pokeByte (phys seg o) v u) := fun hu ho v =>
    hu.pokeByte (hw.2 _ ho) (.inr ⟨ha _ ho, phys_lt _ _⟩) v
  cases w with
  | byte => exact byte h (by simp [addrsOf]) _
  | word => exact byte (byte h (by simp [addrsOf]) _) (by simp [addrsOf]) _

end Effect

/-! ## Every instruction is a chain of operations -/

section
variable {i : Instr} {s t u : State}

theorem nearCall_effect {target : Word} (h : nearCall target u = .next t) (hu : Effect i s u) (hb : isBranch i = true)
    (hsp : WReg.sp ∈ writtenRegs i) (hcode : u.codeRegion = s.codeRegion)
    (ha : ∀ a ∈ addrsOf .word u.segs.ss (getW .sp u - 2), a ∈ storedAddrs i s) : Effect i s t := by
  obtain ⟨hw, rfl⟩ := nearCall_eq_next.mp h
  exact ((hu.setW hsp _).poke ((canWrite_congr hcode ..).mp hw) ha _).setPc hb _

theorem farCall_effect {seg off : Word} (h : farCall seg off u = .next t) (hu : Effect i s u) (hb : isBranch i = true)
    (hf : isFar i = true) (hsp : WReg.sp ∈ writtenRegs i) (hcode : u.codeRegion = s.codeRegion)
    (ha : ∀ a ∈ addrsOf .word u.segs.ss (getW .sp u - 2) ++ addrsOf .word u.segs.ss (getW .sp u - 4),
      a ∈ storedAddrs i s) : Effect i s t := by
  obtain ⟨hw, hw', rfl⟩ := farCall_eq_next.mp h
  have first : Effect i s (afterFirstPush u) := (hu.setW hsp _).poke ((canWrite_congr hcode ..).mp hw)
    (fun a h => ha a (List.mem_append_left _ h)) _
  exact ((first.setW hsp _).poke ((canWrite_congr hcode ..).mp hw')
    (fun a h => ha a (List.mem_append_right _ h)) _).setPsPc hb hf _ _

theorem testOperandBit_effect {o : BitOp} {b : Nat} (h : testOperandBit o b s = .next t) (hf : writesFlags i = true) :
    Effect i s t := by
  obtain ⟨-, rfl⟩ := testOperandBit_eq_next.mp h
  cases o with
  | reg r => exact (Effect.refl i s).setFlags hf _
  | mem w m => exact ((Effect.refl i s).afterRead ..).setFlags hf _

/-- What the operand of a bit instruction lets it write: the register's word, or the bytes in memory. -/
def MayWriteOperand (i : Instr) (o : BitOp) (s : State) : Prop :=
  match o with
  | .reg (.byte r) => bregWord r ∈ writtenRegs i
  | .reg (.word r) => r ∈ writtenRegs i
  | .mem w m => ∀ a ∈ memAddrs w m s, a ∈ storedAddrs i s

theorem modifyBitOp_effect {o : BitOp} {f : BitVec o.width.bits → BitVec o.width.bits}
    (h : modifyBitOp o f s = .next t) (hi : MayWriteOperand i o s) : Effect i s t := by
  obtain ⟨-, hw, rfl⟩ := modifyBitOp_eq_next.mp h
  cases o with
  | reg r =>
    cases r with
    | byte r => exact (Effect.refl i s).setB hi _
    | word r => exact (Effect.refl i s).setW hi _
  | mem w m => exact ((Effect.refl i s).afterRead ..).poke hw hi _

theorem testClearBranch_effect {sfr d : Byte} {b : Nat} (h : testClearBranch (sfrAddr s.idb sfr) b d s = .next t)
    (hb : isBranch i = true) : Effect i s t := by
  obtain ⟨-, hcode, rfl⟩ := testClearBranch_eq_next.mp h
  split
  next hbit =>
    have hcode : inCode s (sfrAddr s.idb sfr) = false := Bool.eq_false_iff.mpr fun hc => hcode ⟨hc, hbit⟩
    exact (((Effect.refl i s).noteRead _).pokeByte hcode (.inl (inSfr_sfrAddr ..)) _).setPc hb _
  · exact (Effect.refl i s).noteRead _

theorem bit_mayWriteOperand (o : BitOp) (n : Byte) (s : State) :
    ∀ i ∈ ([.clr1Cl o, .set1Cl o, .not1Cl o, .clr1Imm o n, .set1Imm o n, .not1Imm o n] : List Instr),
      MayWriteOperand i o s := by
  rcases o with (r | r) | ⟨w, m⟩ <;> simp [MayWriteOperand, writtenRegs, storedAddrs]

theorem exec_effect (h : exec i s = .next t) : Effect i s t := by
  have same := Effect.refl i s
  cases i with
  | callNear d => exact nearCall_effect h same rfl (by simp [writtenRegs]) rfl fun a ha => ha
  | callReg r => exact nearCall_effect (execCallReg_eq_next.mp h).2 same rfl (by simp [writtenRegs]) rfl fun a ha => ha
  | callMem16 m =>
    obtain ⟨-, hcall⟩ := execCallMem16_eq_next.mp h
    refine nearCall_effect hcall (same.afterRead ..) rfl (by simp [writtenRegs]) (by simp) fun a ha => ?_
    rwa [afterRead_segs, getW_congr (afterRead_regs ..)] at ha
  | callFar off seg => exact farCall_effect h same rfl rfl (by simp [writtenRegs]) rfl fun a ha => ha
  | callMem32 m =>
    obtain ⟨-, hcall⟩ := execCallMem32_eq_next.mp h
    refine farCall_effect hcall ((same.afterRead ..).afterRead ..) rfl rfl (by simp [writtenRegs]) (by simp)
      fun a ha => ?_
    simp only [afterRead_segs, getW_congr (afterRead_regs ..)] at ha
    exact ha
  | brNear | brShort | brReg => obtain rfl := Host.Outcome.next.inj h; exact same.setPc rfl _
  | brFar => obtain rfl := Host.Outcome.next.inj h; exact same.setPsPc rfl rfl _ _
  | brMem16 m => obtain ⟨-, rfl⟩ := execBrMem16_eq_next.mp h; exact (same.afterRead ..).setPc rfl _
  | brMem32 m =>
    obtain ⟨-, rfl⟩ := execBrMem32_eq_next.mp h
    exact ((same.afterRead ..).afterRead ..).setPsPc rfl rfl _ _
  | bv | bnv | bc | bnc | be | bne | bnh | bh | bn | bp | bpe | bpo | blt | bge | ble | bgt | bcwz =>
    obtain rfl := Host.Outcome.next.inj h
    exact same.branchIf rfl _ _
  | dbnzne | dbnze | dbnz =>
    obtain rfl := Host.Outcome.next.inj h
    exact (same.setW (by simp [writtenRegs]) _).branchIf rfl _ _
  | movRegReg p | movRegImm p =>
    cases p with
    | byte => obtain rfl := Host.Outcome.next.inj h; exact same.setB (by simp [writtenRegs]) _
    | word => obtain rfl := Host.Outcome.next.inj h; exact same.setW (by simp [writtenRegs]) _
  | mul dst src imm =>
    obtain rfl := Host.Outcome.next.inj h
    exact (same.setW (by simp [writtenRegs]) _).setFlags rfl _
  | movMemImm m imm =>
    obtain ⟨hw, rfl⟩ := execMovMemImm_eq_next.mp h
    exact same.poke hw (fun a ha => ha) _
  | movAccDmem w addr =>
    obtain ⟨-, rfl⟩ := execMovAccDmem_eq_next.mp h
    exact (same.afterRead ..).setAcc (by simp [writtenRegs]) _ _
  | subMemReg m r =>
    obtain ⟨-, hw, rfl⟩ := execSubMemReg_eq_next.mp h
    exact ((same.afterRead ..).poke hw (fun a ha => ha) _).setFlags rfl _
  | testMemImm m imm =>
    obtain ⟨-, rfl⟩ := execTestMemImm_eq_next.mp h
    exact (same.afterRead ..).setFlags rfl _
  | shlMem w m =>
    obtain ⟨-, hw, rfl⟩ := execShlMem_eq_next.mp h
    exact ((same.afterRead ..).poke hw (fun a ha => ha) _).setFlags rfl _
  | pushMem m =>
    obtain ⟨-, hw, rfl⟩ := execPushMem_eq_next.mp h
    exact ((same.afterRead ..).setW (by simp [writtenRegs]) _).poke hw (fun a ha => ha) _
  | movbk w =>
    obtain ⟨-, hw, rfl⟩ := execMovbk_eq_next.mp h
    exact (((same.afterRead ..).poke hw (fun a ha => ha) _).stepReg (by simp [writtenRegs]) _).stepReg
      (by simp [writtenRegs]) _
  | cmpbk w =>
    obtain ⟨-, -, rfl⟩ := execCmpbk_eq_next.mp h
    exact ((((same.afterRead ..).afterRead ..).setFlags rfl _).stepReg (by simp [writtenRegs]) _).stepReg
      (by simp [writtenRegs]) _
  | stm w =>
    obtain ⟨hw, rfl⟩ := execStm_eq_next.mp h
    exact (same.poke hw (fun a ha => ha) _).stepReg (by simp [writtenRegs]) _
  | ldm w =>
    obtain ⟨-, rfl⟩ := execLdm_eq_next.mp h
    exact ((same.afterRead ..).setAcc (by simp [writtenRegs]) _ _).stepReg (by simp [writtenRegs]) _
  | cmpm w =>
    obtain ⟨-, rfl⟩ := execCmpm_eq_next.mp h
    exact ((same.afterRead ..).setFlags rfl _).stepReg (by simp [writtenRegs]) _
  | test1Cl o => exact testOperandBit_effect h rfl
  | test1Imm o n => exact testOperandBit_effect (execTest1Imm_eq_next.mp h).2 rfl
  | clr1Cl o | set1Cl o | not1Cl o => exact modifyBitOp_effect h (bit_mayWriteOperand o 0 s _ (by simp))
  | clr1Imm o n => exact modifyBitOp_effect (execClr1Imm_eq_next.mp h).2 (bit_mayWriteOperand o n s _ (by simp))
  | set1Imm o n => exact modifyBitOp_effect (execSet1Imm_eq_next.mp h).2 (bit_mayWriteOperand o n s _ (by simp))
  | not1Imm o n => exact modifyBitOp_effect (execNot1Imm_eq_next.mp h).2 (bit_mayWriteOperand o n s _ (by simp))
  | btclr sfr n d => exact testClearBranch_effect (execBtclr_eq_next.mp h).2 rfl

end

/-! ## The frame statements -/

/-- Settles O51: the frame of PC and of the segment registers, the latter kept by a far form too but for PS. -/
theorem onlyBranchesReplacePcAndFarFormsPs : Obligations.OnlyBranchesReplacePcAndFarFormsPs := by
  intro i s t h
  have he := exec_effect h
  have hsegs : t.segs = { s.segs with ps := t.segs.ps } := by
    have hss : t.segs.ss = s.segs.ss := congrArg Settings.ss he.settings
    have hds0 : t.segs.ds0 = s.segs.ds0 := congrArg Settings.ds0 he.settings
    have hds1 : t.segs.ds1 = s.segs.ds1 := congrArg Settings.ds1 he.settings
    change t.segs = ⟨t.segs.ps, s.segs.ss, s.segs.ds0, s.segs.ds1⟩
    rw [← hss, ← hds0, ← hds1]
  exact ⟨he.pc, fun hfar => by rw [hsegs, he.ps hfar], hsegs⟩

/-- Settles O52: the frame of the flags. -/
theorem otherInstructionsKeepFlags : Obligations.OtherInstructionsKeepFlags := fun _ _ _ h => (exec_effect h).flags

/-- Settles O53: the frame of the registers. -/
theorem otherRegistersUnchanged : Obligations.OtherRegistersUnchanged := fun _ _ _ r h => (exec_effect h).regs r

/-- Settles O54: the frame of memory. -/
theorem otherBytesUnchanged : Obligations.OtherBytesUnchanged := fun _ _ _ a h => (exec_effect h).bytes a

/-! ## A step -/

/-- What a step changes beside its instruction's effect: PC and the step count, and the history by its fetches. -/
theorem step_effect {s t : State} (h : step s = .next t) : ∃ i n, Effect i { s with
    pc := s.pc + BitVec.ofNat 16 n, tick := s.tick + 1, sfrLog := fetchReads n s ++ s.sfrLog } t := by
  obtain ⟨i, rest, -, hexec⟩ := step_eq_next.mp h
  rw [executeFetched_eq] at hexec
  exact ⟨i, _, exec_effect hexec⟩

/-- Settles O20: a step's own changes leave memory alone, and the instruction keeps its form. -/
theorem stepKeepsMemoryCanonical : Obligations.StepKeepsMemoryCanonical := by
  intro s t hwf h
  obtain ⟨i, n, he⟩ := step_effect h
  exact he.memWf hwf

theorem fetchReads_inSfr {n : Nat} {s : State} {e : SfrEvent} (he : e ∈ fetchReads n s) :
    ∃ a, e = .read a ∧ inSfr s.idb a = true := by
  simp only [fetchReads, List.mem_map, List.mem_reverse, List.mem_filter] at he
  obtain ⟨k, ⟨-, hk⟩, rfl⟩ := he
  exact ⟨_, rfl, hk⟩

/-- A step adds to the history, by accesses to the area and by no write to declared code. -/
theorem step_history {s t : State} (h : step s = .next t) : ∃ es, t.sfrLog = es ++ s.sfrLog ∧
    ∀ e ∈ es, inSfr s.idb (eventAddr e) = true ∧ ∀ a v, e = .write a v → inCode s a = false := by
  obtain ⟨i, n, he⟩ := step_effect h
  obtain ⟨es, hlog, hes⟩ := he.history
  refine ⟨es ++ fetchReads n s, by simp [hlog], fun e hmem => ?_⟩
  rcases List.mem_append.mp hmem with hmem | hmem
  · exact hes e hmem
  · obtain ⟨a, rfl, ha⟩ := fetchReads_inSfr hmem
    exact ⟨ha, fun _ _ e => by cases e⟩

/-- Settles O55: the fetches come first, then what the instruction reads and stores. -/
theorem sfrHistoryOnlyGrows : Obligations.SfrHistoryOnlyGrows := by
  intro s t h
  obtain ⟨es, hlog, hes⟩ := step_history h
  exact ⟨es, hlog, fun e he => (hes e he).1⟩

theorem step_settings {s t : State} (h : step s = .next t) : t.settings = { s.settings with tick := s.tick + 1 } := by
  obtain ⟨i, n, he⟩ := step_effect h
  exact he.settings

theorem step_codeUntouched {s t : State} (h : step s = .next t) : CodeUntouched s t := by
  obtain ⟨i, n, he⟩ := step_effect h
  obtain ⟨es, hlog, hes⟩ := step_history h
  exact ⟨he.declared, es, hlog, fun a v hmem => (hes _ hmem).2 a v rfl⟩

/-! ## A run -/

theorem codeUntouched_trans {s t u : State} (hc : t.codeRegion = s.codeRegion) (h : CodeUntouched s t)
    (h' : CodeUntouched t u) : CodeUntouched s u := by
  have hin : ∀ a, inCode t a = inCode s a := fun a => by simp [inCode, hc]
  obtain ⟨hmem, log, hlog, hes⟩ := h
  obtain ⟨hmem', log', hlog', hes'⟩ := h'
  refine ⟨fun a ha => (hmem' a (hin a ▸ ha)).trans (hmem a ha), log' ++ log, by simp [hlog, hlog'], fun a v he => ?_⟩
  exact (List.mem_append.mp he).elim (fun he => hin a ▸ hes' a v he) (hes a v)

/-- Settles O56: the refusal of R47 in every instruction that stores, and the induction over the run. -/
theorem codeRegionNeverChanges : Obligations.CodeRegionNeverChanges := by
  intro es s t hes hrun
  refine runsTo_induction (Kept := fun s t => t.codeRegion = s.codeRegion ∧ CodeUntouched s t)
    (fun s => ⟨rfl, fun _ _ => rfl, [], rfl, by simp⟩) (fun s u t hstep ⟨hcode, hkept⟩ => ?_) hes hrun
  have hcode' : u.codeRegion = s.codeRegion := congrArg Settings.codeRegion (step_settings hstep)
  exact ⟨hcode.trans hcode', codeUntouched_trans hcode' (step_codeUntouched hstep) hkept⟩

/-- A run without an interrupt counts its events and leaves the other settings alone. -/
theorem runsTo_settings {es : List Event} (hes : NoInterruptTaken es) {s t : State} (h : RunsTo es s t) :
    t.settings = { s.settings with tick := s.tick + es.length } := by
  induction es generalizing s with
  | nil => obtain rfl := Host.Outcome.next.inj h; rfl
  | cons e es ih =>
    obtain rfl := hes e (List.mem_cons_self ..)
    obtain ⟨u, hu, h⟩ := runEvents_instruction_eq_next.mp h
    have hstep := step_settings hu
    have htick : u.tick = s.tick + 1 := congrArg Settings.tick hstep
    rw [ih (fun e he => hes e (List.mem_cons_of_mem _ he)) h, hstep, htick, List.length_cons, Nat.add_assoc, Nat.add_comm 1]

/-- Settles O57: the frame of the settings over the run. -/
theorem runKeepsDirIdbAndDataSegments : Obligations.RunKeepsDirIdbAndDataSegments := by
  intro es s t hes hrun
  have h := runsTo_settings hes hrun
  exact ⟨congrArg Settings.dir h, congrArg Settings.idb h, congrArg Settings.ss h, congrArg Settings.ds0 h,
    congrArg Settings.ds1 h, congrArg Settings.codeRegion h, congrArg Settings.strictBitImm h, congrArg Settings.tick h⟩

end Sys2Proof.Machine
end

section
/-! PROOFS. The step by the bytes at PS:PC (spec/10_state.md R16, spec/20_memory.md R47, spec/60_exceptions.md R170): what it
executes, what it refuses, where it faults, and the end of a run (spec/70_reset_and_hazards.md R184). -/

namespace Sys2Proof

/-! ## How many bytes the decoder asks for -/

/-- What was read from `bs` took at most `n` bytes, or asked for more bytes than there are, which then are fewer than `n`. -/
def ReadsWithin {α : Type} (n : Nat) (bs : List Byte) : Decoded α → Prop
  | .ok _ rest => bs.length ≤ rest.length + n
  | .refused _ => True
  | .truncated => bs.length < n

namespace ReadsWithin

variable {α β : Type} {n m : Nat} {bs : List Byte}

theorem mono {d : Decoded α} (h : ReadsWithin n bs d) (hn : n ≤ m) : ReadsWithin m bs d := by
  cases d with
  | ok a rest => exact le_trans h (Nat.add_le_add_left hn _)
  | refused r => trivial
  | truncated => exact lt_of_lt_of_le h hn

theorem ok (a : α) (bs : List Byte) : ReadsWithin n bs (.ok a bs) := Nat.le_add_right _ _

theorem andThen {d : Decoded α} {f : α → List Byte → Decoded β} (h : ReadsWithin n bs d)
    (hf : ∀ a rest, ReadsWithin m rest (f a rest)) : ReadsWithin (n + m) bs (d.andThen f) := by
  cases d with
  | refused r => trivial
  | truncated => exact Nat.lt_add_right m h
  | ok a rest =>
    have h : bs.length ≤ rest.length + n := h
    have hf := hf a rest
    change ReadsWithin (n + m) bs (f a rest)
    cases hd : f a rest with
    | refused r => trivial
    | ok b rest' => rw [hd] at hf; simp only [ReadsWithin] at hf ⊢; omega
    | truncated => rw [hd] at hf; simp only [ReadsWithin] at hf ⊢; omega

theorem map {d : Decoded α} {f : α → β} (h : ReadsWithin n bs d) : ReadsWithin n bs (d.map f) :=
  h.andThen (m := 0) fun _ _ => .ok _ _

theorem takeByte (bs : List Byte) : ReadsWithin 1 bs (takeByte bs) := by
  cases bs <;> simp [Sys2Proof.takeByte, ReadsWithin]

theorem takeWord (bs : List Byte) : ReadsWithin 2 bs (takeWord bs) :=
  (takeByte bs).andThen (m := 1) fun _ bs => (takeByte bs).andThen (m := 0) fun _ _ => .ok _ _

theorem takeImm (w : Width) (bs : List Byte) : ReadsWithin 2 bs (takeImm w bs) := by
  cases w with
  | byte => exact (takeByte bs).map.mono (by decide)
  | word => exact (takeWord bs).map

theorem takeFar (f : Word → Word → Instr) (bs : List Byte) : ReadsWithin 4 bs (takeFar f bs) :=
  (takeWord bs).andThen (m := 2) fun _ bs => (takeWord bs).map

theorem memNoDisp (mem : Nat) (bs : List Byte) : ReadsWithin 2 bs (memNoDisp mem bs) := by
  unfold Sys2Proof.memNoDisp
  split
  on_goal 7 => exact (takeWord bs).map
  all_goals exact .ok _ _

theorem decodeMem (b : Byte) (bs : List Byte) : ReadsWithin 2 bs (decodeMem b bs) := by
  unfold Sys2Proof.decodeMem
  split
  · exact memNoDisp _ bs
  · exact (takeByte bs).map.mono (by decide)
  · exact (takeWord bs).map
  · trivial

theorem decodeMemExt (k : Nat) (bs : List Byte) : ReadsWithin 3 bs (decodeMemExt k bs) := by
  refine (takeByte bs).andThen (m := 2) fun b bs => ?_
  split
  · exact decodeMem b bs
  · trivial

theorem decodeBitOp (w : Width) (bs : List Byte) : ReadsWithin 3 bs (decodeBitOp w bs) := by
  refine (takeByte bs).andThen (m := 2) fun b bs => ?_
  split
  · split
    · exact .ok _ _
    · exact (decodeMem b bs).map
  · trivial

theorem decodeFF (bs : List Byte) : ReadsWithin 3 bs (decodeFF bs) := by
  refine (takeByte bs).andThen (m := 2) fun b bs => ?_
  split
  · split
    · split
      · trivial
      · exact .ok _ _
    · exact (decodeMem b bs).map
  · exact (decodeMem b bs).map
  · split
    · exact .ok _ _
    · exact (decodeMem b bs).map
  · exact (decodeMem b bs).map
  · exact (decodeMem b bs).map
  · trivial

theorem decode0F (bs : List Byte) : ReadsWithin 5 bs (decode0F bs) := by
  cases bs with
  | nil => exact Nat.zero_lt_succ 4
  | cons op bs =>
    have behind : ∀ {d : Decoded Instr}, ReadsWithin 4 bs d → ReadsWithin 5 (op :: bs) d := fun {d} h => by
      cases d <;> simp only [ReadsWithin, List.length_cons] at h ⊢ <;> omega
    have hs := secondByteSelects op bs
    generalize Sys2Proof.decode0F (op :: bs) = d at hs
    refine behind ?_
    cases hs with
    | test1Cl w | clr1Cl w | set1Cl w | not1Cl w => exact (decodeBitOp w bs).map.mono (by decide)
    | test1Imm w | clr1Imm w | set1Imm w | not1Imm w =>
      exact (decodeBitOp w bs).andThen (m := 1) fun _ bs => (takeByte bs).map
    | btclr => exact ((takeByte bs).andThen (m := 2) fun _ bs => (takeByte bs).andThen (m := 1) fun _ bs =>
        (takeByte bs).map).mono (by decide)
    | unknown => trivial

/-- The bytes behind the first: five at the most (R63). -/
theorem firstByteSelects {op : Byte} {bs : List Byte} {d : Decoded Instr} (h : FirstByteSelects op bs d) :
    ReadsWithin 5 bs d := by
  cases h with
  | refusedByName | unknown => trivial
  | ff => exact (decodeFF bs).mono (by decide)
  | of => exact decode0F bs
  | movRegImmByte | cond | brShort => exact (takeByte bs).map.mono (by decide)
  | movRegImmWord | callNear | brNear | movAccDmem => exact (takeWord bs).map.mono (by decide)
  | callFar | brFar => exact (takeFar _ bs).mono (by decide)
  | movRegReg w =>
    refine ((takeByte bs).andThen (m := 0) fun b bs => ?_).mono (by decide)
    split
    · cases w <;> exact .ok _ _
    · trivial
  | mul =>
    refine ((takeByte bs).andThen (m := 2) fun b bs => ?_).mono (by decide)
    split
    · exact (takeWord bs).map
    · trivial
  | movMemImm w | testMemImm w => exact (decodeMemExt 0 bs).andThen (m := 2) fun _ bs => (takeImm w bs).map
  | subMemReg w => exact ((takeByte bs).andThen (m := 2) fun b bs => (decodeMem b bs).map).mono (by decide)
  | shlMem w => exact (decodeMemExt 4 bs).map.mono (by decide)
  | movbk | cmpbk | stm | ldm | cmpm => exact .ok _ _

end ReadsWithin

/-- Bytes that end before their instruction does are fewer than the longest instruction's. -/
theorem length_lt_of_truncated {bs : List Byte} (h : decode bs = .truncated) : bs.length < maxLength := by
  cases bs with
  | nil => decide
  | cons op bs =>
    obtain ⟨d, hs, hd⟩ := decode_cons op bs
    have hr := ReadsWithin.firstByteSelects hs
    rw [← hd, h] at hr
    exact Nat.succ_lt_succ hr

namespace Machine

open Sys2Proof.Claims

/-! ## A step by the bytes at PS:PC -/

theorem step_of_decode_refused {s : State} {bs : List Byte} {r : DecodeRefusal} (hn : bs.length ≤ maxLength)
    (hs : CodeAt s bs) (h : ∀ rest, decode (bs ++ rest) = .refused r) : step s = .refused (refusalOf r) := by
  rw [step, fetchBytes_of_codeAt hn hs, h]

/-- Settles O5: by the decoder, and by the step on what it fetches. -/
theorem prefixBytesRefused : Obligations.PrefixBytesRefused := fun _ hop =>
  ⟨decode_of_refusedByName hop, fun _ hs => step_of_decode_refused (by simp [maxLength]) hs (decode_of_refusedByName hop)⟩

theorem decode_call_sp (bs : List Byte) : decode (0xFF :: 0xD4 :: bs) = .refused .callSp := decode_callReg 4 bs

/-- Settles O7: `CALL SP` stops in the meaning, in the decoder and in the step on what it fetches. -/
theorem callThroughSpRefused : Obligations.CallThroughSpRefused := fun _ =>
  ⟨rfl, decode_call_sp, fun hs => step_of_decode_refused (by simp [maxLength]) hs decode_call_sp⟩

/-- Settles O10: the fetch reads the instruction's bytes, and the decoder the instruction from them. -/
theorem stepExecutesInstructionAtPc : Obligations.StepExecutesInstructionAtPc := by
  intro s i hwf hcode n
  have hn : n ≤ maxLength := (encode_length i).le.trans (instrLength_le i)
  have hfetch := fetchBytes_of_codeAt hn hcode
  rw [step, hfetch, decodeOfEncodeGivesInstruction i _ hwf]
  simp only [List.length_append, Nat.add_sub_cancel_right]
  exact executeFetched_eq n i s

/-- Settles O11: the fetch ends at the byte that has no value, where the decoder asks for another. -/
theorem stepFaultsWhereNothingIsWritten : Obligations.StepFaultsWhereNothingIsWritten := by
  intro s bs hcode hdec hsfr hmem
  have hfetch := fetchBytes_of_codeAt (length_lt_of_truncated hdec).le hcode
  rw [fetchFrom_of_unreadable hsfr hmem, List.append_nil] at hfetch
  rw [step, hfetch, hdec]

/-! ## The end of a run -/

theorem step_of_endOfRun {s : State} (h : EndOfRun s) :
    step s = .next { s with tick := s.tick + 1, sfrLog := fetchReads 2 s ++ s.sfrLog } := by
  have hpc : s.pc + BitVec.ofNat 16 2 + sext16 0xFE = s.pc := by
    rw [BitVec.add_assoc]; exact BitVec.add_zero s.pc
  rw [stepExecutesInstructionAtPc s (.brShort 0xFE) rfl h]
  change Host.Outcome.next { s with
    pc := s.pc + BitVec.ofNat 16 2 + sext16 0xFE, tick := s.tick + 1, sfrLog := fetchReads 2 s ++ s.sfrLog } = _
  rw [hpc]

theorem fetchedByte_of_plain {s : State} {k : Nat} (h : inSfr s.idb (fetchAddr s k) = false) :
    fetchedByte s k = memGet s.mem (fetchAddr s k) := by
  simp [fetchedByte, h]

/-- Code in memory stays there whatever the step count is. -/
theorem endOfRun_tick {s : State} (h : EndOfRun s) (hmem : CodeInMemory 2 s) (n : Nat) :
    EndOfRun { s with tick := n } := fun k hk =>
  (fetchedByte_of_plain (s := { s with tick := n }) (hmem k hk)).trans
    ((fetchedByte_of_plain (hmem k hk)).symm.trans (h k hk))

theorem fetchReads_of_codeInMemory {n : Nat} {s : State} (h : CodeInMemory n s) : fetchReads n s = [] := by
  simpa [fetchReads, CodeInMemory] using h

theorem runsTo_of_endOfRun {s : State} (h : EndOfRun s) (hmem : CodeInMemory 2 s) {es : List Event}
    (hes : NoInterruptTaken es) : RunsTo es s { s with tick := s.tick + es.length } := by
  induction es generalizing s with
  | nil => rfl
  | cons e es ih =>
    obtain rfl := hes e (List.mem_cons_self ..)
    have hstep := step_of_endOfRun h
    rw [fetchReads_of_codeInMemory hmem, List.nil_append] at hstep
    have hrest := ih (endOfRun_tick h hmem (s.tick + 1)) hmem fun e he => hes e (List.mem_cons_of_mem _ he)
    rw [List.length_cons, Nat.add_comm es.length, ← Nat.add_assoc]
    exact runEvents_instruction_eq_next.mpr ⟨_, hstep, hrest⟩

/-- Settles O58: the displacement takes PC back to where it was, so the run stays there. -/
theorem endOfRunIsASelfBranch : Obligations.EndOfRunIsASelfBranch := fun _ h =>
  ⟨step_of_endOfRun h, fun hmem _ hes => ⟨runsTo_of_endOfRun h hmem hes, endOfRun_tick h hmem _⟩⟩

end Machine

end Sys2Proof
end

section
/-! PROOFS. CALL, BR and the conditional branches (spec/40_instruction_address.md R82 to R104): what they link, where they go. -/

namespace Sys2Proof.Machine

open Sys2Proof.Claims

/-! ## Stores inside a longer effect -/

/-- A state with the memory and the history of a store, and all else as before, is the state after the store. -/
theorem stores_of_eq {w : Width} {seg off : Word} {v : BitVec w.bits} {s t : State}
    (h : t = { s with mem := (poke w seg off v s).mem, sfrLog := (poke w seg off v s).sfrLog }) :
    Stores w seg off v s t := by
  rw [← poke_frame] at h
  exact h ▸ stores_poke w seg off v s

/-! ## CALL -/

/-- A CALL that loads PC only goes through where its link can be stored (R92). -/
theorem nearCall_links {s : State} (h : CanWrite .word s.segs.ss (getW .sp s - 2) s) (target : Word) :
    ∃ t, nearCall target s = .next t ∧ LinksNear target s t := by
  refine ⟨_, nearCall_eq_next.mpr ⟨h, rfl⟩, ?_⟩
  rw [poke_setW]
  refine ⟨getW_setW_same .., fun q hq => ?_, rfl, stores_of_eq (by simp [setPc, setW])⟩
  exact (getW_setW_other hq _ _).trans (getW_poke ..)

/-- A CALL that loads PS and PC goes through where both words can be stored (R92). -/
theorem farCall_links {s : State} (h : CanLinkFar s) (seg off : Word) :
    ∃ t, farCall seg off s = .next t ∧ LinksFar seg off s t := by
  refine ⟨_, farCall_eq_next.mpr ⟨h.1, h.2, rfl⟩, ?_⟩
  simp only [afterFirstPush, poke_setW]
  refine ⟨getW_setW_same .., fun q hq => ?_, rfl, by simp, poke .word s.segs.ss (getW .sp s - 2) s.segs.ps s,
    stores_poke .., stores_of_eq (by simp [setPsPc, setW])⟩
  change getW q (setW _ _ (setW _ _ _)) = _
  rw [getW_setW_other hq, getW_setW_other hq, getW_poke, getW_poke]

/-- Settles O25: both are a near CALL. -/
theorem nearCallsLinkAndBranch : Obligations.NearCallsLinkAndBranch := by
  refine fun s h => ⟨fun d => nearCall_links h (s.pc + d), fun r hr => ?_⟩
  obtain ⟨t, ht, hlinks⟩ := nearCall_links h (getW r s)
  exact ⟨t, execCallReg_eq_next.mpr ⟨hr, ht⟩, hlinks⟩

/-- Settles O26: the call is made from the state after the pointer has been read. -/
theorem pointerCallLinksAndBranches : Obligations.PointerCallLinksAndBranches := by
  intro m s hr hw
  obtain ⟨t, ht, hlinks⟩ := nearCall_links (s := afterReading .word (memSeg m s) (ea m s) s) hw
    (peek .word (memSeg m s) (ea m s) s)
  exact ⟨t, execCallMem16_eq_next.mpr ⟨hr, by rwa [afterRead_eq_afterReading]⟩, hlinks⟩

/-- Settles O27: it is a far CALL. -/
theorem farCallLinksAndBranches : Obligations.FarCallLinksAndBranches := fun off seg _ h => farCall_links h seg off

/-- Settles O28: the call is made from the state after the double word has been read. -/
theorem farPointerCallLinksAndBranches : Obligations.FarPointerCallLinksAndBranches := by
  intro m s hr hw
  obtain ⟨t, ht, hlinks⟩ := farCall_links
    (s := afterReading .word (memSeg m s) (ea m s + 2) (afterReading .word (memSeg m s) (ea m s) s)) hw
    (peek .word (memSeg m s) (ea m s + 2) (afterReading .word (memSeg m s) (ea m s) s)) (peek .word (memSeg m s) (ea m s) s)
  exact ⟨t, execCallMem32_eq_next.mpr ⟨hr, by simpa only [afterRead_eq_afterReading] using ht⟩, hlinks⟩

/-- The link of a CALL that loads PC only stands at SS:SP, in plain memory, and is read there (R92). -/
theorem readAt_link {target : Word} {s t : State} (h : nearCall target s = .next t)
    (hp : PlainAt .word s.segs.ss (getW .sp s - 2) s) : readAt .word t.segs.ss (getW .sp t) t = .next (s.pc, t) := by
  obtain ⟨hw, ht⟩ := nearCall_eq_next.mp h
  obtain ⟨t', ht', hsp, -, -, hstores⟩ := nearCall_links hw target
  obtain rfl : t = t' := Host.Outcome.next.inj (h.symm.trans ht')
  have hss : t.segs.ss = s.segs.ss := by rw [ht]; simp
  have hlink : Holds .word s.segs.ss (getW .sp s - 2) s.pc t := (holds_of_stores hstores hp :)
  rw [hss, hsp]
  exact readAt_of_holds hw.1 hlink

/-- Settles O29: all three forms are a near CALL, the last from the state after its pointer has been read. -/
theorem linkReadsBackFromStack : Obligations.LinkReadsBackFromStack := by
  intro d r m s t hp i hi h
  simp only [List.mem_cons, List.not_mem_nil, or_false] at hi
  rcases hi with rfl | rfl | rfl
  · exact readAt_link (target := s.pc + d) h hp
  · exact readAt_link (execCallReg_eq_next.mp h).2 hp
  · obtain ⟨-, hcall⟩ := execCallMem16_eq_next.mp h
    rw [afterRead_eq_afterReading] at hcall
    exact readAt_link (s := afterReading .word (memSeg m s) (ea m s) s) hcall hp

/-! ## BR -/

/-- Settles O22: each is its assignment to PC, or to PS and PC. -/
theorem branchTargetsWithoutMemory : Obligations.BranchTargetsWithoutMemory := fun _ =>
  ⟨fun _ => rfl, fun _ => rfl, fun _ => rfl, fun _ _ => rfl⟩

/-- Settles O24: the pointer is read, PC, or PC and PS, are loaded from it. -/
theorem pointerBranchTargets : Obligations.PointerBranchTargets := by
  refine fun m s => ⟨fun h => ?_, fun h => ?_⟩
  · exact execBrMem16_eq_next.mpr ⟨h, by rw [afterRead_eq_afterReading]; rfl⟩
  · exact execBrMem32_eq_next.mpr ⟨h, by simp only [afterRead_eq_afterReading]; rfl⟩

/-! ## Conditional branches -/

theorem branchIf_eq {c : Bool} {p : Prop} [Decidable p] (h : c = true ↔ p) (d : Byte) (s : State) :
    branchIf c d s = { s with pc := if p then s.pc + d.signExtend 16 else s.pc } := by
  by_cases hp : p
  · rw [h.mpr hp, if_pos hp]; rfl
  · rw [Bool.eq_false_iff.mpr fun hc => hp (h.mp hc), if_neg hp]; rfl

/-- Settles O30: the condition that each meaning tests is the table's. -/
theorem conditionalBranchesFollowTheTable : Obligations.ConditionalBranchesFollowTheTable := by
  intro d s branch f n countAndBranch
  have row : ∀ {c : Bool} {p : Prop} [Decidable p], (c = true ↔ p) → Host.Outcome.next (branchIf c d s) = branch p :=
    fun h => congrArg _ (branchIf_eq h d s)
  have countRow : ∀ {c : Bool} {p : Prop} [Decidable p], (c = true ↔ p) →
      Host.Outcome.next (branchIf c d (decCw s)) = countAndBranch p := fun h => congrArg _ (branchIf_eq h d (decCw s))
  have hcw : getW .cw s = s.regs.cw := rfl
  have hn : getW .cw (decCw s) = n := rfl
  refine ⟨row ?_, row ?_, row ?_, row ?_, row ?_, row ?_, row ?_, row ?_, row ?_, row ?_, row ?_, row ?_, row ?_, row ?_,
    row ?_, row ?_, countRow ?_, countRow ?_, countRow ?_, row ?_⟩
  all_goals simp [f, hcw, hn]

end Sys2Proof.Machine
end

section
/-! PROOFS. MOV, MUL, SUB, TEST, SHL, PUSH and the block instructions (spec/41_operand_register_immediate_direct.md R119 to R123,
spec/42_memory_operand_modes.md R132 to R146): results, flags, and that nothing else is written. -/

namespace Sys2Proof.Machine

open Sys2Proof.Claims

/-! ## Flags -/

theorem parityEven_iff {n : Nat} (v : BitVec n) : parityEven (v.setWidth 8) = true ↔ EvenOnes v := by
  simp only [parityEven, EvenOnes, List.range, List.range.loop, BitVec.getLsbD_setWidth, List.filter]
  generalize v.getLsbD 0 = b0
  generalize v.getLsbD 1 = b1
  generalize v.getLsbD 2 = b2
  generalize v.getLsbD 3 = b3
  generalize v.getLsbD 4 = b4
  generalize v.getLsbD 5 = b5
  generalize v.getLsbD 6 = b6
  generalize v.getLsbD 7 = b7
  revert b0 b1 b2 b3 b4 b5 b6 b7
  decide

/-- A difference keeps its value exactly where it is a signed number of its size. -/
theorem toInt_sub_ne_iff {n : Nat} (hn : 0 < n) (a b : BitVec n) : (a - b).toInt ≠ a.toInt - b.toInt ↔
    a.toInt - b.toInt < -(2 ^ (n - 1)) ∨ 2 ^ (n - 1) ≤ a.toInt - b.toInt := by
  constructor
  · intro h
    by_contra hin
    push Not at hin
    exact h (by rw [BitVec.toInt_sub, ← BitVec.toInt_ofInt, BitVec.toInt_ofInt_eq_self hn hin.1 hin.2])
  · rintro (h | h) heq
    · exact absurd (BitVec.le_toInt (a - b)) (by rw [heq]; omega)
    · exact absurd (BitVec.toInt_lt (x := a - b)) (by rw [heq]; omega)

theorem subFlags_spec {n : Nat} (hn : 0 < n) (a b : BitVec n) : SubtractionFlags a b (subFlags a b) := by
  refine ⟨decide_eq_true_iff, ?_, ?_, ?_, parityEven_iff _, decide_eq_true_iff⟩
  · exact decide_eq_true_iff.trans (toInt_sub_ne_iff hn a b)
  · exact decide_eq_true_iff.trans sub_eq_zero
  · rw [← BitVec.msb_eq_getLsbD_last]; rfl

theorem bits_pos (w : Width) : 0 < w.bits := by cases w <;> decide

/-! ## Register writes -/

theorem writesReg_setR (r : Reg) (v : BitVec r.width.bits) (s : State) : WritesReg r v s (setR r v s) := by
  cases r with
  | byte r => exact ⟨getB_setB_same r v s, fun _ hq => getB_setB_other hq v s, fun _ hq => getW_setB_other hq v s, rfl⟩
  | word r => exact ⟨getW_setW_same r v s, fun _ hq => getW_setW_other hq v s, rfl⟩

/-- Settles O32: what a register write leaves alone. -/
theorem moveRegisterToRegister : Obligations.MoveRegisterToRegister := fun s =>
  ⟨fun d x => ⟨_, rfl, writesReg_setR (.word d) (getW x s) s⟩, fun d x => ⟨_, rfl, writesReg_setR (.byte d) (getB x s) s⟩⟩

/-- Settles O33: what a register write leaves alone. -/
theorem moveImmediateToRegister : Obligations.MoveImmediateToRegister := fun s =>
  ⟨fun d v => ⟨_, rfl, writesReg_setR (.word d) v s⟩, fun d v => ⟨_, rfl, writesReg_setR (.byte d) v s⟩⟩

/-- Settles O34: the low word of a product that fits is the product. -/
theorem multiplyKeepsLowWord : Obligations.MultiplyKeepsLowWord := by
  intro d x imm s p
  refine ⟨_, rfl, writesReg_setR (.word d) (BitVec.ofInt 16 p) s, ?_⟩
  split
  next hp =>
    refine ⟨?_, decide_eq_false (by omega), decide_eq_false (by omega)⟩
    change (getW d (setW d (BitVec.ofInt 16 p) s)).toInt = p
    rw [getW_setW_same]
    exact BitVec.toInt_ofInt_eq_self (by decide) hp.1 (by omega)
  next hp => exact ⟨decide_eq_true (by omega), decide_eq_true (by omega)⟩

/-- Settles O35: it is a write to the operand. -/
theorem moveImmediateToMemory : Obligations.MoveImmediateToMemory := fun _ _ _ h =>
  ⟨_, execMovMemImm_eq_next.mpr ⟨h, rfl⟩, stores_poke ..⟩

/-- Settles O36: the accumulator is written in the state after the read. -/
theorem loadAccumulatorDirect : Obligations.LoadAccumulatorDirect := by
  refine fun a s => ⟨fun h => ⟨_, execMovAccDmem_eq_next.mpr ⟨h, rfl⟩, ?_⟩,
    fun h => ⟨_, execMovAccDmem_eq_next.mpr ⟨h, rfl⟩, ?_⟩⟩
  · rw [afterRead_eq_afterReading]; exact writesReg_setR (.byte .al) _ _
  · rw [afterRead_eq_afterReading]; exact writesReg_setR (.word .aw) _ _

/-! ## SUB, TEST, SHL, PUSH -/

@[simp] theorem afterReading_regs (w : Width) (seg off : Word) (s : State) : (afterReading w seg off s).regs = s.regs := rfl

/-- A store after a read, and then the flags. -/
theorem stores_setFlags_poke (w : Width) (seg off : Word) (v : BitVec w.bits) (f : Flags) (s : State) :
    Stores w seg off v s { setFlags f (poke w seg off v s) with flags := s.flags } :=
  stores_of_eq (by simp [setFlags])

/-- Settles O37: a store after the read, and the flags of a subtraction. -/
theorem subtractFromMemory : Obligations.SubtractFromMemory := by
  intro m r s hr hw v
  refine ⟨_, execSubMemReg_eq_next.mpr ⟨hr, hw, rfl⟩, subFlags_spec (bits_pos _) _ _, ?_⟩
  rw [afterRead_eq_afterReading]
  exact stores_setFlags_poke ..

/-- Settles O38: only the flags are set after the read. -/
theorem testMemoryWithImmediate : Obligations.TestMemoryWithImmediate := by
  intro m imm s hr r
  refine ⟨_, execTestMemImm_eq_next.mpr ⟨hr, rfl⟩, ?_, rfl, rfl, decide_eq_true_iff, ?_, parityEven_iff _⟩
  · rw [afterRead_eq_afterReading]; rfl
  · rw [← BitVec.msb_eq_getLsbD_last]; rfl

/-- Settles O39: the shift by one place is the doubling modulo the size. -/
theorem shiftMemoryLeft : Obligations.ShiftMemoryLeft := by
  intro m w s hr hw v
  refine ⟨v <<< 1, _, ?_, execShlMem_eq_next.mpr ⟨hr, hw, rfl⟩, ?_, ?_, ?_, decide_eq_true_iff, ?_, parityEven_iff _⟩
  · rw [BitVec.toNat_shiftLeft, Nat.shiftLeft_eq, pow_one]
  · rw [afterRead_eq_afterReading]; exact stores_setFlags_poke ..
  · exact BitVec.msb_eq_getLsbD_last v
  · rw [← BitVec.msb_eq_getLsbD_last]; exact bne_iff_ne
  · exact BitVec.msb_eq_getLsbD_last _

/-- Settles O40: the word is stored from the state after the operand has been read. -/
theorem pushMemoryWord : Obligations.PushMemoryWord := by
  intro m s hr hw
  refine ⟨_, execPushMem_eq_next.mpr ⟨hr, hw, rfl⟩, ?_⟩
  rw [afterRead_eq_afterReading, poke_setW]
  refine ⟨getW_setW_same .., fun q hq => ?_, stores_of_eq (by simp [setW])⟩
  rw [getW_setW_other hq, getW_poke]
  rfl

/-! ## Block instructions -/

theorem getW_stepReg_same (w : Width) (r : WReg) (s : State) : getW r (stepReg w r s) = moved w r s := by
  cases w <;> exact getW_setW_same ..

theorem moved_congr {s u : State} {r : WReg} (hr : getW r u = getW r s) (hd : u.dir = s.dir) (w : Width) :
    moved w r u = moved w r s := by
  simp only [moved, hr, hd]

theorem moved_eq (w : Width) (r : WReg) (s : State) : moved w r s =
    if s.dir = false then getW r s + BitVec.ofNat 16 w.bytes else getW r s - BitVec.ofNat 16 w.bytes := by
  cases w <;> cases h : s.dir <;> simp [moved, h]

/-- Both registers moved, after what leaves them and DIR alone. -/
theorem getW_stepBoth {s u : State} (w : Width) (hu : u.regs = s.regs) (hd : u.dir = s.dir) :
    getW .ix (stepReg w .iy (stepReg w .ix u)) = moved w .ix s ∧
    getW .iy (stepReg w .iy (stepReg w .ix u)) = moved w .iy s ∧
    ∀ q, q ≠ .ix → q ≠ .iy → getW q (stepReg w .iy (stepReg w .ix u)) = getW q s := by
  refine ⟨?_, ?_, fun q hix hiy => ?_⟩
  · rw [getW_stepReg_other (by decide), getW_stepReg_same, moved_congr (getW_congr hu _) hd]
  · rw [getW_stepReg_same]
    exact moved_congr ((getW_stepReg_other (by decide) w u).trans (getW_congr hu _)) hd w
  · rw [getW_stepReg_other hiy, getW_stepReg_other hix, getW_congr hu]

/-- IY moved, after what leaves it and DIR alone. -/
theorem getW_stepIy {s u : State} (w : Width) (hu : u.regs = s.regs) (hd : u.dir = s.dir) :
    getW .iy (stepReg w .iy u) = moved w .iy s ∧ ∀ q, q ≠ .iy → getW q (stepReg w .iy u) = getW q s :=
  ⟨(getW_stepReg_same ..).trans (moved_congr (getW_congr hu _) hd w),
    fun q hq => (getW_stepReg_other hq w u).trans (getW_congr hu q)⟩

/-- A store, whatever else is done to the registers. -/
theorem stores_of_regs {w : Width} {seg off : Word} {v : BitVec w.bits} {s u : State}
    (hu : u = { poke w seg off v s with regs := u.regs }) : Stores w seg off v s { u with regs := s.regs } :=
  stores_of_eq (by rw [hu]; simp)

/-- Settles O41: the store in the state after the read, then both registers. -/
theorem moveBlockElement : Obligations.MoveBlockElement := by
  intro w s hr hw
  obtain ⟨hix, hiy, hother⟩ := getW_stepBoth (s := s) (u := poke w s.segs.ds1 (getW .iy s)
    (peek w s.segs.ds0 (getW .ix s) s) (afterReading w s.segs.ds0 (getW .ix s) s)) w (by simp) (by simp [afterReading])
  refine ⟨_, execMovbk_eq_next.mpr ⟨hr, hw, rfl⟩, ?_⟩
  rw [afterRead_eq_afterReading]
  exact ⟨hix, hiy, hother, stores_of_regs rfl⟩

/-- LDM before IX moves: the accumulator holds the element, its other half is kept, and nothing else is written. -/
theorem setAcc_spec (w : Width) (v : BitVec w.bits) (s : State) :
    getAcc w (setAcc w v s) = v ∧ (w = .byte → getB .ah (setAcc w v s) = getB .ah s) ∧
    (∀ q, q ≠ .aw → getW q (setAcc w v s) = getW q s) ∧ setAcc w v s = { s with regs := (setAcc w v s).regs } := by
  cases w with
  | byte => exact ⟨getB_setB_same .al v s, fun _ => getB_setB_other (by decide) v s,
      fun _ hq => getW_setB_other (r := .al) hq v s, rfl⟩
  | word => exact ⟨getW_setW_same .aw v s, nofun, fun _ hq => getW_setW_other hq v s, rfl⟩

theorem getAcc_congr {s t : State} (h : getW .aw t = getW .aw s) (w : Width) : getAcc w t = getAcc w s := by
  cases w with
  | byte => exact congrArg loByte h
  | word => exact h

/-- Settles O42: for LDM the state `u` of the statement is the one before IX moves. -/
theorem loadAndStoreBlockElement : Obligations.LoadAndStoreBlockElement := by
  refine fun w s => ⟨fun hr => ?_, fun hw => ?_⟩
  · let u := setAcc w (peek w s.segs.ds0 s.regs.ix s) (afterReading w s.segs.ds0 s.regs.ix s)
    obtain ⟨hacc, hah, hother, hframe⟩ : _ ∧ _ ∧ _ ∧ u = _ := setAcc_spec ..
    have hix : u.regs.ix = s.regs.ix := hother .ix (by decide)
    have haw : getW .aw (stepReg w .ix u) = getW .aw u := getW_stepReg_other (by decide) w u
    refine ⟨stepReg w .ix u, u, execLdm_eq_next.mpr ⟨hr, by rw [afterRead_eq_afterReading]; rfl⟩, by rw [← hix]; rfl,
      ?_, (getAcc_congr haw w).trans hacc, fun hw => (congrArg hiByte haw).trans (hah hw), hother, hframe⟩
    exact (getW_stepReg_same w .ix u).trans (moved_congr (r := .ix) hix (by simp [u, afterReading]) w)
  · obtain ⟨hiy, hother⟩ := getW_stepIy (s := s) (u := poke w s.segs.ds1 s.regs.iy (getAcc w s) s) w (by simp) (by simp)
    exact ⟨_, execStm_eq_next.mpr ⟨hw, rfl⟩, hiy, hother, stores_of_regs rfl⟩

/-- Settles O43: the flags are set between the reads and the moves. -/
theorem compareBlockElements : Obligations.CompareBlockElements := by
  refine fun w s => ⟨fun hr hr' => ?_, fun hr => ?_⟩
  · refine ⟨_, execCmpbk_eq_next.mpr ⟨hr, hr', rfl⟩, ?_⟩
    simp only [afterRead_eq_afterReading]
    obtain ⟨hix, hiy, hother⟩ := getW_stepBoth (s := s) (u := setFlags (subFlags (peek w s.segs.ds0 s.regs.ix s)
      (peek w s.segs.ds1 s.regs.iy (afterReading w s.segs.ds0 s.regs.ix s)))
      (afterReading w s.segs.ds1 s.regs.iy (afterReading w s.segs.ds0 s.regs.ix s))) w rfl rfl
    exact ⟨subFlags_spec (bits_pos w) _ _, hix, hiy, hother, rfl⟩
  · refine ⟨_, execCmpm_eq_next.mpr ⟨hr, rfl⟩, ?_⟩
    rw [afterRead_eq_afterReading]
    obtain ⟨hiy, hother⟩ := getW_stepIy (s := s) (u := setFlags (subFlags (getAcc w s) (peek w s.segs.ds1 s.regs.iy s))
      (afterReading w s.segs.ds1 s.regs.iy s)) w rfl rfl
    exact ⟨subFlags_spec (bits_pos w) _ _, hiy, hother, rfl⟩

theorem exec_movesIx {w : Width} {s t : State}
    (h : exec (.movbk w) s = .next t ∨ exec (.cmpbk w) s = .next t ∨ exec (.ldm w) s = .next t) :
    getW .ix t = moved w .ix s := by
  rcases h with h | h | h
  · obtain ⟨-, -, rfl⟩ := execMovbk_eq_next.mp h
    exact (getW_stepBoth w (by simp) (by simp)).1
  · obtain ⟨-, -, rfl⟩ := execCmpbk_eq_next.mp h
    exact (getW_stepBoth w (by simp) (by simp)).1
  · obtain ⟨-, rfl⟩ := execLdm_eq_next.mp h
    refine (getW_stepReg_same ..).trans (moved_congr ?_ (by simp) w)
    exact ((setAcc_spec w _ _).2.2.1 .ix (by decide)).trans (getW_congr (by simp) _)

theorem exec_movesIy {w : Width} {s t : State} (h : exec (.movbk w) s = .next t ∨ exec (.cmpbk w) s = .next t ∨
    exec (.stm w) s = .next t ∨ exec (.cmpm w) s = .next t) : getW .iy t = moved w .iy s := by
  rcases h with h | h | h | h
  · obtain ⟨-, -, rfl⟩ := execMovbk_eq_next.mp h
    exact (getW_stepBoth w (by simp) (by simp)).2.1
  · obtain ⟨-, -, rfl⟩ := execCmpbk_eq_next.mp h
    exact (getW_stepBoth w (by simp) (by simp)).2.1
  · obtain ⟨-, rfl⟩ := execStm_eq_next.mp h
    exact (getW_stepIy w (by simp) (by simp)).1
  · obtain ⟨-, rfl⟩ := execCmpm_eq_next.mp h
    exact (getW_stepIy w (by simp) (by simp)).1

/-- Settles O44: the moves of the block instructions, and the frame of DIR. -/
theorem directionFlagSelectsIncrementOrDecrement : Obligations.DirectionFlagSelectsIncrementOrDecrement :=
  ⟨fun w s _ => ⟨fun h => (exec_movesIx h).trans (moved_eq w .ix s), fun h => (exec_movesIy h).trans (moved_eq w .iy s)⟩,
    fun _ _ _ h => congrArg Settings.dir (exec_settings h)⟩

end Sys2Proof.Machine
end

section
/-! PROOFS. The bit instructions and BTCLR (spec/43_bit_and_sfr.md R150 to R158): the one bit they touch, the flags, NOT1 twice,
and a special function register whose bit is cleared. -/

namespace Sys2Proof.Machine

open Sys2Proof.Claims

/-! ## One bit of a value -/

theorem lowBits_eq_bitNumber (w : Width) (x : Byte) : lowBits w x = bitNumber w x := by cases w <;> rfl

theorem bitNumber_lt (w : Width) (x : Byte) : bitNumber w x < w.bits := Nat.mod_lt _ (bits_pos w)

section
variable {w : Width} {b : Nat} (hb : b < w.bits) (v : BitVec w.bits)
include hb

theorem oneBitChanged_setBit : OneBitChanged b (fun _ => true) v (setBit w b v) :=
  ⟨hb, by simp [setBit, bitMask, hb], fun k _ hk => by simp [setBit, bitMask, Ne.symm hk]⟩

theorem oneBitChanged_clearBit : OneBitChanged b (fun _ => false) v (clearBit w b v) :=
  ⟨hb, by simp [clearBit, bitMask, hb], fun k hlt hk => by simp [clearBit, bitMask, hk, hlt]⟩

theorem oneBitChanged_invertBit : OneBitChanged b (fun x => !x) v (invertBit w b v) :=
  ⟨hb, by simp [invertBit, bitMask, hb], fun k _ hk => by simp [invertBit, bitMask, Ne.symm hk]⟩

end

theorem invertBit_invertBit (w : Width) (b : Nat) (v : BitVec w.bits) : invertBit w b (invertBit w b v) = v := by
  simp [invertBit]

/-! ## The operand in the words of the statements -/

theorem bitModifiable_iff (o : BitOp) (s : State) : BitModifiable o s ↔ bitCanRead o s ∧ bitCanWrite o s := by
  cases o <;> simp [BitModifiable, bitCanRead, bitCanWrite]

theorem bitReadable_iff (o : BitOp) (s : State) : BitReadable o s ↔ bitCanRead o s := by cases o <;> rfl

theorem bitPeek_eq_bitOperand (o : BitOp) (s : State) : bitPeek o s = bitOperand o s := by cases o <;> rfl

theorem bitAfterRead_eq_afterBitRead (o : BitOp) (s : State) : bitAfterRead o s = afterBitRead o s := by
  cases o with
  | reg r => rfl
  | mem w m => exact afterRead_eq_afterReading ..

theorem writesBack_bitPoke (o : BitOp) (v : BitVec o.width.bits) (s : State) : WritesBack o v s (bitPoke o v s) := by
  cases o with
  | reg r => exact writesReg_setR r v s
  | mem w m =>
    simp only [WritesBack, bitPoke, afterRead_eq_afterReading]
    exact stores_poke ..

/-! ## The bit instructions -/

/-- A read-modify-write of one bit goes through where its operand can be read and written (R152). -/
theorem modifyBitOp_modifiesBit {o : BitOp} {s : State} (h : BitModifiable o s)
    {f : BitVec o.width.bits → BitVec o.width.bits} {b : Nat} {g : Bool → Bool}
    (hf : OneBitChanged b g (bitOperand o s) (f (bitOperand o s))) :
    ∃ t, modifyBitOp o f s = .next t ∧ ModifiesBit o b g s t := by
  obtain ⟨hr, hw⟩ := (bitModifiable_iff o s).mp h
  refine ⟨_, modifyBitOp_eq_next.mpr ⟨hr, hw, rfl⟩, _, writesBack_bitPoke .., ?_⟩
  rwa [bitPeek_eq_bitOperand]

theorem testOperandBit_flags {o : BitOp} {s : State} (h : BitReadable o s) (b : Nat) :
    ∃ t, testOperandBit o b s = .next t ∧ t = { afterBitRead o s with flags := t.flags } ∧
      t.flags = test1Flags ((bitOperand o s).getLsbD b) s := by
  refine ⟨_, testOperandBit_eq_next.mpr ⟨(bitReadable_iff o s).mp h, rfl⟩, ?_, ?_⟩
  · rw [bitAfterRead_eq_afterBitRead]; rfl
  · rw [bitPeek_eq_bitOperand]; rfl

theorem exec_test1_flags {o : BitOp} {s : State} (h : BitReadable o s) :
    (∃ t, exec (.test1Cl o) s = .next t ∧ t = { afterBitRead o s with flags := t.flags } ∧
      t.flags = test1Flags ((bitOperand o s).getLsbD (lowBits o.width (getB .cl s))) s) ∧
    ∀ n : Byte, BitImmTaken o.width n s → ∃ t, exec (.test1Imm o n) s = .next t ∧
      t = { afterBitRead o s with flags := t.flags } ∧
      t.flags = test1Flags ((bitOperand o s).getLsbD (lowBits o.width n)) s := by
  simp only [lowBits_eq_bitNumber]
  refine ⟨testOperandBit_flags h _, fun n hn => ?_⟩
  obtain ⟨t, ht, hflags⟩ := testOperandBit_flags h (bitNumber o.width n)
  exact ⟨t, execTest1Imm_eq_next.mpr ⟨hn, ht⟩, hflags⟩

/-- Settles O45: each is a read-modify-write of the one bit, or a test of it, with a bit number below the width. -/
theorem bitInstructionsTouchOneBit : Obligations.BitInstructionsTouchOneBit := by
  refine fun o s => ⟨fun h => ?_, fun n h hn => ?_, exec_test1_flags⟩ <;> simp only [lowBits_eq_bitNumber]
  · have hb := bitNumber_lt o.width (getB .cl s)
    exact ⟨modifyBitOp_modifiesBit h (oneBitChanged_setBit hb _), modifyBitOp_modifiesBit h (oneBitChanged_clearBit hb _),
      modifyBitOp_modifiesBit h (oneBitChanged_invertBit hb _)⟩
  · have hb := bitNumber_lt o.width n
    obtain ⟨t1, h1, hm1⟩ := modifyBitOp_modifiesBit h (oneBitChanged_setBit hb _)
    obtain ⟨t2, h2, hm2⟩ := modifyBitOp_modifiesBit h (oneBitChanged_clearBit hb _)
    obtain ⟨t3, h3, hm3⟩ := modifyBitOp_modifiesBit h (oneBitChanged_invertBit hb _)
    exact ⟨⟨t1, execSet1Imm_eq_next.mpr ⟨hn, h1⟩, hm1⟩, ⟨t2, execClr1Imm_eq_next.mpr ⟨hn, h2⟩, hm2⟩,
      ⟨t3, execNot1Imm_eq_next.mpr ⟨hn, h3⟩, hm3⟩⟩

/-- Settles O46: the flags that the test sets, written out. -/
theorem bitTestFlags : Obligations.BitTestFlags := by
  intro o s h
  obtain ⟨⟨t, ht, -, hflags⟩, himm⟩ := exec_test1_flags h
  refine ⟨⟨t, ht, ?_⟩, fun n hn => ?_⟩
  · rw [hflags]; exact ⟨by simp [test1Flags], rfl, rfl⟩
  · obtain ⟨t, ht, -, hflags⟩ := himm n hn
    refine ⟨t, ht, ?_⟩
    rw [hflags]; exact ⟨by simp [test1Flags], rfl, rfl⟩

/-! ## NOT1 twice -/

theorem ea_congr {s t : State} (h : t.regs = s.regs) (m : MemOp) : ea m t = ea m s := by
  cases m <;> simp only [ea, getW, h]

theorem memSeg_congr {s t : State} (h : t.segs = s.segs) (m : MemOp) : memSeg m t = memSeg m s := getS_congr h _

theorem regsSet_regsSet_regsGet (r : WReg) (v : Word) (g : Regs) : regsSet r (regsGet r g) (regsSet r v g) = g := by
  cases r <;> rfl

/-- Writing a register's old value back restores the register file. -/
theorem setR_setR_getR (r : Reg) (v : BitVec r.width.bits) (s : State) : (setR r (getR r s) (setR r v s)).regs = s.regs := by
  cases r with
  | word r => exact regsSet_regsSet_regsGet r v s.regs
  | byte r => cases r <;> simp [setR, getR, setB, getB, bregIsHigh, bregWord, getW, regsSet, regsGet]

/-- Storing an operand's old value back restores memory. -/
theorem memGet_poke_poke_peek {w : Width} {seg off : Word} {s : State} (hr : CanRead w seg off s)
    (hp : PlainAt w seg off s) (v : BitVec w.bits) (a : Nat) :
    memGet (poke w seg off (peek w seg off s) (poke w seg off v s)).mem a = memGet s.mem a := by
  by_cases ha : a ∈ addrsOf w seg off
  · obtain ⟨k, hk, rfl⟩ := mem_addrsOf.mp ha
    have hp' : PlainAt w seg off (poke w seg off v s) := fun a ha => by rw [poke_idb]; exact hp a ha
    rw [(holds_of_stores (stores_poke ..) hp' k hk).2, (holds_peek hr hp k hk).2]
  · rw [memGet_poke_other ha, memGet_poke_other ha]

theorem bitPoke_mem_of_plain {w : Width} {m : MemOp} {s : State} (hp : PlainAt w (memSeg m s) (ea m s) s)
    (v : BitVec w.bits) : bitPoke (.mem w m) v s = poke w (memSeg m s) (ea m s) v s := by
  simp only [bitPoke, afterRead_of_plain hp]

/-- Inverting the same bit of the same operand twice (R154). -/
theorem invert_twice {o : BitOp} {b : Nat} {s t u : State} (ht : modifyBitOp o (invertBit o.width b) s = .next t)
    (hu : modifyBitOp o (invertBit o.width b) t = .next u)
    (hp : ∀ w m, o = .mem w m → PlainAt w (memSeg m s) (ea m s) s) :
    u.regs = s.regs ∧ ∀ a, memGet u.mem a = memGet s.mem a := by
  obtain ⟨hr, -, ht⟩ := modifyBitOp_eq_next.mp ht
  obtain ⟨-, -, hu⟩ := modifyBitOp_eq_next.mp hu
  cases o with
  | reg r =>
    subst ht hu
    simp only [bitPoke, bitPeek, getR_setR, invertBit_invertBit]
    exact ⟨setR_setR_getR r _ s, fun a => by simp⟩
  | mem w m =>
    have hplain := hp w m rfl
    have ht : t = poke w (memSeg m s) (ea m s) (invertBit w b (peek w (memSeg m s) (ea m s) s)) s :=
      ht.trans (bitPoke_mem_of_plain hplain _)
    have hregs : t.regs = s.regs := by rw [ht, poke_regs]
    have hea := ea_congr hregs m
    have hseg := memSeg_congr (s := s) (t := t) (by rw [ht, poke_segs]) m
    have hholds : Holds w (memSeg m t) (ea m t) (invertBit w b (peek w (memSeg m s) (ea m s) s)) t := by
      rw [hseg, hea, ht]; exact holds_of_stores (stores_poke ..) hplain
    have hu : u = poke w (memSeg m t) (ea m t) (invertBit w b (peek w (memSeg m t) (ea m t) t)) t :=
      hu.trans (bitPoke_mem_of_plain hholds.plain _)
    rw [peek_of_holds hholds, invertBit_invertBit, hseg, hea] at hu
    exact ⟨by rw [hu, poke_regs, hregs], fun a => by rw [hu, ht]; exact memGet_poke_poke_peek hr hplain _ a⟩

/-- Settles O47: the bit number is the same both times. -/
theorem invertingTwiceRestores : Obligations.InvertingTwiceRestores := by
  rintro o i s t u (⟨n, rfl⟩ | ⟨rfl, hcl, hcw⟩) ht hu hp
  · exact invert_twice (execNot1Imm_eq_next.mp ht).2 (execNot1Imm_eq_next.mp hu).2 hp
  · -- CL is no part of the operand, so the second NOT1 takes the same number from it.
    have hnum : getB .cl t = getB .cl s := by
      have hmod : modifyBitOp o (invertBit o.width (bitNumber o.width (getB .cl s))) s = .next t := ht
      obtain ⟨-, -, rfl⟩ := modifyBitOp_eq_next.mp hmod
      rcases o with (r | r) | ⟨w, m⟩
      · exact getB_setB_other (by rintro rfl; exact hcl rfl) _ s
      · exact congrArg loByte (getW_setW_other (by rintro rfl; exact hcw rfl) _ s)
      · exact getB_congr (by simp [bitPoke]) _
    have hu : modifyBitOp o (invertBit o.width (bitNumber o.width (getB .cl t))) t = .next u := hu
    rw [hnum] at hu
    exact invert_twice ht hu hp

/-! ## BTCLR and STRICT_BITIMM -/

/-- Settles O49: a special function register can always be read, and written where it is not declared code. -/
theorem bitTestClearAndBranch : Obligations.BitTestClearAndBranch := by
  intro sfr n d s hn hcode a v b
  have hsfr : inSfr s.idb a = true := inSfr_sfrAddr s.idb sfr
  have hpeek : peekByte a s = v := by simp [peekByte, hsfr, v]
  have hread : byteReadable a s = true := by simp [byteReadable, hsfr]
  refine execBtclr_eq_next.mpr ⟨hn, testClearBranch_eq_next.mpr ⟨hread, fun h => ?_, ?_⟩⟩
  · exact Bool.eq_false_iff.mp hcode h.1
  · change _ = if (peekByte a s).getLsbD b then branchShort d (pokeByte a (clearBit .byte b (peekByte a s)) (noteRead a s))
      else noteRead a s
    rw [hpeek]
    simp only [noteRead, pokeByte, hsfr, if_true]
    rfl

/-- What `out` answers begins with `r`: where that stops, `out` stops the same way. -/
def BeginsWith {α β : Type} (r : Result α) (out : Result β) : Prop := ∃ f, out = andThen r f

namespace BeginsWith

variable {α β γ : Type} {r : Result α} {out : Result β}

theorem refused (h : BeginsWith r out) {e : Refusal} (hr : r = .refused e) : out = .refused e := by
  obtain ⟨f, rfl⟩ := h; rw [hr]; rfl

theorem fault (h : BeginsWith r out) {e : Fault} (hr : r = .fault e) : out = .fault e := by
  obtain ⟨f, rfl⟩ := h; rw [hr]; rfl

theorem andThen (h : BeginsWith r out) (g : β → Result γ) : BeginsWith r (andThen out g) := by
  obtain ⟨f, rfl⟩ := h
  exact ⟨fun a => Machine.andThen (f a) g, by cases r <;> rfl⟩

theorem refl (r : Result α) : BeginsWith r r := ⟨.next, by cases r <;> rfl⟩

theorem of_next {f : α → Result β} {q : Result γ} {a : α} (hr : r = .next a) (h : BeginsWith q (f a)) :
    BeginsWith q (Machine.andThen r f) := by rw [hr]; exact h

end BeginsWith

theorem immBitNumber_strict {w : Width} {n : Byte} {s : State} (hs : s.strictBitImm = true) (hn : w.bits ≤ n.toNat) :
    immBitNumber w n s = .refused .strictBitImm := if_pos (by simp [hs, hn])

/-- Settles O48: every form asks for its bit number first. -/
theorem strictBitNumberRefused : Obligations.StrictBitNumberRefused := by
  refine fun o n s hs => ⟨fun hn i hi => ?_, fun hn sfr d => ?_⟩
  · have hnumber : BeginsWith (immBitNumber o.width n s) (exec i s) := by
      simp only [List.mem_cons, List.not_mem_nil, or_false] at hi
      rcases hi with rfl | rfl | rfl | rfl <;> exact ⟨_, rfl⟩
    exact hnumber.refused (immBitNumber_strict hs hn)
  · have hnumber : BeginsWith (immBitNumber .byte n s) (exec (.btclr sfr n d) s) := ⟨_, rfl⟩
    exact hnumber.refused (immBitNumber_strict hs hn)

end Sys2Proof.Machine
end

section
/-! PROOFS. Where an access stops an instruction (spec/20_memory.md R38, R47, spec/60_exceptions.md R170): past offset FFFFH, at a
byte that nothing has written, at declared code. Each access is refused or faults by a lemma of its own, and each form that makes
the access begins with it, or with accesses that go through and then it. -/

namespace Sys2Proof.Machine

open Sys2Proof.Claims

/-! ## Accesses that stop -/

/-- An operand inside its segment that cannot be read has a byte that nothing has written (R170). -/
theorem readAt_of_not_canRead {w : Width} {seg off : Word} {s : State} (hw : w = .word → off ≠ 0xFFFF)
    (h : ¬ CanRead w seg off s) : readAt w seg off s = .fault .unwritten := by
  have hwraps := (wraps_eq_false w off).mpr hw
  have hreadable : readable w seg off s = false := Bool.eq_false_iff.mpr fun hr => h ⟨hw, (readable_iff ..).mp hr⟩
  simp [readAt, hwraps, hreadable]

theorem readPtr32_wraps {off : Word} (h : 0xFFFD ≤ off.toNat) (seg : Word) (s : State) :
    readPtr32 seg off s = .refused .offsetWrapInAccess := if_pos h

theorem readPtr32_of_not_canRead {seg off : Word} {s : State} (hoff : off.toNat ≤ 0xFFFC) (h : ¬ CanRead32 seg off s) :
    readPtr32 seg off s = .fault .unwritten := by
  have hlow : off ≠ 0xFFFF := by rintro rfl; exact absurd hoff (by decide)
  have hhigh : off + 2 ≠ 0xFFFF := by bv_omega
  rw [readPtr32, if_neg (by omega)]
  by_cases hr : CanRead .word seg off s
  · have hr' : ¬ CanRead .word seg (off + 2) (afterRead .word seg off s) := fun hr' =>
      h ⟨hoff, hr, (canRead_congr (by simp) (by simp) ..).mp hr'⟩
    rw [readAt_of_canRead hr, andThen_next]
    change andThen (readAt .word seg (off + 2) (afterRead .word seg off s)) _ = _
    rw [readAt_of_not_canRead (fun _ => hhigh) hr']
    rfl
  · rw [readAt_of_not_canRead (fun _ => hlow) hr]
    rfl

/-- Every store to the operand is refused as `e`, whatever is stored and whatever of the state but the declared code region
differs from `s`. -/
def StoreRefused (e : Refusal) (w : Width) (seg off : Word) (s : State) : Prop :=
  ∀ (v : BitVec w.bits) (t : State), t.codeRegion = s.codeRegion → writeAt w seg off v t = .refused e

theorem storeRefused_of_wraps (seg : Word) (s : State) : StoreRefused .offsetWrapInAccess .word seg 0xFFFF s :=
  fun _ _ _ => rfl

theorem storeRefused_of_not_canWrite {w : Width} {seg off : Word} {s : State} (hw : w = .word → off ≠ 0xFFFF)
    (h : ¬ CanWrite w seg off s) : StoreRefused .storeIntoCode w seg off s := by
  intro v t ht
  have hwraps := (wraps_eq_false w off).mpr hw
  have hhits : hitsCode w seg off t = true := by
    by_contra hn
    exact h ((canWrite_congr ht ..).mp ⟨hw, (hitsCode_eq_false ..).mp (Bool.eq_false_iff.mpr hn)⟩)
  simp [writeAt, hwraps, hhits]

/-- A store with a byte in declared code (R47). -/
theorem storeRefused_of_code {w : Width} {seg off : Word} {s : State} {a : Nat} (hw : w = .word → off ≠ 0xFFFF)
    (ha : a ∈ addrsOf w seg off) (hcode : inCode s a = true) : StoreRefused .storeIntoCode w seg off s :=
  storeRefused_of_not_canWrite hw fun h => Bool.eq_false_iff.mp (h.2 a ha) hcode

/-! ## The forms that read a memory operand first -/

/-- The forms that read a memory operand and store to it. -/
inductive ModifiesOperand (w : Width) (m : MemOp) (s : State) : Instr → Prop
  | sub (r : Reg) (h : r.width = w) : ModifiesOperand w m s (.subMemReg m r)
  | shl : ModifiesOperand w m s (.shlMem w m)
  | clr1Cl : ModifiesOperand w m s (.clr1Cl (.mem w m))
  | set1Cl : ModifiesOperand w m s (.set1Cl (.mem w m))
  | not1Cl : ModifiesOperand w m s (.not1Cl (.mem w m))
  | clr1Imm (n : Byte) (h : BitImmTaken w n s) : ModifiesOperand w m s (.clr1Imm (.mem w m) n)
  | set1Imm (n : Byte) (h : BitImmTaken w n s) : ModifiesOperand w m s (.set1Imm (.mem w m) n)
  | not1Imm (n : Byte) (h : BitImmTaken w n s) : ModifiesOperand w m s (.not1Imm (.mem w m) n)

/-- The forms whose first access is to read a memory operand. -/
inductive ReadsOperand (w : Width) (m : MemOp) (s : State) : Instr → Prop
  | modifies {i : Instr} (h : ModifiesOperand w m s i) : ReadsOperand w m s i
  | test (imm : Imm) (h : imm.width = w) : ReadsOperand w m s (.testMemImm m imm)
  | test1Cl : ReadsOperand w m s (.test1Cl (.mem w m))
  | test1Imm (n : Byte) (h : BitImmTaken w n s) : ReadsOperand w m s (.test1Imm (.mem w m) n)
  | callMem16 (h : w = .word) : ReadsOperand w m s (.callMem16 m)
  | brMem16 (h : w = .word) : ReadsOperand w m s (.brMem16 m)
  | pushMem (h : w = .word) : ReadsOperand w m s (.pushMem m)

section
variable {w : Width} {m : MemOp} {s : State} {i : Instr}

theorem immBitNumber_of_taken {n : Byte} (h : BitImmTaken w n s) : immBitNumber w n s = .next (bitNumber w n) :=
  immBitNumber_eq_next.mpr ⟨h, rfl⟩

theorem ModifiesOperand.beginsWith (h : ModifiesOperand w m s i) : ∃ f, BeginsWith (modifyMem w m f s) (exec i s) := by
  have imm : ∀ {n : Byte} {g : Nat → BitVec w.bits → BitVec w.bits} {out : Result State}, BitImmTaken w n s →
      out = andThen (immBitNumber w n s) (fun b => modifyBitOp (.mem w m) (g b) s) →
      ∃ f, BeginsWith (modifyMem w m f s) out := by
    intro n g out hn hout
    rw [hout, immBitNumber_of_taken hn]
    exact ⟨_, _, rfl⟩
  cases h with
  | sub r h => subst h; exact ⟨_, _, rfl⟩
  | shl | clr1Cl | set1Cl | not1Cl => exact ⟨_, _, rfl⟩
  | clr1Imm n hn => exact imm hn rfl
  | set1Imm n hn => exact imm hn rfl
  | not1Imm n hn => exact imm hn rfl

theorem ReadsOperand.beginsWith (h : ReadsOperand w m s i) : BeginsWith (readMem w m s) (exec i s) := by
  cases h with
  | modifies h =>
    obtain ⟨f, g, hg⟩ := h.beginsWith
    rw [hg]
    exact BeginsWith.andThen ⟨_, rfl⟩ g
  | test imm h => subst h; exact ⟨_, rfl⟩
  | test1Cl => exact ⟨_, rfl⟩
  | test1Imm n hn =>
    have htest : exec (.test1Imm (.mem w m) n) s = testOperandBit (.mem w m) (bitNumber w n) s := by
      change andThen (immBitNumber w n s) (fun b => testOperandBit (.mem w m) b s) = _
      rw [immBitNumber_of_taken hn, andThen_next]
    rw [htest]
    exact ⟨_, rfl⟩
  | callMem16 h | brMem16 h | pushMem h => subst h; exact ⟨_, rfl⟩

/-- A read-modify-write whose store is refused. -/
theorem ModifiesOperand.refused (h : ModifiesOperand w m s i) (hr : CanRead w (memSeg m s) (ea m s) s) {e : Refusal}
    (hw : StoreRefused e w (memSeg m s) (ea m s) s) : exec i s = .refused e := by
  obtain ⟨f, hf⟩ := h.beginsWith
  refine hf.refused ?_
  rw [modifyMem, readMem, readAt_of_canRead hr, andThen_next]
  exact congrArg (andThen · _) (hw _ _ (by simp))

end

/-! ## The forms that push -/

section
variable {e : Refusal} {s u : State}

theorem pushWord_refused {seg off : Word} (h : StoreRefused e .word seg off s) (hcode : u.codeRegion = s.codeRegion)
    (hseg : u.segs.ss = seg) (hoff : getW .sp u - 2 = off) (v : Word) : pushWord v u = .refused e := by
  subst hseg hoff
  exact h v _ (by simpa using hcode)

theorem nearCall_refused {target : Word} (h : pushWord u.pc u = .refused e) : nearCall target u = .refused e :=
  BeginsWith.refused ⟨_, rfl⟩ h

theorem farCall_refused {seg off : Word} (h : pushWord u.segs.ps u = .refused e) : farCall seg off u = .refused e :=
  BeginsWith.refused ⟨_, rfl⟩ h

/-- A far CALL whose first push goes through and whose second is refused. -/
theorem farCall_second_refused {seg off : Word} (hw : CanWrite .word u.segs.ss (getW .sp u - 2) u)
    (h : ∀ v, pushWord v (afterFirstPush u) = .refused e) : farCall seg off u = .refused e := by
  have hfirst : pushWord u.segs.ps u = .next (afterFirstPush u) := pushWord_eq_next.mpr ⟨hw, rfl⟩
  have hsecond : BeginsWith (pushWord _ (afterFirstPush u)) (farCall seg off u) := .of_next hfirst ⟨_, rfl⟩
  exact hsecond.refused (h _)

theorem exec_callMem32_of_farCall {m : MemOp} (hr : CanRead32 (memSeg m s) (ea m s) s)
    (h : ∀ seg off u, u.regs = s.regs → u.segs = s.segs → u.codeRegion = s.codeRegion → farCall seg off u = .refused e) :
    exec (.callMem32 m) s = .refused e := by
  have hptr : readPtr32 (memSeg m s) (ea m s) s = .next (_, _, _) := readPtr32_eq_next.mpr ⟨hr, rfl⟩
  have hcall : BeginsWith (farCall _ _ _) (exec (.callMem32 m) s) := .of_next hptr (.refl _)
  exact hcall.refused (h _ _ _ (by simp) (by simp) (by simp))

/-- The pushes of PUSH and of the five CALL forms, the pointer being read first (R48). -/
theorem exec_push_refused (h : StoreRefused e .word s.segs.ss (getW .sp s - 2) s) :
    (∀ (d seg off : Word) (r : WReg), r ≠ .sp →
      ∀ i ∈ ([.callNear d, .callReg r, .callFar off seg] : List Instr), exec i s = .refused e) ∧
    ∀ m, (CanRead .word (memSeg m s) (ea m s) s →
        exec (.pushMem m) s = .refused e ∧ exec (.callMem16 m) s = .refused e) ∧
      (CanRead32 (memSeg m s) (ea m s) s → exec (.callMem32 m) s = .refused e) := by
  have push : ∀ u v, u.regs = s.regs → u.segs = s.segs → u.codeRegion = s.codeRegion → pushWord v u = .refused e :=
    fun u v hregs hsegs hcode => pushWord_refused h hcode (by rw [hsegs]) (by rw [getW_congr hregs]) v
  have here : ∀ v, pushWord v s = .refused e := fun v => push s v rfl rfl rfl
  refine ⟨fun d seg off r hr => ?_, fun m => ⟨fun hread => ?_, fun hread => ?_⟩⟩
  · have hreg : exec (.callReg r) s = .refused e := (if_neg hr).trans (nearCall_refused (here _))
    simp only [List.forall_mem_cons]
    exact ⟨nearCall_refused (here _), hreg, farCall_refused (here _), List.forall_mem_nil _⟩
  · have after : ∀ v, pushWord v (afterRead .word (memSeg m s) (ea m s) s) = .refused e := fun v =>
      push _ v (by simp) (by simp) (by simp)
    have hv : readMem .word m s = .next (_, _) := readAt_of_canRead hread
    have hpush : BeginsWith (pushWord _ _) (exec (.pushMem m) s) := .of_next hv (.refl _)
    have hcall : BeginsWith (pushWord _ _) (exec (.callMem16 m) s) := .of_next hv ⟨_, rfl⟩
    exact ⟨hpush.refused (after _), hcall.refused (after _)⟩
  · exact exec_callMem32_of_farCall hread fun seg off u hregs hsegs hcode => farCall_refused (push u _ hregs hsegs hcode)

/-- The second push of the far CALL forms. -/
theorem exec_second_push_refused (hw : CanWrite .word s.segs.ss (getW .sp s - 2) s)
    (h : StoreRefused e .word s.segs.ss (getW .sp s - 4) s) :
    (∀ off seg : Word, exec (.callFar off seg) s = .refused e) ∧
    ∀ m, CanRead32 (memSeg m s) (ea m s) s → exec (.callMem32 m) s = .refused e := by
  have call : ∀ seg off u, u.regs = s.regs → u.segs = s.segs → u.codeRegion = s.codeRegion →
      farCall seg off u = .refused e := by
    intro seg off u hregs hsegs hcode
    have hsp := getW_congr hregs .sp
    refine farCall_second_refused ?_ fun v => pushWord_refused h (by simpa using hcode) (by simp [hsegs]) ?_ v
    · rw [hsegs, hsp]; exact (canWrite_congr hcode ..).mpr hw
    · rw [getW_poke, getW_setW_same, hsp]; bv_omega
  exact ⟨fun off seg => call seg off s rfl rfl rfl, fun m hread => exec_callMem32_of_farCall hread call⟩

/-! ## The block forms -/

variable {w : Width}

/-- MOVBK stores to its destination after it has read its source. -/
theorem exec_movbk_of_canRead (hr : CanRead w s.segs.ds0 s.regs.ix s) :
    ∃ v, BeginsWith (writeAt w s.segs.ds1 s.regs.iy v (afterRead w s.segs.ds0 s.regs.ix s)) (exec (.movbk w) s) := by
  have hsrc : readSrc w s = .next (_, _) := readAt_of_canRead hr
  have hexec : ∃ v, BeginsWith (writeDst w v (afterRead w s.segs.ds0 s.regs.ix s)) (exec (.movbk w) s) :=
    ⟨_, .of_next hsrc ⟨_, rfl⟩⟩
  simpa [writeDst, segFor, segOf, getS, getW, regsGet] using hexec

/-- CMPBK reads its destination after its source. -/
theorem exec_cmpbk_of_canRead (hr : CanRead w s.segs.ds0 s.regs.ix s) :
    BeginsWith (readAt w s.segs.ds1 s.regs.iy (afterRead w s.segs.ds0 s.regs.ix s)) (exec (.cmpbk w) s) := by
  have hsrc : readSrc w s = .next (_, _) := readAt_of_canRead hr
  have hexec : BeginsWith (readDst w (afterRead w s.segs.ds0 s.regs.ix s)) (exec (.cmpbk w) s) :=
    .of_next hsrc ⟨_, rfl⟩
  simpa [readDst, segFor, segOf, getS, getW, regsGet] using hexec

end

/-! ## Past the segment's end (R38) -/

theorem ReadsOperand.wraps {m : MemOp} {s : State} {i : Instr} (h : ReadsOperand .word m s i) (hea : ea m s = 0xFFFF) :
    exec i s = .refused .offsetWrapInAccess :=
  h.beginsWith.refused (by rw [readMem, hea]; rfl)

/-- Settles O17: the access is refused, and each form begins with it or gets to it. -/
theorem accessPastSegmentEndRefused : Obligations.AccessPastSegmentEndRefused := by
  refine fun s => ⟨fun m hea imm r n hn => ?_, fun m hea => ?_, fun hix => ?_, fun hiy => ⟨?_, fun hr => ?_⟩, fun hsp => ?_,
    fun hsp hw => ?_⟩
  · have reads {i : Instr} (h : ReadsOperand .word m s i) := h.wraps hea
    have modifies {i : Instr} (h : ModifiesOperand .word m s i) := reads (.modifies h)
    have hmov : exec (.movMemImm m (.word imm)) s = .refused .offsetWrapInAccess := by
      change writeAt .word (memSeg m s) (ea m s) imm s = _
      rw [hea]; rfl
    simp only [List.forall_mem_cons]
    exact ⟨reads (.callMem16 rfl), reads (.brMem16 rfl), reads (.pushMem rfl), hmov, modifies (.sub _ rfl),
      reads (.test _ rfl), modifies .shl, reads .test1Cl, modifies .clr1Cl, modifies .set1Cl, modifies .not1Cl,
      reads (.test1Imm n hn), modifies (.clr1Imm n hn), modifies (.set1Imm n hn), modifies (.not1Imm n hn), rfl,
      List.forall_mem_nil _⟩
  · have hptr := readPtr32_wraps hea (memSeg m s) s
    exact ⟨BeginsWith.refused ⟨_, rfl⟩ hptr, BeginsWith.refused ⟨_, rfl⟩ hptr⟩
  · have hsrc : readSrc .word s = .refused .offsetWrapInAccess := by rw [readSrc, hix]; rfl
    simp only [List.forall_mem_cons]
    exact ⟨BeginsWith.refused ⟨_, rfl⟩ hsrc, BeginsWith.refused ⟨_, rfl⟩ hsrc, BeginsWith.refused ⟨_, rfl⟩ hsrc,
      List.forall_mem_nil _⟩
  · have hread : readDst .word s = .refused .offsetWrapInAccess := by rw [readDst, hiy]; rfl
    have hwrite (v : Word) : writeDst .word v s = .refused .offsetWrapInAccess := by rw [writeDst, hiy]; rfl
    simp only [List.forall_mem_cons]
    exact ⟨BeginsWith.refused ⟨_, rfl⟩ (hwrite _), BeginsWith.refused ⟨_, rfl⟩ hread, List.forall_mem_nil _⟩
  · have hiy : s.regs.iy = 0xFFFF := hiy
    obtain ⟨v, hmovbk⟩ := exec_movbk_of_canRead hr
    have hcmpbk := exec_cmpbk_of_canRead hr
    rw [hiy] at hmovbk hcmpbk
    simp only [List.forall_mem_cons]
    exact ⟨hmovbk.refused rfl, hcmpbk.refused rfl, List.forall_mem_nil _⟩
  · have hoff : getW .sp s - 2 = 0xFFFF := by rw [hsp]; rfl
    exact exec_push_refused (hoff ▸ storeRefused_of_wraps _ s)
  · have hfirst : getW .sp s - 2 = 0x0001 := by rw [hsp]; rfl
    have hsecond : getW .sp s - 4 = 0xFFFF := by rw [hsp]; rfl
    exact exec_second_push_refused (hfirst ▸ hw) (hsecond ▸ storeRefused_of_wraps _ s)

/-! ## An operand that nothing has written (R170) -/

theorem ReadsOperand.faults {w : Width} {m : MemOp} {s : State} {i : Instr} (h : ReadsOperand w m s i)
    (hw : w = .word → ea m s ≠ 0xFFFF) (hr : ¬ CanRead w (memSeg m s) (ea m s) s) : exec i s = .fault .unwritten :=
  h.beginsWith.fault (readAt_of_not_canRead hw hr)

/-- Settles O18: the read faults, and each form begins with it or gets to it. -/
theorem unwrittenOperandFaults : Obligations.UnwrittenOperandFaults := by
  refine fun w s => ⟨fun m hw hr => ?_, fun m hea hr => ?_, fun a hw hr => ?_, fun hw hr => ?_,
    fun hw hr => ⟨?_, fun hsrc => ?_⟩⟩
  · have reads {i : Instr} (h : ReadsOperand w m s i) := h.faults hw hr
    have modifies {i : Instr} (h : ModifiesOperand w m s i) := reads (.modifies h)
    simp only [List.forall_mem_cons]
    exact ⟨fun r h => modifies (.sub r h), fun imm h => reads (.test imm h),
      ⟨modifies .shl, reads .test1Cl, modifies .clr1Cl, modifies .set1Cl, modifies .not1Cl, List.forall_mem_nil _⟩,
      fun n hn => ⟨reads (.test1Imm n hn), modifies (.clr1Imm n hn), modifies (.set1Imm n hn), modifies (.not1Imm n hn),
        List.forall_mem_nil _⟩,
      fun h => ⟨reads (.callMem16 h), reads (.brMem16 h), reads (.pushMem h), List.forall_mem_nil _⟩⟩
  · have hptr := readPtr32_of_not_canRead hea hr
    exact ⟨BeginsWith.fault ⟨_, rfl⟩ hptr, BeginsWith.fault ⟨_, rfl⟩ hptr⟩
  · exact BeginsWith.fault ⟨_, rfl⟩ (readAt_of_not_canRead hw hr)
  · have hsrc : readSrc w s = .fault .unwritten := readAt_of_not_canRead hw hr
    simp only [List.forall_mem_cons]
    exact ⟨BeginsWith.fault ⟨_, rfl⟩ hsrc, BeginsWith.fault ⟨_, rfl⟩ hsrc, BeginsWith.fault ⟨_, rfl⟩ hsrc,
      List.forall_mem_nil _⟩
  · exact BeginsWith.fault ⟨_, rfl⟩ (readAt_of_not_canRead hw hr)
  · refine (exec_cmpbk_of_canRead hsrc).fault (readAt_of_not_canRead hw fun h => hr ?_)
    exact (canRead_congr (by simp) (by simp) ..).mp h

/-! ## A store into declared code (R47) -/

/-- BTCLR at a register declared to be code stores nothing, and is refused where it would store. -/
theorem exec_btclr_of_inCode {sfr n : Byte} (d : Byte) {s : State} (hn : BitImmTaken .byte n s)
    (hcode : inCode s (sfrAddr s.idb sfr) = true) :
    let a := sfrAddr s.idb sfr
    exec (.btclr sfr n d) s =
      if (Config.sfrRead s.tick s.sfrLog a).getLsbD (n.toNat % 8) then .refused .storeIntoCode
      else .next { s with sfrLog := .read a :: s.sfrLog } := by
  intro a
  have hsfr : inSfr s.idb a = true := inSfr_sfrAddr s.idb sfr
  have hexec : exec (.btclr sfr n d) s = testClearBranch a (n.toNat % 8) d s := by
    change andThen (immBitNumber .byte n s) _ = _
    rw [immBitNumber_of_taken hn]; rfl
  rw [hexec]
  by_cases hbit : (Config.sfrRead s.tick s.sfrLog a).getLsbD (n.toNat % 8) = true
  · simp [testClearBranch, byteReadable, peekByte, hsfr, hcode, testBit, hbit, a]
  · rw [if_neg hbit]
    refine testClearBranch_eq_next.mpr ⟨by simp [byteReadable, hsfr], ?_, ?_⟩ <;> simp [peekByte, noteRead, hsfr, hbit]

/-- Settles O19: the store is refused, and each form begins with it or gets to it. -/
theorem storeIntoCodeRefused : Obligations.StoreIntoCodeRefused := by
  refine fun s a hcode => ⟨fun m w hw ha => ⟨?_, fun hr => ?_⟩, fun w hw ha => ⟨?_, fun hr => ?_⟩, fun hsp ha => ?_,
    fun hsp hsp' ha => ?_, fun sfr n d hn ha => ?_⟩
  · have hstore := storeRefused_of_code hw ha hcode
    rintro imm rfl
    exact hstore _ s rfl
  · have modifies {i : Instr} (h : ModifiesOperand w m s i) := h.refused hr (storeRefused_of_code hw ha hcode)
    simp only [List.forall_mem_cons]
    exact ⟨fun r h => modifies (.sub r h),
      ⟨modifies .shl, modifies .clr1Cl, modifies .set1Cl, modifies .not1Cl, List.forall_mem_nil _⟩,
      fun n hn => ⟨modifies (.clr1Imm n hn), modifies (.set1Imm n hn), modifies (.not1Imm n hn), List.forall_mem_nil _⟩⟩
  · exact BeginsWith.refused ⟨_, rfl⟩ (storeRefused_of_code hw ha hcode _ s rfl)
  · obtain ⟨v, hmovbk⟩ := exec_movbk_of_canRead hr
    exact hmovbk.refused (storeRefused_of_code hw ha hcode _ _ (by simp))
  · have hoff : getW .sp s - 2 ≠ 0xFFFF := fun h => hsp (by bv_omega)
    exact exec_push_refused (storeRefused_of_code (fun _ => hoff) ha hcode)
  · have hoff : getW .sp s - 2 ≠ 0xFFFF := fun h => hsp (by bv_omega)
    have hoff' : getW .sp s - 4 ≠ 0xFFFF := fun h => hsp' (by bv_omega)
    by_cases hw : CanWrite .word s.segs.ss (getW .sp s - 2) s
    · exact exec_second_push_refused hw (storeRefused_of_code (fun _ => hoff') ha hcode)
    · -- The first push meets declared code itself.
      obtain ⟨hcalls, hmems⟩ := exec_push_refused (storeRefused_of_not_canWrite (fun _ => hoff) hw)
      exact ⟨fun off seg => hcalls 0 seg off .aw (by decide) _ (by simp), fun m => (hmems m).2⟩
  · obtain rfl : a = sfrAddr s.idb sfr := ha
    exact exec_btclr_of_inCode d hn hcode

end Sys2Proof.Machine
end

section
/-! PROOFS. The state right after reset (spec/70_reset_and_hazards.md R180) and what the assembler generates: the operand of a text
(spec/30_encoding.md R69) and the displacement of a label (R71). -/

namespace Sys2Proof.Machine

open Sys2Proof.Claims

/-! ## Reset -/

/-- Settles O21: reset leaves no cell. -/
theorem resetMemoryCanonical : Obligations.ResetMemoryCanonical := reset_memWf

/-- Settles O50: the state is written out. -/
theorem resetStateValues : Obligations.ResetStateValues :=
  ⟨rfl, rfl, rfl, rfl, fun r => by cases r <;> rfl, fun _ => rfl, rfl, rfl, rfl, rfl, rfl⟩

/-! ## The operand of a text -/

theorem dispVal_asmSize (short : Bool) (d : Word) : dispVal (asmSize short d) = d := by
  unfold asmSize
  split
  · next h => exact of_decide_eq_true (Bool.and_eq_true_iff.mp h).2
  · rfl

theorem asmDisp_eq (x : AsmMem) : asmDisp x = x.var.getD 0 + x.consts.sum := by
  rw [asmDisp, List.sum_eq_foldl, ← List.foldl_assoc (op := fun a b : Word => a + b), add_zero]

/-- Settles O59: either displacement size carries the text's displacement, and an operand without one has none. -/
theorem assembledOperandAddressesTheSum : Obligations.AssembledOperandAddressesTheSum := by
  intro short x s
  rw [BitVec.add_assoc _ (x.var.getD 0), ← asmDisp_eq]
  have hzero (h : x.var = none ∧ x.consts = []) : asmDisp x = 0 := by rw [asmDisp, h.1, h.2]; rfl
  have hsize := dispVal_asmSize short (asmDisp x)
  unfold asmOperand
  cases x.base with
  | none =>
    cases x.index with
    | none => simp [ea]
    | some i =>
      dsimp only
      split
      · next h => rw [hzero h]; cases i <;> simp [ea, getW, regsGet, indRegW]
      · cases i <;> simp [ea, getW, regsGet, indexRegW, hsize]
  | some b =>
    cases x.index with
    | none =>
      dsimp only
      split
      · next h => rw [hzero h.2, h.1]; simp [ea, getW, regsGet, indRegW]
      · cases b <;> simp [ea, getW, regsGet, baseRegW, hsize]
    | some i => cases b <;> cases i <;> simp [ea, dispValOpt, hsize, getW, regsGet, baseRegW, indexRegW]

/-! ## The displacement of a label -/

/-- One byte carries a displacement exactly from -128 to 127. -/
theorem sext16_loByte_iff (d : Word) : sext16 (loByte d) = d ↔ -128 ≤ d.toInt ∧ d.toInt ≤ 127 := by
  have hlo : (loByte d).toNat = d.toNat % 256 := by simp [loByte]
  have hlt := d.isLt
  rw [← BitVec.toInt_inj, sext16, BitVec.toInt_signExtend_of_le (by decide)]
  simp only [BitVec.toInt_eq_toNat_cond]
  omega

/-- Settles O60: the displacement is the distance. -/
theorem labelDisplacementReachesTheLabel : Obligations.LabelDisplacementReachesTheLabel := by
  intro label s
  refine ⟨?_, fun d hd => ?_, ?_⟩
  · change Host.Outcome.next { s with pc := s.pc + (label - s.pc) } = _
    rw [add_sub_cancel]
  · have hd : sext16 d = label - s.pc := by
      unfold asmShort at hd
      split at hd
      · next h => rwa [← Option.some.inj hd]
      · cases hd
    change Host.Outcome.next { s with pc := s.pc + sext16 d } = _
    rw [hd, add_sub_cancel]
  · rw [← sext16_loByte_iff]
    simp [asmShort]

end Sys2Proof.Machine
end
